-- ==== Sys2Proof/Word.lean ====
section
/-! DEFINITION. The word types of the register window (10_state.md, 20_memory.md R64) and the one cut of an
integer to a register word that every rule shares (00_scope.md R9, `u32`). -/

namespace Sys2Proof

/-- A register word: 32 bits (00_scope.md R7, 20_memory.md R64). -/
abbrev Word := BitVec 32

/-- A byte of a register word (20_memory.md R64). -/
abbrev Byte := BitVec 8

/-- `u32(v)`: the integer `v` modulo 2^32 as a word (00_scope.md R9). -/
def u32 (v : Int) : Word := BitVec.ofInt 32 v

end Sys2Proof
end

