-- ==== Sys2Proof/Syntax.lean ====
section
/-! DEFINITION. The ten commands of 30_encoding.md R81, one constructor per row of spec/opcode_table.json, with the
fields their command word carries (R80, R82). The arguments ARG0..ARG3 are no part of the word (R83). -/

namespace Sys2Proof

/-- A command (30_encoding.md R81). `axis` is the AXIS field as an unsigned index and `hard` the HARD field as a
boolean (R83). -/
inductive Instr where
  /-- GO, OPCODE 0x01 (41_axis_controller.md R120) -/
  | go (axis : Nat)
  /-- STOP, OPCODE 0x02 (41_axis_controller.md R121) -/
  | stop (axis : Nat) (hard : Bool)
  /-- IDLE, OPCODE 0x03 (41_axis_controller.md R122) -/
  | idle (axis : Nat)
  /-- WAIT, OPCODE 0x04 (41_axis_controller.md R123) -/
  | wait (axis : Nat)
  /-- STATUS, OPCODE 0x05 (41_axis_controller.md R124) -/
  | status (axis : Nat)
  /-- SCALE, OPCODE 0x08 (40_timer_scaler.md R102) -/
  | scale
  /-- PGO, OPCODE 0x11 (42_planner.md R170) -/
  | pgo
  /-- PSTOP, OPCODE 0x12 (42_planner.md R171) -/
  | pstop (hard : Bool)
  /-- PIDLE, OPCODE 0x13 (42_planner.md R172) -/
  | pidle
  /-- PSTATUS, OPCODE 0x15 (42_planner.md R173) -/
  | pstatus
deriving DecidableEq, Repr

end Sys2Proof
end

