-- ==== Sys2Proof/WellFormed.lean ====
section
/-! DEFINITION. Which terms of `Instr` a command word can carry: the AXIS field is 8 bits wide, an index 0..255
(30_encoding.md R80, R83). Whether the index names an axis is the command's own check (41_axis_controller.md R110),
not the word's. -/

namespace Sys2Proof

/-- The axis index fits the 8-bit AXIS field (30_encoding.md R80). -/
def axisFits (axis : Nat) : Bool := decide (axis < 256)

/-- A command that some command word encodes. -/
def Instr.wf : Instr → Bool
  | .go axis => axisFits axis
  | .stop axis _ => axisFits axis
  | .idle axis => axisFits axis
  | .wait axis => axisFits axis
  | .status axis => axisFits axis
  | .scale => true
  | .pgo => true
  | .pstop _ => true
  | .pidle => true
  | .pstatus => true

end Sys2Proof
end

