-- ==== Sys2Proof/Decode.lean ====
section
/-! DEFINITION. The decoder of 30_encoding.md R80 to R85, total on every word and every list of bytes, and the
encoder written from the same tables. Words are little-endian in the window (20_memory.md R64). -/

namespace Sys2Proof

/-- Why a command word, or a string of bytes, is no command. -/
inductive DecodeError where
  /-- The OPCODE is not in the map of 30_encoding.md R81: the command completes with ERR_OPCODE (R85). -/
  | undefinedOpcode
  /-- A bit outside the command's used mask (R82) is set: the command completes with ERR_RESERVED (R85). -/
  | reservedBits
  /-- Fewer than the four bytes of a command word (R80: one command length). No bus access delivers this: only a
  whole word is written to CMD (20_memory.md R65). -/
  | truncated
deriving DecidableEq, Repr

/-- A field `v` of a word placed with its bit 0 at bit `lo`, the other bits 0: the manual's `[hi:lo]`. -/
def place {n : Nat} (v : BitVec n) (lo : Nat) : Word := v.setWidth 32 <<< lo

/-- OPCODE: bits 7..0 (30_encoding.md R80). -/
def opcodeField (w : Word) : BitVec 8 := w.extractLsb' 0 8

/-- AXIS: bits 15..8, zero-extended (30_encoding.md R80, R83). -/
def axisField (w : Word) : Nat := (w.extractLsb' 8 8).toNat

/-- HARD: bit 16 (30_encoding.md R80). -/
def hardField (w : Word) : Bool := w.getLsbD 16

/-- The opcode map of 30_encoding.md R81: for a defined OPCODE, the mask of the bits the command uses (R82) and the
command its fields make; none for the illegal opcodes (R85). -/
def opcodeMap (w : Word) : Option (Word × Instr) :=
  match opcodeField w with
  | 0x01#8 => some (0x0000FFFF#32, .go (axisField w))
  | 0x02#8 => some (0x0001FFFF#32, .stop (axisField w) (hardField w))
  | 0x03#8 => some (0x0000FFFF#32, .idle (axisField w))
  | 0x04#8 => some (0x0000FFFF#32, .wait (axisField w))
  | 0x05#8 => some (0x0000FFFF#32, .status (axisField w))
  | 0x08#8 => some (0x000000FF#32, .scale)
  | 0x11#8 => some (0x000000FF#32, .pgo)
  | 0x12#8 => some (0x000100FF#32, .pstop (hardField w))
  | 0x13#8 => some (0x000000FF#32, .pidle)
  | 0x15#8 => some (0x000000FF#32, .pstatus)
  | _ => none

/-- The decode checks of 30_encoding.md R84, in their order: the opcode, then the reserved bits. -/
def decode (w : Word) : Except DecodeError Instr :=
  match opcodeMap w with
  | none => .error .undefinedOpcode
  | some (used, i) => if w &&& ~~~used = 0#32 then .ok i else .error .reservedBits

/-- A command word from its three fields (30_encoding.md R80). -/
def commandWord (opcode : BitVec 8) (axis : Nat) (hard : Bool) : Word :=
  place opcode 0 ||| place (BitVec.ofNat 8 axis) 8 ||| place (BitVec.ofBool hard) 16

/-- The encoder: the word of a command, from the opcode map (30_encoding.md R81) with every unused bit 0 (R82). -/
def encode : Instr → Word
  | .go axis => commandWord 0x01#8 axis false
  | .stop axis hard => commandWord 0x02#8 axis hard
  | .idle axis => commandWord 0x03#8 axis false
  | .wait axis => commandWord 0x04#8 axis false
  | .status axis => commandWord 0x05#8 axis false
  | .scale => commandWord 0x08#8 0 false
  | .pgo => commandWord 0x11#8 0 false
  | .pstop hard => commandWord 0x12#8 0 hard
  | .pidle => commandWord 0x13#8 0 false
  | .pstatus => commandWord 0x15#8 0 false

/-- Byte k of a word: bits 8k+7..8k, at offset k (20_memory.md R64). -/
def wordByte (w : Word) (k : Nat) : Byte := w.extractLsb' (8 * k) 8

/-- The four bytes of a word as they lie at rising offsets (20_memory.md R64). -/
def wordBytes (w : Word) : List Byte := [wordByte w 0, wordByte w 1, wordByte w 2, wordByte w 3]

/-- The word of four bytes at rising offsets (20_memory.md R64). -/
def wordOfBytes (b0 b1 b2 b3 : Byte) : Word := place b0 0 ||| place b1 8 ||| place b2 16 ||| place b3 24

/-- The command at the front of a list of bytes, with the bytes after it. Every command is four bytes long
(30_encoding.md R80), little-endian (20_memory.md R64). -/
def decodeBytes : List Byte → Except DecodeError (Instr × List Byte)
  | b0 :: b1 :: b2 :: b3 :: rest =>
    match decode (wordOfBytes b0 b1 b2 b3) with
    | .ok i => .ok (i, rest)
    | .error e => .error e
  | _ => .error .truncated

/-- The command the decoder reads from a table word whose `nbits` bits are `w`, the bits above them 0: the word is
laid out as its four bytes and decoded (notes/assumptions/24.md). -/
def decodeTableWord (nbits w : Nat) : Option Instr :=
  match decodeBytes (wordBytes (BitVec.ofNat 32 (w % 2 ^ nbits))) with
  | .ok (i, _) => some i
  | .error _ => none

end Sys2Proof
end

