-- ==== Sys2Proof/Config.lean ====
section
/-! DEFINITION. The implementation parameters of 00_scope.md R6, the window base of 20_memory.md R60 and the
choice between the untimed and the timed model (60_exceptions.md R202). The block fixes none of them: State carries
one `Config` that no step changes, so that a statement about every state is about every configuration
(notes/assumptions/1.md). -/

namespace Sys2Proof

/-- Which of the two models of 60_exceptions.md R202 the platform is described by. -/
inductive Timing where
  /-- Any enabled TICK may occur between any two steps; no TCNT (41_axis_controller.md R138). -/
  | untimed
  /-- Ticks occur at clock edges, by the interval counters TCNT (60_exceptions.md R202). -/
  | timed
deriving DecidableEq, Repr

/-- The parameters of 00_scope.md R6, by the spec's names, and BASE (20_memory.md R60). Counts, indices and Q16.16
magnitudes are numbers; the phase table is a 32-bit pattern. `configLegal` (Machine/Ops.lean) gives the legal
values. -/
structure Config where
  /-- NUM_AXES -/
  numAxes : Nat
  /-- NUM_PORTS -/
  numPorts : Nat
  /-- CLK_HZ -/
  clkHz : Nat
  /-- VEL_EPS_Q, Q16.16 steps/s -/
  velEps : Nat
  /-- AXIS_RIGHT -/
  axisRight : Nat
  /-- AXIS_LEFT -/
  axisLeft : Nat
  /-- K_TURN_Q, Q16.16 metres per (revolution/s) -/
  kTurn : Nat
  /-- STEPS_PER_M_Q, Q16.16 steps per metre -/
  stepsPerM : Nat
  /-- VMAX_Q, Q16.16 m/s -/
  vmax : Nat
  /-- PHASE_TABLE: entry i in bits [4i+3:4i] -/
  phaseTable : Word
  /-- BASE: the byte address of the register window -/
  base : Nat
  /-- untimed or timed model -/
  timing : Timing
deriving DecidableEq, Repr

/-- The configuration State.reset carries: the spec's defaults where 00_scope.md R6 and D18 give one, and the values
of configuration EX1 (95_test_vectors.md) for the OPEN parameters CLK_HZ, STEPS_PER_M_Q and VMAX_Q.
DESIGN CHOICE, unsafe for a claim that rests on an OPEN value: notes/assumptions/2.md; BASE = 0:
notes/assumptions/3.md. -/
def Config.ex1 : Config where
  numAxes := 2
  numPorts := 2
  clkHz := 1000000
  velEps := 1
  axisRight := 0
  axisLeft := 1
  kTurn := 41178
  stepsPerM := 0x50000000
  vmax := 0x8000
  phaseTable := 0x98C46231#32
  base := 0
  timing := .untimed

end Sys2Proof
end

