-- ==== Sys2Proof/Machine/State.lean ====
section
/-! DEFINITION. The state of the block: every field of 10_state.md R21 to R44 by the spec's name, its reset value
(70_reset_and_hazards.md R220), the read-only configuration, and the model's own fields (the schedule of steps, the
hosts' programs, the response of the last access, the issuing port). Plain data throughout. -/

namespace Sys2Proof.Machine

/-- A[a].LAST, the status of an axis's most recent TICK (10_state.md R35, 41_axis_controller.md R139). Its 2-bit
codes are `TickStatus.code` (Machine/Flags.lean). -/
inductive TickStatus where
  /-- no tick since reset -/
  | none
  /-- a sub-tick -/
  | waiting
  /-- the idle or the stopped return -/
  | stopped
  /-- a step was driven -/
  | moving
deriving DecidableEq, Repr

/-- P[p].PSTATE, the port sequencer's state (10_state.md R44). Its 2-bit codes are `PortState.code`
(Machine/Flags.lean). -/
inductive PortState where
  /-- no command in progress -/
  | idle
  /-- a WAIT holds on axis PWAX -/
  | waitAxis
  /-- a PGO holds on the right wheel's semaphore -/
  | pwaitR
  /-- a PGO holds on the left wheel's semaphore -/
  | pwaitL
deriving DecidableEq, Repr

/-- The final codes a command ends with and the code of a command in progress (60_exceptions.md R190). -/
inductive ResultCode where
  | ok
  | errAxis
  | errNowait
  | errZerov
  | errOpcode
  | errReserved
  | pending
deriving DecidableEq, Repr

/-- The mailbox of an axis: one pending command and its flag (10_state.md R36). -/
structure Mailbox where
  /-- MB_TGT, signed Q16.16 -/
  tgt : Word
  /-- MB_ACC, unsigned Q16.16 -/
  acc : Word
  /-- MB_TOTAL -/
  total : Word
  /-- MB_SIG -/
  sig : Bool
  /-- MB_PEND -/
  pend : Bool
deriving DecidableEq, Repr

/-- The state of one axis (10_state.md R21 to R39). -/
structure Axis where
  /-- VEL, signed Q16.16 (R21) -/
  vel : Word
  /-- TGT, signed Q16.16 (R22) -/
  tgt : Word
  /-- ACCEL, unsigned Q16.16 (R23) -/
  accel : Word
  /-- TOTAL (R24) -/
  total : Word
  /-- SIG (R25) -/
  sig : Bool
  /-- RELOAD (R26) -/
  reload : BitVec 16
  /-- PERIOD (R27) -/
  period : Word
  /-- MULT (R28) -/
  mult : BitVec 16
  /-- ACCUM (R29) -/
  accum : BitVec 64
  /-- REM (R30) -/
  rem : Word
  /-- TH1 (R31) -/
  th1 : Word
  /-- TH2 (R32) -/
  th2 : Word
  /-- PHASE (R33) -/
  phase : BitVec 3
  /-- OUT (R34) -/
  out : BitVec 4
  /-- LAST (R35) -/
  last : TickStatus
  /-- MB_* (R36) -/
  mb : Mailbox
  /-- SEM (R37) -/
  sem : Bool
  /-- FORCE (R38) -/
  force : Bool
  /-- TCNT, used in the timed model only (R39) -/
  tcnt : BitVec 16
deriving DecidableEq, Repr

/-- The state of one host port (10_state.md R40 to R44). -/
structure Port where
  /-- CMD (R40) -/
  cmd : Word
  /-- ARG0 (R40) -/
  arg0 : Word
  /-- ARG1 (R40) -/
  arg1 : Word
  /-- ARG2 (R40) -/
  arg2 : Word
  /-- ARG3 (R40) -/
  arg3 : Word
  /-- RESULT (R41) -/
  result : Word
  /-- BUSY (R42) -/
  busy : Bool
  /-- DONE (R42) -/
  done : Bool
  /-- OVERRUN (R42) -/
  overrun : Bool
  /-- DONE_IE (R42) -/
  doneIe : Bool
  /-- RES0..RES7 (R43) -/
  res : Vector Word 8
  /-- SNAP_A[0..15] (R43) -/
  snapA : Vector Word 16
  /-- SNAP_B[0..15] (R43) -/
  snapB : Vector Word 16
  /-- PSTATE (R44) -/
  pstate : PortState
  /-- PWAX (R44) -/
  pwax : BitVec 8
deriving DecidableEq, Repr

/-- A host's access at a byte address, of a width in bits (20_memory.md R65, R76). -/
inductive Access where
  | read (addr width : Nat)
  | write (addr width : Nat) (value : Word)
deriving DecidableEq, Repr

/-- One line of a host's program, as the accesses it makes (30_encoding.md R86, R87). -/
inductive Line where
  /-- one access: `WR` or `RD` -/
  | access (k : Access)
  /-- `POLL`: repeat `RD P<p>.PSTAT` until bit 0 (BUSY) reads 0 -/
  | poll (p : Nat)
deriving DecidableEq, Repr

/-- One step of one agent (00_scope.md R5): an entry of the schedule. -/
inductive Event where
  /-- a register access that the schedule itself names (20_memory.md R76) -/
  | access (k : Access)
  /-- an access of host port p, by the line its program stands at (30_encoding.md R86; notes/assumptions/26.md) -/
  | host (p : Nat)
  /-- a step of port p's sequencer (41_axis_controller.md R125, 42_planner.md R176) -/
  | sequencer (p : Nat)
  /-- a TICK of axis a, untimed model (41_axis_controller.md R130, R138) -/
  | tick (a : Nat)
  /-- an edge of the timer clock, timed model (60_exceptions.md R202) -/
  | clockEdge
  /-- the reset event (70_reset_and_hazards.md R220) -/
  | reset
deriving DecidableEq, Repr

/-- Why an access is not carried out. Closed; raised by `decodeAccess` (Machine/Window.lean). The step does not stop
on it: it is delivered as the access's response (60_exceptions.md R193(a); notes/assumptions/10.md). -/
inductive Fault where
  /-- `raise BusError(off)`: wrong width, misaligned or unmapped offset (20_memory.md R65). Safe: the spec gives the
  response and no effect. -/
  | busError (off : Nat)
deriving DecidableEq, Repr

/-- Why the model has no step. Closed. -/
inductive Refusal where
  /-- An instruction without a meaning. Raised by no arm of `exec`: every command is modelled. Safe. -/
  | notModelled (mnemonic : String)
  /-- The configuration is not a legal one (00_scope.md R6: "a model refuses it"; 93_implementation_defined.md U14).
  Raised by `step`. Safe. -/
  | illegalConfig
deriving DecidableEq, Repr

/-- The block's response to a host access, the model's own record of it (notes/assumptions/11.md). -/
inductive Response where
  /-- no access yet -/
  | noAccess
  /-- the word a read returned (20_memory.md R76) -/
  | data (value : Word)
  /-- the normal response to a write (20_memory.md R67) -/
  | written
  /-- the bus error response (20_memory.md R65) -/
  | failed (reason : Fault)
  /-- the address is not in the block's window (notes/assumptions/4.md) -/
  | notSelected
deriving DecidableEq, Repr

/-- The whole state. `axes` holds A[0..NUM_AXES-1], `ports` P[0..NUM_PORTS-1]; `issuer`, `schedule`,
`resp` and `programs` are the model's own (notes/assumptions/5.md, 11.md, 12.md, 26.md). -/
structure State where
  /-- the parameters, changed by no step (10_state.md R20) -/
  cfg : Config
  axes : List Axis
  ports : List Port
  /-- the port p of the `Issue(p, w)` in hand (30_encoding.md R84) -/
  issuer : Nat
  /-- the steps still to come, oldest first -/
  schedule : List Event
  /-- the response to the last access -/
  resp : Response
  /-- the lines still to come of each port's host program, first line first (30_encoding.md R86) -/
  programs : List (List Line)
deriving DecidableEq, Repr

/-- The mailbox after reset (70_reset_and_hazards.md R220). -/
def Mailbox.reset : Mailbox where
  tgt := 0#32
  acc := 0#32
  total := 0#32
  sig := false
  pend := false

/-- An axis after reset (70_reset_and_hazards.md R220). -/
def Axis.reset : Axis where
  vel := 0#32
  tgt := 0#32
  accel := 0#32
  total := 0#32
  sig := false
  reload := 0#16
  period := 0#32
  mult := 0#16
  accum := 0#64
  rem := 0#32
  th1 := 0#32
  th2 := 0#32
  phase := 0#3
  out := 0#4
  last := .none
  mb := Mailbox.reset
  sem := false
  force := false
  tcnt := 0#16

/-- A port after reset (70_reset_and_hazards.md R220). -/
def Port.reset : Port where
  cmd := 0#32
  arg0 := 0#32
  arg1 := 0#32
  arg2 := 0#32
  arg3 := 0#32
  result := 0#32
  busy := false
  done := false
  overrun := false
  doneIe := false
  res := Vector.replicate 8 0#32
  snapA := Vector.replicate 16 0#32
  snapB := Vector.replicate 16 0#32
  pstate := .idle
  pwax := 0#8

/-- The block of configuration `c` right after reset (70_reset_and_hazards.md R220), with nothing scheduled and
no program; the model's own fields: notes/assumptions/17.md. -/
def State.resetWith (c : Config) : State where
  cfg := c
  axes := List.replicate c.numAxes Axis.reset
  ports := List.replicate c.numPorts Port.reset
  issuer := 0
  schedule := []
  resp := .noAccess
  programs := List.replicate c.numPorts []

/-- The block right after reset, in the configuration of notes/assumptions/2.md. -/
def State.reset : State := State.resetWith Config.ex1

end Sys2Proof.Machine
end

