-- ==== Sys2Proof/Machine/Operands.lean ====
section
/-! DEFINITION. The named primitives of 00_scope.md R9 and R14 and the operand forms of 30_encoding.md R83. -/

namespace Sys2Proof.Machine

/-- `s32(w)`: a word read as a two's-complement integer (00_scope.md R9). -/
abbrev s32 (w : Word) : Int := w.toInt

/-- The constant ONE: 1.0 in Q16.16 (00_scope.md R7). -/
abbrev one : Nat := 65536

/-- `tdiv(n, d)`: the quotient rounded toward zero (00_scope.md R9, R14). -/
abbrev tdiv (n d : Int) : Int := Int.tdiv n d

/-- `abs(v)` (00_scope.md R9). -/
abbrev absInt (v : Int) : Nat := v.natAbs

/-- `sign(v)`: -1, 0 or +1 (00_scope.md R9). -/
abbrev sign (v : Int) : Int := Int.sign v

/-- `sat32(v)` (00_scope.md R9). -/
def sat32 (v : Int) : Int := min 2147483647 (max (-2147483648) v)

/-- `neg_sat(v)`: negation, with -2^31 going to 2^31 - 1 (00_scope.md R9). -/
def negSat (v : Int) : Int := if v = -2147483648 then 2147483647 else -v

/-- Binary digits of the square root, from bit `k - 1` down, on the root `r` found so far. -/
def isqrtFrom (n : Nat) : Nat → Nat → Nat
  | 0, r => r
  | k + 1, r => if (r + 2 ^ k) * (r + 2 ^ k) ≤ n then isqrtFrom n k (r + 2 ^ k) else isqrtFrom n k r

/-- `isqrt(n)`: the largest integer r with r·r ≤ n (00_scope.md R9). Computed digit by digit; that it is the largest
is `isqrt_spec` (Laws/Operands.lean). -/
def isqrt (n : Nat) : Nat := isqrtFrom n (Nat.log2 n / 2 + 1) 0

/-- The normalisation of a step command: a negative count negates the velocity and is taken as its magnitude
(41_axis_controller.md R120, 42_planner.md R170). Velocity and count. -/
def normalise (v n : Int) : Int × Nat := if n < 0 then (negSat v, absInt n) else (v, absInt n)

/-- ARG0 as the signed velocity of GO and SCALE and the V of PGO (30_encoding.md R83). -/
def Port.velocityArg (p : Port) : Int := s32 p.arg0

/-- ARG1 as the signed acceleration of GO and the A of PGO (30_encoding.md R83). -/
def Port.accelerationArg (p : Port) : Int := s32 p.arg1

/-- ARG2 as the signed step count of GO (30_encoding.md R83). -/
def Port.stepsArg (p : Port) : Int := s32 p.arg2

/-- ARG2 as the angular velocity W of PGO (30_encoding.md R83). -/
def Port.turnArg (p : Port) : Int := s32 p.arg2

/-- ARG3 as the distance D of PGO (30_encoding.md R83). -/
def Port.distanceArg (p : Port) : Int := s32 p.arg3

/-- A Q16.16 literal of the host syntax: the number `digits / 10^k` times 2^16, rounded toward zero, as a word
(30_encoding.md R86). -/
def qLiteral (digits : Int) (k : Nat) : Word := u32 (tdiv (digits * 65536) (10 ^ k : Nat))

end Sys2Proof.Machine
end

