-- ==== Sys2Proof/Machine/Flags.lean ====
section
/-! DEFINITION. The codes of the named values, the packed flag words a host reads (PSTAT, PCTL, the snapshot's
FLAGS word), the write effects on them, and the output pins. The block has no condition flags (10_state.md R20). -/

namespace Sys2Proof.Machine

/-- The 2-bit code of LAST (10_state.md R35). -/
def TickStatus.code : TickStatus → BitVec 2
  | .none => 0#2
  | .waiting => 1#2
  | .stopped => 2#2
  | .moving => 3#2

/-- The 2-bit code of PSTATE (10_state.md R44). -/
def PortState.code : PortState → BitVec 2
  | .idle => 0#2
  | .waitAxis => 1#2
  | .pwaitR => 2#2
  | .pwaitL => 3#2

/-- The RESULT code (60_exceptions.md R190). -/
def ResultCode.code : ResultCode → Word
  | .ok => 0#32
  | .errAxis => 1#32
  | .errNowait => 2#32
  | .errZerov => 3#32
  | .errOpcode => 4#32
  | .errReserved => 5#32
  | .pending => 7#32

/-- PSTAT as read: BUSY bit 0, DONE bit 1, OVERRUN bit 2, PSTATE bits 5..4, PWAX bits 15..8, the other bits 0
(20_memory.md R62). -/
def Port.pstatWord (p : Port) : Word :=
  place (BitVec.ofBool p.busy) 0 ||| place (BitVec.ofBool p.done) 1 ||| place (BitVec.ofBool p.overrun) 2 |||
    place p.pstate.code 4 ||| place p.pwax 8

/-- A write to PSTAT: a 1 in bit 1 clears DONE, a 1 in bit 2 clears OVERRUN, all else is read-only
(20_memory.md R62, R67). -/
def Port.writePstat (p : Port) (v : Word) : Port :=
  { p with done := p.done && !v.getLsbD 1, overrun := p.overrun && !v.getLsbD 2 }

/-- PCTL as read: DONE_IE bit 0, the other bits 0 (20_memory.md R62). -/
def Port.pctlWord (p : Port) : Word := place (BitVec.ofBool p.doneIe) 0

/-- A write to PCTL: bit 0 is DONE_IE, the other bits ignore writes (20_memory.md R62). -/
def Port.writePctl (p : Port) (v : Word) : Port := { p with doneIe := v.getLsbD 0 }

/-- IRQ[p] = DONE ∧ DONE_IE, a level output (60_exceptions.md R195, 20_memory.md R75; notes/assumptions/16.md). -/
def Port.irq (p : Port) : Bool := p.done && p.doneIe

/-- Pin `i` of the axis's phase output group: bit `i` of OUT (10_state.md R34, 20_memory.md R75). -/
def Axis.pin (x : Axis) (i : Nat) : Bool := x.out.getLsbD i

/-- Word 11 of a snapshot of axis `a`: MB_PEND bit 0, MB_SIG 1, SIG 2, SEM 3, FORCE 4, PHASE 10..8, OUT 15..12,
LAST 17..16, the axis index 31..24, the other bits 0 (20_memory.md R63). -/
def Axis.flagsWord (a : Nat) (x : Axis) : Word :=
  place (BitVec.ofBool x.mb.pend) 0 ||| place (BitVec.ofBool x.mb.sig) 1 ||| place (BitVec.ofBool x.sig) 2 |||
    place (BitVec.ofBool x.sem) 3 ||| place (BitVec.ofBool x.force) 4 ||| place x.phase 8 ||| place x.out 12 |||
    place x.last.code 16 ||| place (BitVec.ofNat 8 a) 24

/-- `Snap(a)`: the 16-word image of an axis (20_memory.md R63). -/
def Axis.snap (a : Nat) (x : Axis) : Vector Word 16 :=
  #v[x.vel, x.tgt, x.period, x.reload.setWidth 32,
     x.accel, x.rem, x.total, x.th1,
     x.th2, x.accum.extractLsb' 0 32, x.accum.extractLsb' 32 32, x.flagsWord a,
     x.mult.setWidth 32, x.mb.tgt, x.mb.acc, x.mb.total]

end Sys2Proof.Machine
end

