-- ==== Sys2Proof/Machine/Ops.lean ====
section
/-! DEFINITION. The named operations on the state: the accessors of axes and ports (00_scope.md R10), the legality
of a configuration (R6), the one operation that ends a command with a result code (60_exceptions.md R192; the
block's only form of an exception, R10 and R198: there is no trap, hence nothing to save and no return, R199), the
one that makes a port hold, and the mailbox write (41_axis_controller.md R111). -/

namespace Sys2Proof.Machine

/-- The legal values of the parameters (00_scope.md R6; notes/assumptions/18.md). -/
def configLegal (c : Config) : Bool := decide (
  (1 ≤ c.numAxes ∧ c.numAxes ≤ 4) ∧
  (1 ≤ c.numPorts ∧ c.numPorts ≤ 15) ∧
  (1 ≤ c.clkHz ∧ c.clkHz ≤ 4294967295) ∧
  (1 ≤ c.velEps ∧ c.velEps ≤ 2147483647) ∧
  (c.axisRight < c.numAxes ∧ c.axisLeft < c.numAxes ∧ c.axisRight ≠ c.axisLeft) ∧
  c.kTurn ≤ 2147483647 ∧
  (1 ≤ c.stepsPerM ∧ c.stepsPerM ≤ 2147483647) ∧
  (1 ≤ c.vmax ∧ c.vmax ≤ 2147483647))

/-- `A[a]` (00_scope.md R10); an index that names no axis reads as a reset axis, and no rule reads it. -/
def State.axis (s : State) (a : Nat) : Axis := s.axes.getD a Axis.reset

/-- `P[p]` (00_scope.md R10); an index that names no port reads as a reset port, and no rule reads it. -/
def State.port (s : State) (p : Nat) : Port := s.ports.getD p Port.reset

/-- `A[a] <- x` (00_scope.md R10); an index that names no axis writes nothing. -/
def State.setAxis (s : State) (a : Nat) (x : Axis) : State := { s with axes := s.axes.set a x }

/-- `P[p] <- q` (00_scope.md R10); an index that names no port writes nothing. -/
def State.setPort (s : State) (p : Nat) (q : Port) : State := { s with ports := s.ports.set p q }

/-- Apply `f` to `A[a]`. -/
def State.modAxis (s : State) (a : Nat) (f : Axis → Axis) : State := s.setAxis a (f (s.axis a))

/-- Apply `f` to `P[p]`. -/
def State.modPort (s : State) (p : Nat) (f : Port → Port) : State := s.setPort p (f (s.port p))

/-- Record the block's response to an access. -/
def State.respond (s : State) (r : Response) : State := { s with resp := r }

/-- Make port `p` the issuing port of the command in hand (30_encoding.md R84). -/
def State.withIssuer (s : State) (p : Nat) : State := { s with issuer := p }

/-- Put the steps still to come. -/
def State.withSchedule (s : State) (l : List Event) : State := { s with schedule := l }

/-- The lines still to come of port p's host program; an index that names no port has none. -/
def State.program (s : State) (p : Nat) : List Line := s.programs.getD p []

/-- Put the lines still to come of port p's host program; an index that names no port writes nothing. -/
def State.withProgram (s : State) (p : Nat) (l : List Line) : State := { s with programs := s.programs.set p l }

/-- `AxisValid(a)` (41_axis_controller.md R110). -/
def axisValid (c : Config) (a : Nat) : Bool := decide (a < c.numAxes)

/-- `complete(p, code)` on the port (60_exceptions.md R192). -/
def Port.complete (q : Port) (code : ResultCode) : Port :=
  { q with result := code.code, done := true, busy := false, pstate := .idle }

/-- `complete(p, code)` (60_exceptions.md R192). -/
def complete (p : Nat) (code : ResultCode) (s : State) : State := s.modPort p (fun q => q.complete code)

/-- A blocking command holds its port: the sequencer state, BUSY and the PENDING result
(41_axis_controller.md R123, 42_planner.md R175). -/
def Port.hold (q : Port) (st : PortState) : Port :=
  { q with pstate := st, busy := true, result := ResultCode.pending.code }

/-- The mailbox write of 41_axis_controller.md R111 on the axis: the five mailbox fields and, when the timer is
stopped, the forced tick. `t` is signed Q16.16, `acc` unsigned Q16.16, `n` the step count. -/
def Axis.mbWrite (x : Axis) (t : Int) (acc n : Nat) : Axis :=
  { x with
    mb := { tgt := u32 t, acc := BitVec.ofNat 32 acc, total := BitVec.ofNat 32 n, sig := decide (n ≠ 0), pend := true }
    force := x.force || decide (x.reload = 0#16) }

/-- `MbWrite(a, t, acc, n)` (41_axis_controller.md R111). -/
def mbWrite (a : Nat) (t : Int) (acc n : Nat) (s : State) : State := s.modAxis a (fun x => x.mbWrite t acc n)

/-- The body of GO after its axis check, and of the planner's `WheelGo`: the magnitude of the acceleration, the
normalisation of a negative count, the mailbox write (41_axis_controller.md R120, 42_planner.md R170). -/
def goBody (a : Nat) (v acc n : Int) (s : State) : State :=
  mbWrite a (normalise v n).1 (absInt acc) (normalise v n).2 s

/-- The body of STOP after its axis check: target 0 with acceleration 0 (hard) or the active configuration's
(soft) (41_axis_controller.md R121). -/
def stopBody (a : Nat) (hard : Bool) (s : State) : State :=
  mbWrite a 0 (if hard then 0 else (s.axis a).accel.toNat) 0 s

/-- `A[a].OUT <- 0b0000`: all phases off (41_axis_controller.md R122). -/
def phasesOff (a : Nat) (s : State) : State := s.modAxis a (fun x => { x with out := 0#4 })

/-- The body of IDLE after its axis check: a hard stop, then all phases off (41_axis_controller.md R122). -/
def idleBody (a : Nat) (s : State) : State := phasesOff a (mbWrite a 0 0 0 s)

/-- Take the semaphore of an axis (20_memory.md R73). -/
def takeSem (a : Nat) (s : State) : State := s.modAxis a (fun x => { x with sem := false })

end Sys2Proof.Machine
end

