-- ==== Sys2Proof/Machine/AxisController.lean ====
section
/-! DEFINITION. The five commands of the axis controller, in the calling command's atomic step
(41_axis_controller.md R110 to R124). `s.issuer` is the issuing port p. -/

namespace Sys2Proof.Machine

/-- GO (41_axis_controller.md R120). -/
def execGo (axis : Nat) (s : State) : Host.Outcome State Fault Refusal :=
  let q := s.port s.issuer
  if axisValid s.cfg axis then
    .next (complete s.issuer .ok (goBody axis q.velocityArg q.accelerationArg q.stepsArg s))
  else .next (complete s.issuer .errAxis s)

/-- STOP (41_axis_controller.md R121). -/
def execStop (axis : Nat) (hard : Bool) (s : State) : Host.Outcome State Fault Refusal :=
  if axisValid s.cfg axis then .next (complete s.issuer .ok (stopBody axis hard s))
  else .next (complete s.issuer .errAxis s)

/-- IDLE (41_axis_controller.md R122). -/
def execIdle (axis : Nat) (s : State) : Host.Outcome State Fault Refusal :=
  if axisValid s.cfg axis then .next (complete s.issuer .ok (idleBody axis s))
  else .next (complete s.issuer .errAxis s)

/-- WAIT, the issue part (41_axis_controller.md R123); the completion is `sequencerStep` (Machine/Agents.lean). -/
def execWait (axis : Nat) (s : State) : Host.Outcome State Fault Refusal :=
  if axisValid s.cfg axis then
    if (s.axis axis).mb.sig then
      .next (s.modPort s.issuer (fun q => { q.hold .waitAxis with pwax := BitVec.ofNat 8 axis }))
    else .next (complete s.issuer .errNowait s)
  else .next (complete s.issuer .errAxis s)

/-- STATUS (41_axis_controller.md R124). -/
def execStatus (axis : Nat) (s : State) : Host.Outcome State Fault Refusal :=
  if axisValid s.cfg axis then
    .next (complete s.issuer .ok (s.modPort s.issuer (fun q => { q with snapA := (s.axis axis).snap axis })))
  else .next (complete s.issuer .errAxis s)

end Sys2Proof.Machine
end

