-- ==== Sys2Proof/Machine/Planner.lean ====
section
/-! DEFINITION. The kinematics planner: its datapath (42_planner.md R160 to R164), its commands (R170 to R173) and
the start of its waits (R175). `s.issuer` is the issuing port p. -/

namespace Sys2Proof.Machine

/-- The step-domain command of one wheel (42_planner.md R163). -/
structure WheelCommand where
  vel : Int
  acc : Int
  steps : Int
deriving DecidableEq, Repr

/-- The turn term of 42_planner.md R161, Q16.16 m/s. -/
def turnSpeed (c : Config) (w : Int) : Int := tdiv (c.kTurn * w) 65536

/-- The wheel velocities (right, left) before saturation (42_planner.md R161). -/
def wheelVelocities (c : Config) (v w : Int) : Int × Int := (sat32 (v + turnSpeed c w), sat32 (v - turnSpeed c w))

/-- One velocity limit (42_planner.md R162): when the offending wheel exceeds VMAX_Q, both wheels are scaled by
VMAX_Q over its magnitude. -/
def limitBoth (c : Config) (offending : Int) (wheels : Int × Int) : Int × Int :=
  if c.vmax < absInt offending then
    (tdiv (wheels.1 * c.vmax) (absInt offending), tdiv (wheels.2 * c.vmax) (absInt offending))
  else wheels

/-- The velocity saturation: the right limit, then the left limit on the values the first left
(42_planner.md R162). -/
def saturate (c : Config) (wheels : Int × Int) : Int × Int :=
  let first := limitBoth c wheels.1 wheels
  limitBoth c first.2 first

/-- The wheel velocities (right, left) of a PGO, after saturation (42_planner.md R161, R162). -/
def plannedVelocities (c : Config) (v w : Int) : Int × Int := saturate c (wheelVelocities c v w)

/-- The step-domain conversion of wheel velocity `w` for the request (V, A, D) (42_planner.md R163). -/
def wheelCommand (c : Config) (v a d w : Int) : WheelCommand where
  vel := sat32 (tdiv (w * c.stepsPerM) 65536)
  acc := sat32 (tdiv (a * w * c.stepsPerM) (v * 65536))
  steps := sat32 (tdiv (d * w * c.stepsPerM) (v * 4294967296))

/-- `WheelGo` (42_planner.md R170). -/
def wheelGo (a : Nat) (k : WheelCommand) (s : State) : State := goBody a k.vel k.acc k.steps s

/-- The eight result words of PGO (42_planner.md R170). -/
def pgoRes (r l : WheelCommand) (vr vl : Int) : Vector Word 8 :=
  #v[u32 r.vel, u32 r.acc, u32 r.steps, u32 l.vel, u32 l.acc, u32 l.steps, u32 vr, u32 vl]

/-- `WaitBegin(p, LEFT)` (42_planner.md R175). -/
def waitBeginLeft (p : Nat) (s : State) : State :=
  if (s.axis s.cfg.axisLeft).mb.sig then s.modPort p (fun q => q.hold .pwaitL) else complete p .ok s

/-- `WaitBegin(p, RIGHT)` (42_planner.md R175). -/
def waitBeginRight (p : Nat) (s : State) : State :=
  if (s.axis s.cfg.axisRight).mb.sig then s.modPort p (fun q => q.hold .pwaitR) else waitBeginLeft p s

/-- PGO of a nonzero V, before its waits: both wheel commands, then RES0..RES7 (42_planner.md R170). -/
def pgoIssue (v a w d : Int) (s : State) : State :=
  let wheels := plannedVelocities s.cfg v w
  let r := wheelCommand s.cfg v a d wheels.1
  let l := wheelCommand s.cfg v a d wheels.2
  (wheelGo s.cfg.axisLeft l (wheelGo s.cfg.axisRight r s)).modPort s.issuer
    (fun q => { q with res := pgoRes r l wheels.1 wheels.2 })

/-- PGO, the issue step (42_planner.md R164, R170, R175). -/
def execPgo (s : State) : Host.Outcome State Fault Refusal :=
  let q := s.port s.issuer
  if q.velocityArg = 0 then .next (complete s.issuer .errZerov s)
  else .next (waitBeginRight s.issuer (pgoIssue q.velocityArg q.accelerationArg q.turnArg q.distanceArg s))

/-- PSTOP (42_planner.md R171). -/
def execPstop (hard : Bool) (s : State) : Host.Outcome State Fault Refusal :=
  .next (complete s.issuer .ok (stopBody s.cfg.axisLeft hard (stopBody s.cfg.axisRight hard s)))

/-- PIDLE (42_planner.md R172). -/
def execPidle (s : State) : Host.Outcome State Fault Refusal :=
  .next (complete s.issuer .ok (idleBody s.cfg.axisLeft (idleBody s.cfg.axisRight s)))

/-- PSTATUS (42_planner.md R173). -/
def execPstatus (s : State) : Host.Outcome State Fault Refusal :=
  .next (complete s.issuer .ok (s.modPort s.issuer (fun q =>
    { q with
      snapA := (s.axis s.cfg.axisRight).snap s.cfg.axisRight
      snapB := (s.axis s.cfg.axisLeft).snap s.cfg.axisLeft })))

end Sys2Proof.Machine
end

