-- ==== Sys2Proof/Machine/Scaler.lean ====
section
/-! DEFINITION. The timer scaler (40_timer_scaler.md R100) and the SCALE command (R102). -/

namespace Sys2Proof.Machine

/-- The result of `Scale(v)`: the normalised velocity, the timer reload, the step period and the divisor
(40_timer_scaler.md R100). -/
structure Scaled where
  vel : Int
  reload : Nat
  period : Nat
  mult : Nat
deriving DecidableEq, Repr

/-- The timer disabled and the velocity exactly zero (40_timer_scaler.md R100). -/
def Scaled.off : Scaled := ⟨0, 0, 0, 0⟩

/-- The step period in timer clocks before its bounds: floor(CLK_HZ·2^16 / m) (40_timer_scaler.md R100). -/
def rawPeriod (c : Config) (m : Nat) : Nat := c.clkHz * 65536 / m

/-- The tuple of a velocity whose period `period` fits (40_timer_scaler.md R100). -/
def scaledOf (v : Int) (period : Nat) : Scaled :=
  let d := max 1 (isqrt (period / 65536))
  ⟨v, min 65535 (period / d), period, d⟩

/-- `Scale(v)` (40_timer_scaler.md R100). -/
def scale (c : Config) (v : Int) : Scaled :=
  if absInt v < c.velEps then Scaled.off
  else if 4294967295 < rawPeriod c (absInt v) then Scaled.off
  else scaledOf v (max 1 (rawPeriod c (absInt v)))

/-- Write the four fields the scaler derives (41_axis_controller.md R131, R134, R136). -/
def Axis.setScaled (x : Axis) (r : Scaled) : Axis :=
  { x with
    vel := u32 r.vel
    reload := BitVec.ofNat 16 r.reload
    period := BitVec.ofNat 32 r.period
    mult := BitVec.ofNat 16 r.mult }

/-- The eight result words of SCALE (40_timer_scaler.md R102). -/
def scaleRes (r : Scaled) : Vector Word 8 :=
  #v[u32 r.vel, BitVec.ofNat 32 r.reload, BitVec.ofNat 32 r.period, BitVec.ofNat 32 r.mult, 0#32, 0#32, 0#32, 0#32]

/-- SCALE (40_timer_scaler.md R102). -/
def execScale (s : State) : Host.Outcome State Fault Refusal :=
  let r := scale s.cfg (s.port s.issuer).velocityArg
  .next (complete s.issuer .ok (s.modPort s.issuer (fun q => { q with res := scaleRes r })))

end Sys2Proof.Machine
end

