-- ==== Sys2Proof/Machine/Dispatch.lean ====
section
/-! DEFINITION. The meaning of each command (30_encoding.md R81): one arm per constructor, one meaning per arm. -/

namespace Sys2Proof.Machine

/-- A command issued by port `s.issuer` (30_encoding.md R84). -/
def exec (i : Instr) (s : State) : Host.Outcome State Fault Refusal :=
  match i with
  | .go axis => Sys2Proof.Machine.execGo axis s
  | .stop axis hard => Sys2Proof.Machine.execStop axis hard s
  | .idle axis => Sys2Proof.Machine.execIdle axis s
  | .wait axis => Sys2Proof.Machine.execWait axis s
  | .status axis => Sys2Proof.Machine.execStatus axis s
  | .scale => Sys2Proof.Machine.execScale s
  | .pgo => Sys2Proof.Machine.execPgo s
  | .pstop hard => Sys2Proof.Machine.execPstop hard s
  | .pidle => Sys2Proof.Machine.execPidle s
  | .pstatus => Sys2Proof.Machine.execPstatus s

end Sys2Proof.Machine
end

