-- ==== Sys2Proof/Machine/Window.lean ====
section
/-! DEFINITION. The register window (20_memory.md R60 to R67, R76): which offset is which register, what a register
reads as, what a write to a plain register does. A write to CMD issues a command: Machine/Bus.lean. -/

namespace Sys2Proof.Machine

/-- The registers of the global region (20_memory.md R61). -/
inductive GlobalReg where
  | id
  | version
  | config
  | clkHz
  | velEps
  | kTurn
  | stepsPerM
  | vmax
  | phaseTable
deriving DecidableEq, Repr

/-- The registers of a port region (20_memory.md R62). -/
inductive PortReg where
  | cmd
  | arg0
  | arg1
  | arg2
  | arg3
  | result
  | pstat
  | pctl
  | res (k : Fin 8)
  | snapA (k : Fin 16)
  | snapB (k : Fin 16)
deriving DecidableEq, Repr

/-- A register of the window: global, or of port p (20_memory.md R60). -/
inductive Reg where
  | global (r : GlobalReg)
  | port (p : Nat) (r : PortReg)
deriving DecidableEq, Repr

/-- The offset of a global register (20_memory.md R61). -/
def GlobalReg.offset : GlobalReg → Nat
  | .id => 0x000
  | .version => 0x004
  | .config => 0x008
  | .clkHz => 0x00C
  | .velEps => 0x010
  | .kTurn => 0x014
  | .stepsPerM => 0x018
  | .vmax => 0x01C
  | .phaseTable => 0x020

/-- The offset of a port register from its port's base (20_memory.md R62). -/
def PortReg.offset : PortReg → Nat
  | .cmd => 0x00
  | .arg0 => 0x04
  | .arg1 => 0x08
  | .arg2 => 0x0C
  | .arg3 => 0x10
  | .result => 0x14
  | .pstat => 0x18
  | .pctl => 0x1C
  | .res k => 0x20 + 4 * k.val
  | .snapA k => 0x40 + 4 * k.val
  | .snapB k => 0x80 + 4 * k.val

/-- The offset of a register in the window (20_memory.md R60): port p's region starts at 0x100·(p+1). -/
def Reg.offset : Reg → Nat
  | .global r => r.offset
  | .port p r => 0x100 * (p + 1) + r.offset

/-- The global register whose word starts at an offset below 0x100; none where unmapped (20_memory.md R61). -/
def globalRegAt : Nat → Option GlobalReg
  | 0x00 => some .id
  | 0x04 => some .version
  | 0x08 => some .config
  | 0x0C => some .clkHz
  | 0x10 => some .velEps
  | 0x14 => some .kTurn
  | 0x18 => some .stepsPerM
  | 0x1C => some .vmax
  | 0x20 => some .phaseTable
  | _ => none

/-- The port register whose word starts at an offset below 0x100 from the port's base; none where unmapped
(20_memory.md R62). -/
def portRegAt (low : Nat) : Option PortReg :=
  if low % 4 ≠ 0 then none
  else if low / 4 < 8 then
    match low / 4 with
    | 0 => some .cmd
    | 1 => some .arg0
    | 2 => some .arg1
    | 3 => some .arg2
    | 4 => some .arg3
    | 5 => some .result
    | 6 => some .pstat
    | _ => some .pctl
  else if h : low / 4 - 8 < 8 then some (.res ⟨low / 4 - 8, h⟩)
  else if h : low / 4 - 16 < 16 then some (.snapA ⟨low / 4 - 16, h⟩)
  else if h : low / 4 - 32 < 16 then some (.snapB ⟨low / 4 - 32, h⟩)
  else none

/-- The register whose word starts at offset `off`; none where `off` is unmapped: a hole of a region, or the region
of a port p ≥ NUM_PORTS (20_memory.md R60 to R62). -/
def regAt (c : Config) (off : Nat) : Option Reg :=
  if off / 256 = 0 then (globalRegAt off).map Reg.global
  else if off / 256 - 1 < c.numPorts then (portRegAt (off % 256)).map (Reg.port (off / 256 - 1))
  else none

/-- The 12-bit offset of a byte address in the window at BASE; none for an address outside it (20_memory.md R60,
R76; notes/assumptions/4.md). -/
def windowOffset (c : Config) (addr : Nat) : Option Nat :=
  if c.base ≤ addr ∧ addr < c.base + 4096 then some (addr - c.base) else none

/-- The check of every access (20_memory.md R65, R76): 32 bits wide, aligned, mapped; else a bus error. -/
def decodeAccess (c : Config) (off width : Nat) : Except Fault Reg :=
  if width ≠ 32 ∨ off % 4 ≠ 0 then .error (.busError off)
  else
    match regAt c off with
    | some r => .ok r
    | none => .error (.busError off)

/-- CONFIG: NUM_AXES 3..0, NUM_PORTS 7..4, AXIS_RIGHT 11..8, AXIS_LEFT 15..12, 0 above (20_memory.md R61). -/
def configWord (c : Config) : Word :=
  place (BitVec.ofNat 4 c.numAxes) 0 ||| place (BitVec.ofNat 4 c.numPorts) 4 |||
    place (BitVec.ofNat 4 c.axisRight) 8 ||| place (BitVec.ofNat 4 c.axisLeft) 12

/-- The word a global register reads as (20_memory.md R61). -/
def readGlobal (c : Config) : GlobalReg → Word
  | .id => 0x57534D43#32
  | .version => 0x00070001#32
  | .config => configWord c
  | .clkHz => BitVec.ofNat 32 c.clkHz
  | .velEps => BitVec.ofNat 32 c.velEps
  | .kTurn => BitVec.ofNat 32 c.kTurn
  | .stepsPerM => BitVec.ofNat 32 c.stepsPerM
  | .vmax => BitVec.ofNat 32 c.vmax
  | .phaseTable => c.phaseTable

/-- The word a port register reads as (20_memory.md R62). -/
def Port.read (q : Port) : PortReg → Word
  | .cmd => q.cmd
  | .arg0 => q.arg0
  | .arg1 => q.arg1
  | .arg2 => q.arg2
  | .arg3 => q.arg3
  | .result => q.result
  | .pstat => q.pstatWord
  | .pctl => q.pctlWord
  | .res k => q.res[k]
  | .snapA k => q.snapA[k]
  | .snapB k => q.snapB[k]

/-- The word a register reads as; a read changes nothing (20_memory.md R67, R76). -/
def readReg (s : State) : Reg → Word
  | .global r => readGlobal s.cfg r
  | .port p r => (s.port p).read r

/-- A write to a port register other than CMD (20_memory.md R62, R67): ARG and PCTL are written, PSTAT is
write-one-to-clear, the rest ignore it. CMD's write is the command issue (Machine/Bus.lean). -/
def Port.writePlain (q : Port) (v : Word) : PortReg → Port
  | .cmd => q
  | .arg0 => { q with arg0 := v }
  | .arg1 => { q with arg1 := v }
  | .arg2 => { q with arg2 := v }
  | .arg3 => { q with arg3 := v }
  | .result => q
  | .pstat => q.writePstat v
  | .pctl => q.writePctl v
  | .res _ => q
  | .snapA _ => q
  | .snapB _ => q

/-- The byte the window holds at offset `off`: byte `off mod 4` of the register word there, little-endian; none
where unmapped (20_memory.md R64). No access moves one byte (R65): this is the layout only. -/
def windowByte (s : State) (off : Nat) : Option Byte :=
  (regAt s.cfg (off - off % 4)).map (fun r => wordByte (readReg s r) (off % 4))

end Sys2Proof.Machine
end

