-- ==== Sys2Proof/Machine/Bus.lean ====
section
/-! DEFINITION. Command issue (20_memory.md R69, 30_encoding.md R84) and the register accesses of the host ports
(20_memory.md R65 to R69, R76). -/

namespace Sys2Proof.Machine

/-- The result code of a command word that is no command (30_encoding.md R84, R85). A whole word is never
`truncated`. -/
def errorCode : DecodeError → ResultCode
  | .undefinedOpcode => .errOpcode
  | .reservedBits => .errReserved
  | .truncated => .errOpcode

/-- `Issue(p, w)` (30_encoding.md R84): decode, and end with the decode error or execute with p as the issuing
port. -/
def issue (p : Nat) (w : Word) (s : State) : Host.Outcome State Fault Refusal :=
  match decode w with
  | .ok i => exec i (s.withIssuer p)
  | .error e => .next (complete p (errorCode e) (s.withIssuer p))

/-- `P[p].CMD <- w` (20_memory.md R69). -/
def latchCommand (p : Nat) (w : Word) (s : State) : State := s.modPort p (fun q => { q with cmd := w })

/-- A legal write of `w` to port p's CMD (20_memory.md R69): dropped with OVERRUN while BUSY, else issued. -/
def writeCommand (p : Nat) (w : Word) (s : State) : Host.Outcome State Fault Refusal :=
  if (s.port p).busy then .next ((latchCommand p w s).modPort p (fun q => { q with overrun := true }))
  else issue p w (latchCommand p w s)

/-- A legal write of `v` to a register (20_memory.md R67, R76). -/
def writeReg (v : Word) (s : State) : Reg → Host.Outcome State Fault Refusal
  | .global _ => .next s
  | .port p .cmd => writeCommand p v s
  | .port p r => .next (s.modPort p (fun q => q.writePlain v r))

/-- The response to a read (20_memory.md R76): the register's word, or the bus error (R65). -/
def readResponse (s : State) (addr width : Nat) : Response :=
  match windowOffset s.cfg addr with
  | none => .notSelected
  | some off =>
    match decodeAccess s.cfg off width with
    | .error f => .failed f
    | .ok r => .data (readReg s r)

/-- A host access (20_memory.md R76): the bus error response with no effect (R65), or the read's word, or the write
with the normal response, its effect in the same step. -/
def hostAccess (k : Access) (s : State) : Host.Outcome State Fault Refusal :=
  match k with
  | .read addr width => .next (s.respond (readResponse s addr width))
  | .write addr width v =>
    match windowOffset s.cfg addr with
    | none => .next (s.respond .notSelected)
    | some off =>
      match decodeAccess s.cfg off width with
      | .error f => .next (s.respond (.failed f))
      | .ok r => writeReg v (s.respond .written) r

end Sys2Proof.Machine
end

