-- ==== Sys2Proof/Machine/Tick.lean ====
section
/-! DEFINITION. The TICK event of an axis and its parts (41_axis_controller.md R112, R113, R130 to R139), and the
timer channel of the timed model (60_exceptions.md R202). A tick reads and writes its own axis only. -/

namespace Sys2Proof.Machine

/-- `FloorSpeed(t)` in Q16.16 steps/s (41_axis_controller.md R112). -/
def floorSpeed (t : Int) : Nat := max one (absInt t / 100)

/-- `Th2(t, acc)` in steps (41_axis_controller.md R113). -/
def stopThreshold (t : Int) (acc : Nat) : Nat :=
  if acc = 0 then 0 else min 4294967295 (absInt t * absInt t / (2 * acc * 65536))

/-- The velocity a load hands to the scaler: the target when the acceleration is 0, the bootstrap speed when
starting from rest, else the current velocity (41_axis_controller.md R131). -/
def loadVelocity (vel tgt : Int) (accel : Nat) : Int :=
  if accel = 0 then tgt
  else if vel = 0 ∧ tgt ≠ 0 then sign tgt * floorSpeed tgt
  else vel

/-- TickLoad of a pending mailbox (41_axis_controller.md R131): the active configuration, the accumulator preset to
the period before the load, the scaled velocity, the step count and the thresholds; the slot is kept. -/
def Axis.load (c : Config) (x : Axis) : Axis :=
  { x.setScaled (scale c (loadVelocity (s32 x.vel) (s32 x.mb.tgt) x.mb.acc.toNat)) with
    tgt := x.mb.tgt
    accel := x.mb.acc
    total := x.mb.total
    sig := x.mb.sig
    accum := x.period.setWidth 64
    rem := x.mb.total
    th1 := BitVec.ofNat 32 (x.mb.total.toNat / 2)
    th2 := BitVec.ofNat 32 (stopThreshold (s32 x.mb.tgt) x.mb.acc.toNat)
    mb := { x.mb with pend := false } }

/-- `TickLoad(a)` (41_axis_controller.md R131). -/
def Axis.tickLoad (c : Config) (x : Axis) : Axis := if x.mb.pend then x.load c else x

/-- ACCUM plus RELOAD, the sum `Accumulate(a)` compares with PERIOD (41_axis_controller.md R133). -/
def Axis.accumNext (x : Axis) : BitVec 64 := x.accum + x.reload.setWidth 64

/-- Whether the tick is a sub-tick: the sum is below the period (41_axis_controller.md R133). -/
def Axis.subTick (x : Axis) : Bool := decide (x.accumNext < x.period.setWidth 64)

/-- The velocity `Ramp(a)` hands to the scaler when VEL ≠ TGT (41_axis_controller.md R134): a snap when the
acceleration is 0; else one increment toward the target over the period just elapsed, clamped on overshoot, with
the floor of a nonzero target or of a counted sequence that still has steps. -/
def rampVelocity (c : Config) (v t : Int) (accel period rem : Nat) : Int :=
  if accel = 0 then t
  else
    let dv : Nat := accel * period / c.clkHz
    let s := sign (t - v)
    let moved := v + s * dv
    let nv := if (s > 0 ∧ moved > t) ∨ (s < 0 ∧ moved < t) then t else moved
    if t ≠ 0 then
      if absInt nv < floorSpeed t then sign t * floorSpeed t else nv
    else if rem ≠ 0 ∧ absInt nv < one then sign v * one
    else nv

/-- `Ramp(a)` (41_axis_controller.md R134). -/
def Axis.ramp (c : Config) (x : Axis) : Axis :=
  if x.vel = x.tgt then x
  else x.setScaled (scale c
    (rampVelocity c (s32 x.vel) (s32 x.tgt) x.accel.toNat x.period.toNat x.rem.toNat))

/-- The count and the thresholds of `StepCount(a)` on a counted step: REM after the decrement, and whether a
threshold forces the target to 0 (41_axis_controller.md R136). -/
def Axis.countDown (x : Axis) : Axis :=
  let r := x.rem - 1#32
  { x with
    rem := r
    tgt := if (r = x.th1 ∧ x.vel ≠ x.tgt) ∨ r = x.th2 then 0#32 else x.tgt }

/-- The completion of a counted sequence: velocity and target 0, the scaler output of 0, the semaphore given when
SIG is 1 (41_axis_controller.md R136). -/
def Axis.finish (c : Config) (x : Axis) : Axis :=
  { x.setScaled (scale c 0) with tgt := 0#32, sem := x.sem || x.sig }

/-- `StepCount(a)` (41_axis_controller.md R136). -/
def Axis.stepCount (c : Config) (x : Axis) : Axis :=
  if x.rem = 0#32 then x
  else if x.countDown.rem = 0#32 then x.countDown.finish c
  else x.countDown

/-- Entry `i` of PHASE_TABLE: bits 4i+3..4i (00_scope.md R6). -/
def phasePattern (c : Config) (i : BitVec 3) : BitVec 4 := c.phaseTable.extractLsb' (4 * i.toNat) 4

/-- `PhaseOut(a)` (41_axis_controller.md R137); the 3-bit index wraps at 8. -/
def Axis.phaseOut (c : Config) (x : Axis) : Axis :=
  { x with
    out := phasePattern c x.phase
    phase := if s32 x.vel > 0 then x.phase + 1#3 else if s32 x.vel < 0 then x.phase + 7#3 else x.phase }

/-- A step boundary after the accumulator's period is taken off: ramp, stopped check, count, output
(41_axis_controller.md R130, source steps 5 to 8). -/
def Axis.boundary (c : Config) (x : Axis) : Axis :=
  let y := { x with accum := x.accumNext - x.period.setWidth 64 }.ramp c
  if y.vel = 0#32 then { y with last := .stopped }
  else { (y.stepCount c).phaseOut c with last := .moving }

/-- The part of TICK after the load: the idle check, the accumulation and, at a step boundary, the rest
(41_axis_controller.md R130, R132, R133). -/
def Axis.afterLoad (c : Config) (x : Axis) : Axis :=
  if x.period = 0#32 then { x with last := .stopped }
  else if x.subTick then { x with accum := x.accumNext, last := .waiting }
  else x.boundary c

/-- TICK(a), one atomic step (41_axis_controller.md R130). -/
def Axis.tick (c : Config) (x : Axis) : Axis := ({ x with force := false }.tickLoad c).afterLoad c

/-- A TICK is enabled exactly when FORCE = 1 or RELOAD ≠ 0 (41_axis_controller.md R138). -/
def Axis.tickEnabled (x : Axis) : Bool := x.force || decide (x.reload ≠ 0#16)

/-- One clock edge of an axis's timer channel (60_exceptions.md R202). -/
def Axis.clockEdge (c : Config) (x : Axis) : Axis :=
  if x.force then { x.tick c with tcnt := 0#16 }
  else if x.reload ≠ 0#16 then
    if x.reload.toNat ≤ x.tcnt.toNat + 1 then { x.tick c with tcnt := 0#16 }
    else { x with tcnt := x.tcnt + 1#16 }
  else { x with tcnt := 0#16 }

end Sys2Proof.Machine
end

