-- ==== Sys2Proof/Machine/Agents.lean ====
section
/-! DEFINITION. The steps of the agents (00_scope.md R5): the host ports (30_encoding.md R86, R87), the port sequencers (41_axis_controller.md R125,
42_planner.md R176), the axis ticks (41_axis_controller.md R130, R138), the clock edge of the timed model
(60_exceptions.md R202) and reset (70_reset_and_hazards.md R220). An agent with no step changes nothing
(notes/assumptions/7.md). -/

namespace Sys2Proof.Machine

/-- The address of port p's PSTAT register (20_memory.md R60, R62). -/
def pstatAddr (c : Config) (p : Nat) : Nat := c.base + (Reg.port p .pstat).offset

/-- The access a program line makes (30_encoding.md R86, R87). -/
def Line.toAccess (c : Config) : Line → Access
  | .access k => k
  | .poll p => .read (pstatAddr c p) 32

/-- Whether a POLL reads again after this response: until bit 0 (BUSY) reads 0 (30_encoding.md R87). A response with
no data has not read 0 (notes/assumptions/21.md). -/
def pollAgain : Response → Bool
  | .noAccess => true
  | .data w => w.getLsbD 0
  | .written => true
  | .failed _ => true
  | .notSelected => true

/-- One read of `POLL.<q>` by port p's host, whose program goes on with `rest` once BUSY has read 0
(30_encoding.md R87). -/
def pollStep (p q : Nat) (rest : List Line) (s : State) : State :=
  let r := readResponse s (pstatAddr s.cfg q) 32
  (if pollAgain r then s else s.withProgram p rest).respond r

/-- A turn of port p's host: the access of the line its program stands at, in program order (20_memory.md R70,
30_encoding.md R86). A POLL keeps its place until it has read BUSY = 0 (R87). A host with no line has no step
(notes/assumptions/7.md). -/
def hostStep (p : Nat) (s : State) : Host.Outcome State Fault Refusal :=
  match s.program p with
  | [] => .next s
  | .access k :: rest => hostAccess k (s.withProgram p rest)
  | .poll q :: rest => .next (pollStep p q rest s)

/-- The axis whose semaphore port p's sequencer waits on; none while it is IDLE (10_state.md R44). -/
def awaitedAxis (c : Config) (q : Port) : Option Nat :=
  match q.pstate with
  | .idle => none
  | .waitAxis => some q.pwax.toNat
  | .pwaitR => some c.axisRight
  | .pwaitL => some c.axisLeft

/-- Whether port p's sequencer has a step: it waits and the semaphore is given (41_axis_controller.md R125,
42_planner.md R176). -/
def sequencerEnabled (s : State) (p : Nat) : Bool :=
  decide (p < s.cfg.numPorts) &&
  match awaitedAxis s.cfg (s.port p) with
  | none => false
  | some a => (s.axis a).sem

/-- A step of port p's sequencer: take the semaphore; a WAIT or the left wait of a PGO completes, the right wait
goes on to the left (41_axis_controller.md R125, 42_planner.md R176). While it is not enabled the port holds. -/
def sequencerStep (p : Nat) (s : State) : State :=
  if sequencerEnabled s p then
    match (s.port p).pstate with
    | .idle => s
    | .waitAxis => complete p .ok (takeSem (s.port p).pwax.toNat s)
    | .pwaitR => waitBeginLeft p (takeSem s.cfg.axisRight s)
    | .pwaitL => complete p .ok (takeSem s.cfg.axisLeft s)
  else s

/-- Whether axis `a` of the untimed model has a TICK: it is an axis and its tick is enabled
(41_axis_controller.md R138). -/
def tickReady (s : State) (a : Nat) : Bool :=
  decide (s.cfg.timing = .untimed) && axisValid s.cfg a && (s.axis a).tickEnabled

/-- A TICK of axis `a` in the untimed model (41_axis_controller.md R130, R138; notes/assumptions/8.md). -/
def tickStep (a : Nat) (s : State) : State :=
  if tickReady s a then s.modAxis a (fun x => x.tick s.cfg) else s

/-- A clock edge of the timed model, every axis (60_exceptions.md R202). The order of the axes makes no difference:
a tick reads and writes its own axis only (notes/assumptions/9.md). -/
def clockStep (s : State) : State :=
  if s.cfg.timing = .timed then { s with axes := s.axes.map (fun x => x.clockEdge s.cfg) } else s

/-- The reset event (70_reset_and_hazards.md R220): every field at its reset value, the configuration unchanged; the
steps still to come stay scheduled and the hosts keep their programs (notes/assumptions/22.md). -/
def resetStep (s : State) : State := { State.resetWith s.cfg with schedule := s.schedule, programs := s.programs }

/-- One step of one agent (00_scope.md R5). -/
def runEvent (e : Event) (s : State) : Host.Outcome State Fault Refusal :=
  match e with
  | .access k => hostAccess k s
  | .host p => hostStep p s
  | .sequencer p => .next (sequencerStep p s)
  | .tick a => .next (tickStep a s)
  | .clockEdge => .next (clockStep s)
  | .reset => .next (resetStep s)

/-- The host's write of a word to port 0's CMD register (20_memory.md R60, R62): what runs a command word next
(notes/assumptions/13.md). -/
def commandWrite (c : Config) (w : Word) : Event := .access (.write (c.base + 0x100) 32 w)

/-- Release port 0, so that it accepts a command (notes/assumptions/14.md). -/
def releasePort (s : State) : State := s.modPort 0 (fun q => { q with busy := false, pstate := .idle })

end Sys2Proof.Machine
end

