-- ==== Sys2Proof/Machine/Step.lean ====
section
/-! DEFINITION. One step of the block: the agent at the head of the schedule moves (20_memory.md R70). -/

namespace Sys2Proof.Machine

/-- One step. An illegal configuration is refused (00_scope.md R6); otherwise the first scheduled agent moves, and
with nothing scheduled no agent moves (notes/assumptions/5.md, 6.md). -/
def step (s : State) : Host.Outcome State Fault Refusal :=
  if configLegal s.cfg then
    match s.schedule with
    | [] => .next s
    | e :: rest => runEvent e (s.withSchedule rest)
  else .refused .illegalConfig

/-- `s` with the command word of `nbits` bits `w` written to port 0's CMD by the very next step
(notes/assumptions/13.md, 14.md). -/
def State.withFetchWord (s : State) (nbits w : Nat) : State :=
  (releasePort s).withSchedule (commandWrite s.cfg (BitVec.ofNat 32 (w % 2 ^ nbits)) :: s.schedule)

end Sys2Proof.Machine
end

