-- ==== Sys2Proof/Machine/HostProgram.lean ====
section
/-! DEFINITION. The host's side of the window (30_encoding.md R86, R87): a program is a sequence of register accesses
by one port, and each pseudo-instruction expands to such accesses. The machine holds a port's program and takes a line
of it at each turn of that host; other agents' steps may stand between them (20_memory.md R70). -/

namespace Sys2Proof.Machine

/-- One line of a host program (30_encoding.md R86). -/
inductive HostOp where
  /-- `WR <reg>, <value>` -/
  | wr (r : Reg) (value : Word)
  /-- `RD <reg>` -/
  | rd (r : Reg)
  /-- `repeat RD P<p>.PSTAT until bit 0 (BUSY) reads 0` (30_encoding.md R87) -/
  | poll (p : Nat)
deriving DecidableEq, Repr

/-- A program line as the machine holds it: a 32-bit access at BASE plus the register's offset (20_memory.md R76), or
the repeated read of PSTAT. -/
def HostOp.line (c : Config) : HostOp → Line
  | .wr r v => .access (.write (c.base + r.offset) 32 v)
  | .rd r => .access (.read (c.base + r.offset) 32)
  | .poll p => .poll p

/-- Give port p's host a program, to run in order at its turns (30_encoding.md R86; notes/assumptions/13.md, 26.md). -/
def State.loadProgram (s : State) (p : Nat) (program : List HostOp) : State :=
  s.withProgram p (program.map (HostOp.line s.cfg))

/-- The pseudo-instructions (30_encoding.md R87); `p` is the port, `a` an axis index. -/
inductive Pseudo where
  | go (p a : Nat) (v acc n : Word)
  | run (p a : Nat) (v acc : Word)
  | stop (p a : Nat)
  | hstop (p a : Nat)
  | idle (p a : Nat)
  | wait (p a : Nat)
  | status (p a : Nat)
  | scale (p : Nat) (v : Word)
  | pgo (p : Nat) (v acc w d : Word)
  | pstop (p : Nat)
  | phstop (p : Nat)
  | pidle (p : Nat)
  | pstatus (p : Nat)
  | poll (p : Nat)
  | ack (p : Nat)
deriving DecidableEq, Repr

/-- A write to port p's CMD register of a command value (30_encoding.md R87). -/
def wrCmd (p value : Nat) : HostOp := .wr (.port p .cmd) (BitVec.ofNat 32 value)

/-- The expansion of a pseudo-instruction (30_encoding.md R87). POLL is the line that repeats its read: `pollStep`
(Machine/Agents.lean). -/
def Pseudo.expand : Pseudo → List HostOp
  | .go p a v acc n =>
    [.wr (.port p .arg0) v, .wr (.port p .arg1) acc, .wr (.port p .arg2) n, wrCmd p (0x01 + 256 * a)]
  | .run p a v acc =>
    [.wr (.port p .arg0) v, .wr (.port p .arg1) acc, .wr (.port p .arg2) 0#32, wrCmd p (0x01 + 256 * a)]
  | .stop p a => [wrCmd p (0x02 + 256 * a)]
  | .hstop p a => [wrCmd p (0x10002 + 256 * a)]
  | .idle p a => [wrCmd p (0x03 + 256 * a)]
  | .wait p a => [wrCmd p (0x04 + 256 * a)]
  | .status p a => [wrCmd p (0x05 + 256 * a)]
  | .scale p v => [.wr (.port p .arg0) v, wrCmd p 0x08]
  | .pgo p v acc w d =>
    [.wr (.port p .arg0) v, .wr (.port p .arg1) acc, .wr (.port p .arg2) w, .wr (.port p .arg3) d, wrCmd p 0x11]
  | .pstop p => [wrCmd p 0x12]
  | .phstop p => [wrCmd p 0x10012]
  | .pidle p => [wrCmd p 0x13]
  | .pstatus p => [wrCmd p 0x15]
  | .poll p => [.poll p]
  | .ack p => [.wr (.port p .pstat) 0x6#32]

/-- The source's `stepperWaitFor`: `WAIT` followed by `POLL` (30_encoding.md R87). -/
def stepperWaitFor (p a : Nat) : List HostOp := (Pseudo.wait p a).expand ++ (Pseudo.poll p).expand

/-- The source's `platformGo`: `PGO` followed by `POLL` (30_encoding.md R87). -/
def platformGo (p : Nat) (v acc w d : Word) : List HostOp := (Pseudo.pgo p v acc w d).expand ++ (Pseudo.poll p).expand

end Sys2Proof.Machine
end

