-- ==== Sys2Proof/Safety.lean ====
section
/-! DEFINITION. What a claim about the block assumes and what a safe run keeps: the states that have the axes and
ports of a legal configuration, the invariants of 10_state.md R44 to R46 and 41_axis_controller.md R138, and the
frame of a step. -/

namespace Sys2Proof.Machine

/-- The state holds one axis per axis index and one port per port index of a legal configuration (00_scope.md R6,
10_state.md), the issuing port is one of them, and each port has its host's program. -/
abbrev State.Wf (s : State) : Prop :=
  configLegal s.cfg = true ∧ s.axes.length = s.cfg.numAxes ∧ s.ports.length = s.cfg.numPorts ∧
    s.issuer < s.cfg.numPorts ∧ s.programs.length = s.cfg.numPorts

/-- Scale consistency (10_state.md R45). -/
abbrev ScaleConsistent (c : Config) (x : Axis) : Prop :=
  (x.vel = 0#32 ↔ x.period = 0#32) ∧ (x.period = 0#32 ↔ x.reload = 0#16) ∧ (x.reload = 0#16 ↔ x.mult = 0#16) ∧
    (x.period ≠ 0#32 →
      scale c (s32 x.vel) = ⟨s32 x.vel, x.reload.toNat, x.period.toNat, x.mult.toNat⟩)

/-- The accumulator bound (10_state.md R46). -/
abbrev AccumBounded (x : Axis) : Prop := x.accum.toNat < 2 ^ 32 + 2 ^ 16

/-- The ranges of the counts and magnitudes (10_state.md R23, R24, R28, R36), the signal flags of the mailbox and of
the active configuration (41_axis_controller.md R111, R143), and no more steps left than commanded. -/
abbrev CountsInRange (x : Axis) : Prop :=
  x.accel.toNat ≤ 2 ^ 31 ∧ x.total.toNat ≤ 2 ^ 31 ∧ x.mb.acc.toNat ≤ 2 ^ 31 ∧ x.mb.total.toNat ≤ 2 ^ 31 ∧
    x.mult.toNat ≤ 255 ∧ x.sig = decide (x.total ≠ 0#32) ∧ x.mb.sig = decide (x.mb.total ≠ 0#32) ∧
    x.rem.toNat ≤ x.total.toNat

/-- What every step keeps of an axis. A forced tick is pending only on a stopped timer (41_axis_controller.md
R138). -/
abbrev AxisInv (c : Config) (x : Axis) : Prop :=
  ScaleConsistent c x ∧ AccumBounded x ∧ CountsInRange x ∧ (x.force = true → x.reload = 0#16)

/-- What every step keeps of a port: BUSY exactly when the sequencer is not IDLE (10_state.md R44), PENDING exactly
while BUSY and no code outside the table (60_exceptions.md R190), and a WAIT holds on an axis of the block. -/
abbrev PortInv (c : Config) (q : Port) : Prop :=
  (q.busy = true ↔ q.pstate ≠ .idle) ∧ (q.busy = true ↔ q.result = ResultCode.pending.code) ∧
    (q.result.toNat ≤ 5 ∨ q.result = ResultCode.pending.code) ∧
    (q.pstate = .waitAxis → q.pwax.toNat < c.numAxes)

/-- The invariant of the block. -/
abbrev State.Inv (s : State) : Prop :=
  s.Wf ∧ (∀ x ∈ s.axes, AxisInv s.cfg x) ∧ (∀ q ∈ s.ports, PortInv s.cfg q)

/-- `t` is `s` but for the axes of `as` and the ports of `ps`: the configuration, the issuing port, the schedule, the
last response, the hosts' programs, the numbers of axes and ports, and every other axis and port are the same. -/
abbrev SameBut (as ps : List Nat) (s t : State) : Prop :=
  t.cfg = s.cfg ∧ t.issuer = s.issuer ∧ t.schedule = s.schedule ∧ t.resp = s.resp ∧ t.programs = s.programs ∧
    t.axes.length = s.axes.length ∧ t.ports.length = s.ports.length ∧
    (∀ b, b ∉ as → t.axis b = s.axis b) ∧ (∀ p, p ∉ ps → t.port p = s.port p)

/-- The next step of `s` is `e`, in a legal configuration, and `rest` comes after it. -/
abbrev State.NextIs (s : State) (e : Event) (rest : List Event) : Prop :=
  configLegal s.cfg = true ∧ s.schedule = e :: rest

/-- The access that the step of `e` makes, if it makes one: the schedule's own, or that of the line a host's program
stands at. -/
def State.performs (s : State) : Event → Option Access
  | .access k => some k
  | .host p => (s.program p).head?.map (Line.toAccess s.cfg)
  | .sequencer _ => none
  | .tick _ => none
  | .clockEdge => none
  | .reset => none

/-- The step of `e` writes `w` to the CMD register of a port p that is not busy: p issues a command
(20_memory.md R69). -/
abbrev State.Issues (s : State) (e : Event) (p : Nat) (w : Word) : Prop :=
  s.performs e = some (.write (s.cfg.base + 0x100 * (p + 1)) 32 w) ∧ p < s.cfg.numPorts ∧ (s.port p).busy = false

/-- The register map of a port region (20_memory.md R62), written out: each register, its offset from the port's base,
and what it reads as. PSTAT and PCTL are bit 0 BUSY, bit 1 DONE, bit 2 OVERRUN, bits 5..4 PSTATE, bits 15..8 PWAX; and
bit 0 DONE_IE. -/
def portMap (q : Port) : List (PortReg × Nat × Word) :=
  [(.cmd, 0x00, q.cmd), (.arg0, 0x04, q.arg0), (.arg1, 0x08, q.arg1), (.arg2, 0x0C, q.arg2), (.arg3, 0x10, q.arg3),
    (.result, 0x14, q.result),
    (.pstat, 0x18, BitVec.ofNat 32 (q.busy.toNat + 2 * q.done.toNat + 4 * q.overrun.toNat +
      16 * q.pstate.code.toNat + 256 * q.pwax.toNat)),
    (.pctl, 0x1C, BitVec.ofNat 32 q.doneIe.toNat)] ++
  (List.finRange 8).map (fun k => (.res k, 0x20 + 4 * k.val, q.res[k])) ++
  (List.finRange 16).map (fun k => (.snapA k, 0x40 + 4 * k.val, q.snapA[k])) ++
  (List.finRange 16).map (fun k => (.snapB k, 0x80 + 4 * k.val, q.snapB[k]))

/-- An unmapped offset of the window (20_memory.md R60 to R62): a hole of the global region, a hole of a port region,
or the region of a port that does not exist. -/
abbrev Unmapped (c : Config) (off : Nat) : Prop :=
  (off < 0x100 ∧ 0x24 ≤ off) ∨ (0x100 ≤ off ∧ (c.numPorts < off / 0x100 ∨ 0xC0 ≤ off % 0x100))

/-- A register of the window of configuration `c`: global, or of a port that exists. -/
abbrev Reg.Mapped (c : Config) : Reg → Prop
  | .global _ => True
  | .port p _ => p < c.numPorts

/-- The defined opcodes (30_encoding.md R81). -/
def definedOpcodes : List (BitVec 8) :=
  [0x01#8, 0x02#8, 0x03#8, 0x04#8, 0x05#8, 0x08#8, 0x11#8, 0x12#8, 0x13#8, 0x15#8]

/-- The used mask of a defined opcode, as 30_encoding.md R82 lists it: OPCODE and AXIS for GO, IDLE, WAIT and STATUS;
OPCODE, AXIS and HARD for STOP; OPCODE and HARD for PSTOP; OPCODE only for the rest. -/
def usedMask (op : BitVec 8) : Word :=
  if op ∈ [0x01#8, 0x03#8, 0x04#8, 0x05#8] then 0x0000FFFF#32
  else if op = 0x02#8 then 0x0001FFFF#32
  else if op = 0x12#8 then 0x000100FF#32
  else 0x000000FF#32

/-- The commands that write a mailbox (10_state.md R47). -/
def writesMailbox : Instr → Bool
  | .go _ => true
  | .stop _ _ => true
  | .idle _ => true
  | .wait _ => false
  | .status _ => false
  | .scale => false
  | .pgo => true
  | .pstop _ => true
  | .pidle => true
  | .pstatus => false

/-- The commands that write OUT (10_state.md R47). -/
def writesOut : Instr → Bool
  | .go _ => false
  | .stop _ _ => false
  | .idle _ => true
  | .wait _ => false
  | .status _ => false
  | .scale => false
  | .pgo => false
  | .pstop _ => false
  | .pidle => true
  | .pstatus => false

/-- The port as a completed command leaves it (60_exceptions.md R192): its result code, DONE set, not busy, IDLE. -/
abbrev Port.ended (q : Port) (code : Word) : Port :=
  { q with result := code, done := true, busy := false, pstate := .idle }

/-- The port as a blocking command leaves it while it holds (41_axis_controller.md R123, 42_planner.md R175). -/
abbrev Port.held (q : Port) (st : PortState) : Port := { q with pstate := st, busy := true, result := 7#32 }

/-- The axis as a mailbox write leaves it (41_axis_controller.md R111). -/
abbrev Axis.mailed (x : Axis) (t acc n : Word) : Axis :=
  { x with
    mb := ⟨t, acc, n, decide (n ≠ 0#32), true⟩
    force := x.force || decide (x.reload = 0#16) }

/-- `n` ticks of one axis, with nothing else happening on it. -/
def Axis.ticks (c : Config) : Nat → Axis → Axis
  | 0, x => x
  | n + 1, x => Axis.ticks c n (x.tick c)

/-- How many of `n` ticks of one axis drove a step (ended MOVING). -/
def Axis.movingTicks (c : Config) : Nat → Axis → Nat
  | 0, _ => 0
  | n + 1, x => (if (x.tick c).last = .moving then 1 else 0) + Axis.movingTicks c n (x.tick c)

end Sys2Proof.Machine
end

