-- ==== Sys2Proof/Certificates/Slice0/Obligations.lean ====
section
/-! DEFINITION. The statements about the block, for the provers. Each docstring names the rule of spec/ it follows. -/

open Sys2Proof Sys2Proof.Machine

/-! ### Encoding (30_encoding.md) -/

/-- Words written out from the layout of 30_encoding.md R80 and the opcode map R81: OPCODE in the low byte, AXIS in the
next, HARD in bit 16; and words the decode checks of R84 reject, each for its reason. -/
def Obligations.SpecWordsDecode : Prop :=
  decode 0x00000001#32 = .ok (.go 0) ∧ decode 0x0000FF01#32 = .ok (.go 255) ∧
  decode 0x00000102#32 = .ok (.stop 1 false) ∧ decode 0x00010002#32 = .ok (.stop 0 true) ∧
  decode 0x00000103#32 = .ok (.idle 1) ∧ decode 0x00000304#32 = .ok (.wait 3) ∧
  decode 0x0000FF05#32 = .ok (.status 255) ∧ decode 0x00000008#32 = .ok .scale ∧
  decode 0x00000011#32 = .ok .pgo ∧ decode 0x00000012#32 = .ok (.pstop false) ∧
  decode 0x00010012#32 = .ok (.pstop true) ∧ decode 0x00000013#32 = .ok .pidle ∧
  decode 0x00000015#32 = .ok .pstatus ∧
  decode 0x00000000#32 = .error .undefinedOpcode ∧ decode 0x80000009#32 = .error .undefinedOpcode ∧
  decode 0x00010001#32 = .error .reservedBits ∧ decode 0x00000108#32 = .error .reservedBits ∧
  decode 0x00020304#32 = .error .reservedBits

/-- Every well-formed command survives its encoding, as a word (30_encoding.md R80 to R84) and as the front of a string of
bytes, least significant byte first (20_memory.md R64). That a command word is also decoded from a string of bytes is the
model's inference (notes/assumptions/24.md). -/
def Obligations.DecodeOfEncode : Prop :=
  ∀ i : Instr, i.wf = true →
    decode (encode i) = .ok i ∧ ∀ rest : List Byte, decodeBytes (wordBytes (encode i) ++ rest) = .ok (i, rest)

/-- Every word that decodes is the encoding of the well-formed command it decodes to: one word per command
(30_encoding.md R80 to R85). -/
def Obligations.EncodeOfDecode : Prop :=
  ∀ (w : Word) (i : Instr), decode w = .ok i → i.wf = true ∧ encode i = w

/-- The decode checks and their order (30_encoding.md R82, R84): a word is rejected for its opcode exactly when the
opcode is not in the map, and for its reserved bits exactly when the opcode is in it and a bit outside the used mask is
set. -/
def Obligations.DecodeChecksInOrder : Prop :=
  ∀ w : Word,
    (decode w = .error .undefinedOpcode ↔ w.extractLsb' 0 8 ∉ definedOpcodes) ∧
    (decode w = .error .reservedBits ↔
      w.extractLsb' 0 8 ∈ definedOpcodes ∧ w &&& ~~~(usedMask (w.extractLsb' 0 8)) ≠ 0#32)

/-- The pseudo-instructions (30_encoding.md R87). Each expands to the accesses of the table: the CMD value it writes is the
encoding of its command, POLL is the repeated read of PSTAT, and ACK writes 6 to PSTAT. They run in program order (R86,
20_memory.md R70): a turn of a host at an access line is the step of that access with the line taken off, and a turn at a
POLL line reads PSTAT and goes on to the next line only when BUSY reads 0, so that no later line runs before that. The
schedule of turns and the held programs are the model's own (notes/assumptions/5.md, 26.md). -/
def Obligations.PseudoInstructionsExpandAndRun : Prop :=
  (∀ (p a : Nat) (v acc n w d : Word), a < 256 →
    (Pseudo.go p a v acc n).expand = [.wr (.port p .arg0) v, .wr (.port p .arg1) acc, .wr (.port p .arg2) n,
      .wr (.port p .cmd) (encode (.go a))] ∧
    (Pseudo.run p a v acc).expand = (Pseudo.go p a v acc 0#32).expand ∧
    (Pseudo.stop p a).expand = [.wr (.port p .cmd) (encode (.stop a false))] ∧
    (Pseudo.hstop p a).expand = [.wr (.port p .cmd) (encode (.stop a true))] ∧
    (Pseudo.idle p a).expand = [.wr (.port p .cmd) (encode (.idle a))] ∧
    (Pseudo.wait p a).expand = [.wr (.port p .cmd) (encode (.wait a))] ∧
    (Pseudo.status p a).expand = [.wr (.port p .cmd) (encode (.status a))] ∧
    (Pseudo.scale p v).expand = [.wr (.port p .arg0) v, .wr (.port p .cmd) (encode .scale)] ∧
    (Pseudo.pgo p v acc w d).expand = [.wr (.port p .arg0) v, .wr (.port p .arg1) acc, .wr (.port p .arg2) w,
      .wr (.port p .arg3) d, .wr (.port p .cmd) (encode .pgo)] ∧
    (Pseudo.pstop p).expand = [.wr (.port p .cmd) (encode (.pstop false))] ∧
    (Pseudo.phstop p).expand = [.wr (.port p .cmd) (encode (.pstop true))] ∧
    (Pseudo.pidle p).expand = [.wr (.port p .cmd) (encode .pidle)] ∧
    (Pseudo.pstatus p).expand = [.wr (.port p .cmd) (encode .pstatus)] ∧
    (Pseudo.poll p).expand = [.poll p] ∧ (Pseudo.ack p).expand = [.wr (.port p .pstat) 6#32] ∧
    stepperWaitFor p a = [.wr (.port p .cmd) (encode (.wait a)), .poll p] ∧
    platformGo p v acc w d = (Pseudo.pgo p v acc w d).expand ++ [.poll p]) ∧
  ∀ (s : State) (p q : Nat) (lines : List Line) (rest : List Event), s.Wf → s.NextIs (.host p) rest →
    p < s.cfg.numPorts → q < s.cfg.numPorts →
    (∀ program, (s.loadProgram p program).program p = program.map (HostOp.line s.cfg)) ∧
    (∀ r v, HostOp.line s.cfg (.wr r v) = .access (.write (s.cfg.base + r.offset) 32 v) ∧
      HostOp.line s.cfg (.rd r) = .access (.read (s.cfg.base + r.offset) 32) ∧ HostOp.line s.cfg (.poll q) = .poll q) ∧
    (∀ k, s.program p = .access k :: lines →
      step s = step ((s.withProgram p lines).withSchedule (.access k :: rest))) ∧
    (s.program p = .poll q :: lines → (s.port q).busy = true →
      step s = .next ((s.withSchedule rest).respond (.data ((s.port q).read .pstat)))) ∧
    (s.program p = .poll q :: lines → (s.port q).busy = false →
      step s = .next (((s.withSchedule rest).withProgram p lines).respond (.data ((s.port q).read .pstat))))

/-! ### Command issue and the register window (20_memory.md) -/

/-- A step whose next access writes a decodable word to an idle port's CMD is `exec` of the decoded command, on the
state with CMD latched, the normal response given, and that port issuing (20_memory.md R69, 30_encoding.md R84). The
schedule, the recorded response and the issuing port are the model's own fields (notes/assumptions/5.md, 11.md, 12.md). -/
def Obligations.StepRunsDecodedCommand : Prop :=
  ∀ (s : State) (p : Nat) (w : Word) (i : Instr) (rest : List Event),
    s.NextIs (.access (.write (s.cfg.base + 0x100 * (p + 1)) 32 w)) rest → p < s.cfg.numPorts →
    (s.port p).busy = false → decode w = .ok i →
    step s = exec i ((((s.withSchedule rest).respond .written).modPort p (fun q => { q with cmd := w })).withIssuer p)

/-- An undefined opcode completes at once with ERR_OPCODE and a reserved bit with ERR_RESERVED, and nothing else
changes but CMD (30_encoding.md R84, R85; 60_exceptions.md R191, R192). The recorded response and the issuing port are the
model's own fields (notes/assumptions/11.md, 12.md). -/
def Obligations.BadWordCompletesWithError : Prop :=
  ∀ (s : State) (p : Nat) (w : Word) (rest : List Event), s.Wf →
    s.NextIs (.access (.write (s.cfg.base + 0x100 * (p + 1)) 32 w)) rest → p < s.cfg.numPorts →
    (s.port p).busy = false →
    (w.extractLsb' 0 8 ∉ definedOpcodes ∨ w &&& ~~~(usedMask (w.extractLsb' 0 8)) ≠ 0#32) →
    ∃ t, step s = .next t ∧
      SameBut [] [p] (((s.withSchedule rest).respond .written).withIssuer p) t ∧
      t.port p = { s.port p with
        cmd := w, done := true, busy := false, pstate := .idle
        result := if w.extractLsb' 0 8 ∉ definedOpcodes then 4#32 else 5#32 }

/-- A command word written to a busy port sets OVERRUN and is dropped: CMD holds it, and nothing else changes
(20_memory.md R69, 70_reset_and_hazards.md R227). -/
def Obligations.BusyPortDropsCommand : Prop :=
  ∀ (s : State) (p : Nat) (w : Word) (rest : List Event), s.Wf →
    s.NextIs (.access (.write (s.cfg.base + 0x100 * (p + 1)) 32 w)) rest → p < s.cfg.numPorts →
    (s.port p).busy = true →
    ∃ t, step s = .next t ∧ SameBut [] [p] ((s.withSchedule rest).respond .written) t ∧
      t.port p = { s.port p with cmd := w, overrun := true }

/-- An access of the wrong width, misaligned or to an unmapped offset gets the bus error response and has no effect on
any state of the block; a read of that kind returns no data (20_memory.md R65). That the response is recorded, and that the
step goes on, is the model's choice (notes/assumptions/10.md, 11.md). -/
def Obligations.BusErrorHasNoEffect : Prop :=
  ∀ (s : State) (off width : Nat) (v : Word) (rest : List Event), off < 4096 →
    (width ≠ 32 ∨ off % 4 ≠ 0 ∨ Unmapped s.cfg off) →
    (s.NextIs (.access (.read (s.cfg.base + off) width)) rest →
      step s = .next ((s.withSchedule rest).respond (.failed (.busError off)))) ∧
    (s.NextIs (.access (.write (s.cfg.base + off) width v)) rest →
      step s = .next ((s.withSchedule rest).respond (.failed (.busError off))))

/-- A 32-bit read at a register's offset returns that register's word and changes nothing else (20_memory.md R60 to R62,
R67, R76). For the registers of a port, R62's table, with its offsets and what each reads as, is `portMap`
(Safety.lean), written out there; the global registers' table is in GlobalRegionReadsConfiguration. The recorded response
is the model's own field (notes/assumptions/11.md). -/
def Obligations.ReadReturnsRegister : Prop :=
  (∀ (s : State) (r : Reg) (rest : List Event), r.Mapped s.cfg →
    s.NextIs (.access (.read (s.cfg.base + r.offset) 32)) rest →
    step s = .next ((s.withSchedule rest).respond (.data (readReg s r)))) ∧
  (∀ (s : State) (p off : Nat) (r : PortReg) (word : Word) (rest : List Event), p < s.cfg.numPorts →
    (r, off, word) ∈ portMap (s.port p) →
    s.NextIs (.access (.read (s.cfg.base + (0x100 * (p + 1) + off)) 32)) rest →
    step s = .next ((s.withSchedule rest).respond (.data word))) ∧
  ∀ (q : Port) (r : PortReg), ∃ off word, (r, off, word) ∈ portMap q

/-- The global region (20_memory.md R61): at each of its offsets a read returns the value of the table, a write gets the
normal response and is ignored, and the offsets above them name no register. -/
def Obligations.GlobalRegionReadsConfiguration : Prop :=
  ∀ (s : State) (rest : List Event) (off : Nat) (value v : Word),
    (off, value) ∈ [(0x000, 0x57534D43#32), (0x004, 0x00070001#32),
      (0x008, BitVec.ofNat 32 (s.cfg.numAxes + 16 * s.cfg.numPorts + 256 * s.cfg.axisRight + 4096 * s.cfg.axisLeft)),
      (0x00C, BitVec.ofNat 32 s.cfg.clkHz), (0x010, BitVec.ofNat 32 s.cfg.velEps),
      (0x014, BitVec.ofNat 32 s.cfg.kTurn), (0x018, BitVec.ofNat 32 s.cfg.stepsPerM),
      (0x01C, BitVec.ofNat 32 s.cfg.vmax), (0x020, s.cfg.phaseTable)] →
    (s.NextIs (.access (.read (s.cfg.base + off) 32)) rest →
      step s = .next ((s.withSchedule rest).respond (.data value))) ∧
    (s.NextIs (.access (.write (s.cfg.base + off) 32 v)) rest →
      step s = .next ((s.withSchedule rest).respond .written)) ∧
    (∀ o, 0x24 ≤ o → o < 0x100 → regAt s.cfg o = none)

/-- A write to a port register other than CMD (20_memory.md R62, R67): ARG0..ARG3 take the word; PCTL takes bit 0; PSTAT
clears DONE where bit 1 is 1 and OVERRUN where bit 2 is 1; the read-only registers ignore it. Nothing else changes. The offsets are R62's, as `portMap` (Safety.lean) writes them
out. -/
def Obligations.PlainWriteChangesOnlyItsRegister : Prop :=
  ∀ (s : State) (p off : Nat) (r : PortReg) (word v : Word) (rest : List Event), s.Wf → p < s.cfg.numPorts → r ≠ .cmd →
    (r, off, word) ∈ portMap (s.port p) →
    s.NextIs (.access (.write (s.cfg.base + (0x100 * (p + 1) + off)) 32 v)) rest →
    ∃ t, step s = .next t ∧ SameBut [] [p] ((s.withSchedule rest).respond .written) t ∧
      (r = .arg0 → t.port p = { s.port p with arg0 := v }) ∧
      (r = .arg1 → t.port p = { s.port p with arg1 := v }) ∧
      (r = .arg2 → t.port p = { s.port p with arg2 := v }) ∧
      (r = .arg3 → t.port p = { s.port p with arg3 := v }) ∧
      (r = .pctl → t.port p = { s.port p with doneIe := v.getLsbD 0 }) ∧
      (r = .pstat → t.port p = { s.port p with
        done := (s.port p).done && !v.getLsbD 1, overrun := (s.port p).overrun && !v.getLsbD 2 }) ∧
      (r ∉ [.arg0, .arg1, .arg2, .arg3, .pctl, .pstat] → t.port p = s.port p)

/-- The bits of PSTAT and PCTL as read, the unused ones 0 (20_memory.md R62), and the four codes of PSTATE (10_state.md
R44). -/
def Obligations.PortFlagWordsAsRead : Prop :=
  ∀ q : Port,
    (q.read .pstat).getLsbD 0 = q.busy ∧ (q.read .pstat).getLsbD 1 = q.done ∧
    (q.read .pstat).getLsbD 2 = q.overrun ∧ (q.read .pstat).extractLsb' 4 2 = q.pstate.code ∧
    (q.read .pstat).extractLsb' 8 8 = q.pwax ∧
    (∀ i, i = 3 ∨ i = 6 ∨ i = 7 ∨ 16 ≤ i → (q.read .pstat).getLsbD i = false) ∧
    (q.read .pctl).getLsbD 0 = q.doneIe ∧ (∀ i, 1 ≤ i → (q.read .pctl).getLsbD i = false) ∧
    PortState.idle.code = 0#2 ∧ PortState.waitAxis.code = 1#2 ∧ PortState.pwaitR.code = 2#2 ∧ PortState.pwaitL.code = 3#2

/-- The snapshot layout (20_memory.md R63): the sixteen words, the bits of word 11, and the four codes of LAST
(10_state.md R35, 41_axis_controller.md R139). -/
def Obligations.SnapshotHoldsTheAxis : Prop :=
  ∀ (a : Nat) (x : Axis), a < 256 →
    (x.snap a).toList = [x.vel, x.tgt, x.period, x.reload.setWidth 32, x.accel, x.rem, x.total, x.th1, x.th2,
      x.accum.extractLsb' 0 32, x.accum.extractLsb' 32 32, x.flagsWord a, x.mult.setWidth 32, x.mb.tgt, x.mb.acc,
      x.mb.total] ∧
    (x.flagsWord a).getLsbD 0 = x.mb.pend ∧ (x.flagsWord a).getLsbD 1 = x.mb.sig ∧
    (x.flagsWord a).getLsbD 2 = x.sig ∧ (x.flagsWord a).getLsbD 3 = x.sem ∧ (x.flagsWord a).getLsbD 4 = x.force ∧
    (x.flagsWord a).extractLsb' 5 3 = 0#3 ∧ (x.flagsWord a).extractLsb' 8 3 = x.phase ∧
    (x.flagsWord a).getLsbD 11 = false ∧ (x.flagsWord a).extractLsb' 12 4 = x.out ∧
    (x.flagsWord a).extractLsb' 16 2 = x.last.code ∧ (x.flagsWord a).extractLsb' 18 6 = 0#6 ∧
    ((x.flagsWord a).extractLsb' 24 8).toNat = a ∧
    TickStatus.none.code = 0#2 ∧ TickStatus.waiting.code = 1#2 ∧ TickStatus.stopped.code = 2#2 ∧
    TickStatus.moving.code = 3#2

/-- Registers are stored little-endian (20_memory.md R64): byte k of the word at a register's offset is bits 8k+7..8k
and sits at that offset plus k. -/
def Obligations.WindowIsLittleEndian : Prop :=
  ∀ (s : State) (r : Reg) (k : Nat), configLegal s.cfg = true → r.Mapped s.cfg → k < 4 →
    windowByte s (r.offset + k) = some ((readReg s r).extractLsb' (8 * k) 8)

/-- IRQ[p] is DONE and DONE_IE, a level that changes in the step that changes either (60_exceptions.md R195): a
completion raises it when DONE_IE is 1, setting DONE_IE raises it when DONE is 1, writing 1 to PSTAT bit 1 lowers it,
and OVERRUN does not move it. -/
def Obligations.IrqFollowsDoneAndEnable : Prop :=
  ∀ (s : State) (p : Nat) (code : ResultCode) (v : Word), p < s.ports.length →
    ((complete p code s).port p).irq = (s.port p).doneIe ∧
    (v.getLsbD 0 = true → ((s.port p).writePctl v).irq = (s.port p).done) ∧
    (v.getLsbD 0 = false → ((s.port p).writePctl v).irq = false) ∧
    (v.getLsbD 1 = true → ((s.port p).writePstat v).irq = false) ∧
    (v.getLsbD 1 = false → ((s.port p).writePstat v).irq = (s.port p).irq) ∧
    ({ s.port p with overrun := true } : Port).irq = (s.port p).irq

/-! ### Timer scaler (40_timer_scaler.md) -/

/-- `Scale(v)` (40_timer_scaler.md R100), with the integer square root given by what it is: the timer is disabled below
the epsilon or when the period does not fit, and otherwise the tuple has the floor period raised to at least 1, a divisor
that is the largest root of P div 65536 raised to at least 1, and the reload min(65535, P div d). -/
def Obligations.ScaleFollowsItsFormula : Prop :=
  ∀ (c : Config) (v : Int), configLegal c = true →
    (v.natAbs < c.velEps → scale c v = ⟨0, 0, 0, 0⟩) ∧
    (c.velEps ≤ v.natAbs → 2 ^ 32 - 1 < c.clkHz * 2 ^ 16 / v.natAbs → scale c v = ⟨0, 0, 0, 0⟩) ∧
    (c.velEps ≤ v.natAbs → c.clkHz * 2 ^ 16 / v.natAbs ≤ 2 ^ 32 - 1 →
      ∃ P d r : Nat, P = max 1 (c.clkHz * 2 ^ 16 / v.natAbs) ∧
        r * r ≤ P / 65536 ∧ P / 65536 < (r + 1) * (r + 1) ∧ d = max 1 r ∧
        scale c v = ⟨v, min 65535 (P / d), P, d⟩)

/-- The divisor never changes the reload (40_timer_scaler.md R101). -/
def Obligations.ReloadIsMinOfPeriod : Prop :=
  ∀ (c : Config) (v : Int), configLegal c = true → (scale c v).reload = min (scale c v).period 65535

/-- `Scale` is a function of the velocity, CLK_HZ and VEL_EPS_Q alone, and scaling its own normalised velocity gives the
same tuple (40_timer_scaler.md R103). -/
def Obligations.ScaleIsIdempotent : Prop :=
  ∀ (c : Config) (v : Int), configLegal c = true →
    scale c (scale c v).vel = scale c v ∧
    ∀ d : Config, d.clkHz = c.clkHz → d.velEps = c.velEps → scale d v = scale c v

/-- SCALE completes (40_timer_scaler.md R102): RES0..RES3 are the tuple of `Scale(s32(ARG0))`, RES4..RES7 are 0, the
result is OK, and nothing else changes; no axis is written. -/
def Obligations.ScaleCommandResult : Prop :=
  ∀ s : State, s.Wf →
    ∃ t, exec .scale s = .next t ∧ SameBut [] [s.issuer] s t ∧
      t.port s.issuer = { (s.port s.issuer).ended 0#32 with
        res := #v[BitVec.ofInt 32 (scale s.cfg (s.port s.issuer).arg0.toInt).vel,
          BitVec.ofNat 32 (scale s.cfg (s.port s.issuer).arg0.toInt).reload,
          BitVec.ofNat 32 (scale s.cfg (s.port s.issuer).arg0.toInt).period,
          BitVec.ofNat 32 (scale s.cfg (s.port s.issuer).arg0.toInt).mult, 0#32, 0#32, 0#32, 0#32] }

/-! ### Axis commands (41_axis_controller.md) -/

/-- GO completes (41_axis_controller.md R120, R111): on a valid axis it writes the mailbox with the target (negated, with
saturation, for a negative count), the magnitude of the acceleration and of the count, and forces a tick when the timer is
stopped; the result is OK. On another axis the result is ERR_AXIS. Nothing else changes. -/
def Obligations.GoResult : Prop :=
  ∀ (s : State) (a : Nat), s.Wf →
    (a < s.cfg.numAxes → ∀ v n : Int, v = (s.port s.issuer).arg0.toInt → n = (s.port s.issuer).arg2.toInt →
      ∃ t, exec (.go a) s = .next t ∧ SameBut [a] [s.issuer] s t ∧
        t.port s.issuer = (s.port s.issuer).ended 0#32 ∧
        t.axis a = (s.axis a).mailed
          (BitVec.ofInt 32 (if n < 0 then (if v = -2 ^ 31 then 2 ^ 31 - 1 else -v) else v))
          (BitVec.ofNat 32 (s.port s.issuer).arg1.toInt.natAbs) (BitVec.ofNat 32 n.natAbs)) ∧
    (s.cfg.numAxes ≤ a →
      ∃ t, exec (.go a) s = .next t ∧ SameBut [] [s.issuer] s t ∧ t.port s.issuer = (s.port s.issuer).ended 1#32)

/-- STOP completes (41_axis_controller.md R121): on a valid axis the mailbox gets target 0, count 0 and acceleration 0
(hard) or the active configuration's (soft); the result is OK. On another axis it is ERR_AXIS. Nothing else changes. -/
def Obligations.StopResult : Prop :=
  ∀ (s : State) (a : Nat) (hard : Bool), s.Wf →
    (a < s.cfg.numAxes →
      ∃ t, exec (.stop a hard) s = .next t ∧ SameBut [a] [s.issuer] s t ∧
        t.port s.issuer = (s.port s.issuer).ended 0#32 ∧
        t.axis a = (s.axis a).mailed 0#32 (if hard then 0#32 else (s.axis a).accel) 0#32) ∧
    (s.cfg.numAxes ≤ a →
      ∃ t, exec (.stop a hard) s = .next t ∧ SameBut [] [s.issuer] s t ∧
        t.port s.issuer = (s.port s.issuer).ended 1#32)

/-- IDLE completes (41_axis_controller.md R122): on a valid axis the mailbox gets a hard stop and OUT is 0 in the same
step, PHASE unchanged; the result is OK. On another axis it is ERR_AXIS. Nothing else changes. -/
def Obligations.IdleResult : Prop :=
  ∀ (s : State) (a : Nat), s.Wf →
    (a < s.cfg.numAxes →
      ∃ t, exec (.idle a) s = .next t ∧ SameBut [a] [s.issuer] s t ∧
        t.port s.issuer = (s.port s.issuer).ended 0#32 ∧
        t.axis a = { (s.axis a).mailed 0#32 0#32 0#32 with out := 0#4 }) ∧
    (s.cfg.numAxes ≤ a →
      ∃ t, exec (.idle a) s = .next t ∧ SameBut [] [s.issuer] s t ∧ t.port s.issuer = (s.port s.issuer).ended 1#32)

/-- WAIT completes its issue (41_axis_controller.md R123): on a valid axis whose last issued command signals, the port
holds on it with BUSY and PENDING; where it does not signal the result is ERR_NOWAIT at once; on another axis it is
ERR_AXIS. Nothing else changes, and no axis is written. -/
def Obligations.WaitResult : Prop :=
  ∀ (s : State) (a : Nat), s.Wf →
    ∃ t, exec (.wait a) s = .next t ∧ SameBut [] [s.issuer] s t ∧
      (a < s.cfg.numAxes → (s.axis a).mb.sig = true →
        t.port s.issuer = { (s.port s.issuer).held .waitAxis with pwax := BitVec.ofNat 8 a }) ∧
      (a < s.cfg.numAxes → (s.axis a).mb.sig = false → t.port s.issuer = (s.port s.issuer).ended 2#32) ∧
      (s.cfg.numAxes ≤ a → t.port s.issuer = (s.port s.issuer).ended 1#32)

/-- STATUS completes (41_axis_controller.md R124): on a valid axis SNAP_A is the axis's image and the result is OK; on
another axis it is ERR_AXIS. SNAP_B and everything else is unchanged. -/
def Obligations.StatusResult : Prop :=
  ∀ (s : State) (a : Nat), s.Wf →
    ∃ t, exec (.status a) s = .next t ∧ SameBut [] [s.issuer] s t ∧
      (a < s.cfg.numAxes →
        t.port s.issuer = { (s.port s.issuer).ended 0#32 with snapA := (s.axis a).snap a }) ∧
      (s.cfg.numAxes ≤ a → t.port s.issuer = (s.port s.issuer).ended 1#32)

/-- A GO with zero steps never signals, and a WAIT after it reports nothing to wait on without blocking
(41_axis_controller.md R142). -/
def Obligations.ZeroStepsNeverSignal : Prop :=
  ∀ (s : State) (a : Nat), s.Wf → a < s.cfg.numAxes → (s.port s.issuer).arg2 = 0#32 →
    ∃ t u, exec (.go a) s = .next t ∧ (t.axis a).mb.sig = false ∧ exec (.wait a) t = .next u ∧
      (u.port s.issuer).result = 2#32 ∧ (u.port s.issuer).busy = false ∧ (u.port s.issuer).pstate = .idle

/-- What any command leaves alone (10_state.md R47, 60_exceptions.md R205): the configuration, the schedule, the hosts'
programs, the last response, every port but the issuing one, of every axis all but the mailbox, FORCE and OUT, and every byte of the
register window outside the issuing port's region. -/
def Obligations.CommandFrame : Prop :=
  ∀ (i : Instr) (s t : State), exec i s = .next t →
    t.cfg = s.cfg ∧ t.issuer = s.issuer ∧ t.schedule = s.schedule ∧ t.resp = s.resp ∧ t.programs = s.programs ∧
    t.axes.length = s.axes.length ∧ t.ports.length = s.ports.length ∧
    (∀ q, q ≠ s.issuer → t.port q = s.port q) ∧
    (∀ a, t.axis a = { s.axis a with mb := (t.axis a).mb, force := (t.axis a).force, out := (t.axis a).out }) ∧
    (writesMailbox i = false → t.axes = s.axes) ∧
    (writesOut i = false → ∀ a, (t.axis a).out = (s.axis a).out) ∧
    (∀ off, off / 0x100 ≠ s.issuer + 1 → windowByte t off = windowByte s off)

/-- A command that ends with an error code changed no state but its port's RESULT and DONE (60_exceptions.md R190): on a
ready port, whatever command ends with a code from 1 to 5. -/
def Obligations.ErrorCodeChangesNothingElse : Prop :=
  ∀ (i : Instr) (s t : State), s.Wf → (s.port s.issuer).busy = false → (s.port s.issuer).pstate = .idle →
    exec i s = .next t → 1 ≤ (t.port s.issuer).result.toNat → (t.port s.issuer).result.toNat ≤ 5 →
    SameBut [] [s.issuer] s t ∧
      t.port s.issuer = { s.port s.issuer with result := (t.port s.issuer).result, done := true }

/-! ### Planner (42_planner.md) -/

/-- PGO of a nonzero V completes its issue (42_planner.md R161 to R163, R170, R175): both wheels' mailboxes are written
with the step-domain commands of the saturated velocities, RES0..RES7 hold them, and the port holds on the right wheel,
else on the left, or completes with OK when neither wheel has steps. Nothing else changes. `sat` is sat32 and `neg` is
neg_sat, as 00_scope.md R9 defines them. -/
def Obligations.PgoResult : Prop :=
  ∀ sat neg : Int → Int, (∀ x, sat x = min (2 ^ 31 - 1) (max (-2 ^ 31) x)) →
    (∀ x, neg x = if x = -2 ^ 31 then 2 ^ 31 - 1 else -x) →
  ∀ (s : State) (V A W D t r0 l0 r1 l1 vr vl VELr ACCr STEPSr VELl ACCl STEPSl : Int), s.Wf →
    V = (s.port s.issuer).arg0.toInt → A = (s.port s.issuer).arg1.toInt → W = (s.port s.issuer).arg2.toInt →
    D = (s.port s.issuer).arg3.toInt → V ≠ 0 →
    t = Int.tdiv (s.cfg.kTurn * W) (2 ^ 16) → r0 = sat (V + t) → l0 = sat (V - t) →
    (r1, l1) = (if s.cfg.vmax < r0.natAbs then
      (Int.tdiv (r0 * s.cfg.vmax) r0.natAbs, Int.tdiv (l0 * s.cfg.vmax) r0.natAbs) else (r0, l0)) →
    (vr, vl) = (if s.cfg.vmax < l1.natAbs then
      (Int.tdiv (r1 * s.cfg.vmax) l1.natAbs, Int.tdiv (l1 * s.cfg.vmax) l1.natAbs) else (r1, l1)) →
    VELr = sat (Int.tdiv (vr * s.cfg.stepsPerM) (2 ^ 16)) →
    ACCr = sat (Int.tdiv (A * vr * s.cfg.stepsPerM) (V * 2 ^ 16)) →
    STEPSr = sat (Int.tdiv (D * vr * s.cfg.stepsPerM) (V * 2 ^ 32)) →
    VELl = sat (Int.tdiv (vl * s.cfg.stepsPerM) (2 ^ 16)) →
    ACCl = sat (Int.tdiv (A * vl * s.cfg.stepsPerM) (V * 2 ^ 16)) →
    STEPSl = sat (Int.tdiv (D * vl * s.cfg.stepsPerM) (V * 2 ^ 32)) →
    ∃ u, exec .pgo s = .next u ∧ SameBut [s.cfg.axisRight, s.cfg.axisLeft] [s.issuer] s u ∧
      u.axis s.cfg.axisRight = (s.axis s.cfg.axisRight).mailed
        (BitVec.ofInt 32 (if STEPSr < 0 then neg VELr else VELr)) (BitVec.ofNat 32 ACCr.natAbs)
        (BitVec.ofNat 32 STEPSr.natAbs) ∧
      u.axis s.cfg.axisLeft = (s.axis s.cfg.axisLeft).mailed
        (BitVec.ofInt 32 (if STEPSl < 0 then neg VELl else VELl)) (BitVec.ofNat 32 ACCl.natAbs)
        (BitVec.ofNat 32 STEPSl.natAbs) ∧
      u.port s.issuer = { (if STEPSr ≠ 0 then (s.port s.issuer).held .pwaitR
          else if STEPSl ≠ 0 then (s.port s.issuer).held .pwaitL else (s.port s.issuer).ended 0#32) with
        res := #v[BitVec.ofInt 32 VELr, BitVec.ofInt 32 ACCr, BitVec.ofInt 32 STEPSr, BitVec.ofInt 32 VELl,
          BitVec.ofInt 32 ACCl, BitVec.ofInt 32 STEPSl, BitVec.ofInt 32 vr, BitVec.ofInt 32 vl] }

/-- PGO with V = 0 completes at once with ERR_ZEROV and writes no mailbox, no RES register and no other state, whatever
A, W and D are (42_planner.md R164). -/
def Obligations.PgoZeroVelocityRejected : Prop :=
  ∀ s : State, s.Wf → (s.port s.issuer).arg0 = 0#32 →
    ∃ t, exec .pgo s = .next t ∧ SameBut [] [s.issuer] s t ∧ t.port s.issuer = (s.port s.issuer).ended 3#32

/-- PSTOP completes (42_planner.md R171): STOP's mailbox write on both wheels, each with its own active acceleration when
soft; the result is OK. Nothing else changes. -/
def Obligations.PstopResult : Prop :=
  ∀ (s : State) (hard : Bool), s.Wf →
    ∃ t, exec (.pstop hard) s = .next t ∧ SameBut [s.cfg.axisRight, s.cfg.axisLeft] [s.issuer] s t ∧
      t.port s.issuer = (s.port s.issuer).ended 0#32 ∧
      ∀ a ∈ [s.cfg.axisRight, s.cfg.axisLeft],
        t.axis a = (s.axis a).mailed 0#32 (if hard then 0#32 else (s.axis a).accel) 0#32

/-- PIDLE completes (42_planner.md R172): IDLE's mailbox write and OUT = 0 on both wheels; the result is OK. Nothing else
changes. -/
def Obligations.PidleResult : Prop :=
  ∀ s : State, s.Wf →
    ∃ t, exec .pidle s = .next t ∧ SameBut [s.cfg.axisRight, s.cfg.axisLeft] [s.issuer] s t ∧
      t.port s.issuer = (s.port s.issuer).ended 0#32 ∧
      ∀ a ∈ [s.cfg.axisRight, s.cfg.axisLeft],
        t.axis a = { (s.axis a).mailed 0#32 0#32 0#32 with out := 0#4 }

/-- PSTATUS completes (42_planner.md R173): the right wheel's image in SNAP_A and the left wheel's in SNAP_B, of one
instant; the result is OK. Nothing else changes. -/
def Obligations.PstatusResult : Prop :=
  ∀ s : State, s.Wf →
    ∃ t, exec .pstatus s = .next t ∧ SameBut [] [s.issuer] s t ∧
      t.port s.issuer = { (s.port s.issuer).ended 0#32 with
        snapA := (s.axis s.cfg.axisRight).snap s.cfg.axisRight
        snapB := (s.axis s.cfg.axisLeft).snap s.cfg.axisLeft }

/-- After the saturation no wheel exceeds VMAX_Q, and wheels that do not exceed it are unchanged (42_planner.md R162). -/
def Obligations.SaturationBoundsBothWheels : Prop :=
  ∀ (c : Config) (wheels : Int × Int), configLegal c = true →
    (saturate c wheels).1.natAbs ≤ c.vmax ∧ (saturate c wheels).2.natAbs ≤ c.vmax ∧
    (wheels.1.natAbs ≤ c.vmax → wheels.2.natAbs ≤ c.vmax → saturate c wheels = wheels)

/-- With W = 0 both wheels get V before saturation and identical step-domain commands after it; negating W swaps the
wheels when no saturation triggers (42_planner.md R180). -/
def Obligations.PlannerIsSymmetric : Prop :=
  ∀ (c : Config) (V A W D : Int), configLegal c = true → -2 ^ 31 ≤ V → V < 2 ^ 31 →
    wheelVelocities c V 0 = (V, V) ∧
    wheelCommand c V A D (plannedVelocities c V 0).1 = wheelCommand c V A D (plannedVelocities c V 0).2 ∧
    ((wheelVelocities c V W).1.natAbs ≤ c.vmax → (wheelVelocities c V W).2.natAbs ≤ c.vmax →
      plannedVelocities c V (-W) = ((plannedVelocities c V W).2, (plannedVelocities c V W).1))

/-- When the right limit triggers and the left wheel is not the larger, the right wheel becomes sign(vr)·VMAX_Q and the
left tdiv(vl·VMAX_Q, |vr|); for |vr| = 1.5·VMAX_Q the left one is two thirds, rounded toward zero (42_planner.md
R181). -/
def Obligations.RightLimitScalesBothWheels : Prop :=
  ∀ (c : Config) (vr vl : Int), configLegal c = true → c.vmax < vr.natAbs → vl.natAbs ≤ vr.natAbs →
    saturate c (vr, vl) = (Int.sign vr * c.vmax, Int.tdiv (vl * c.vmax) vr.natAbs) ∧
    (2 * vr.natAbs = 3 * c.vmax → (saturate c (vr, vl)).2 = Int.tdiv (2 * vl) 3)

/-! ### Port sequencers -/

/-- The WAIT completion (41_axis_controller.md R125): with the awaited semaphore given, the sequencer's step takes it and
completes with OK; while it is not given the port holds. That a scheduled sequencer with no step is passed over is the
model's choice (notes/assumptions/7.md). -/
def Obligations.WaitCompletionTakesSemaphore : Prop :=
  ∀ (s : State) (p : Nat) (rest : List Event), s.Wf → s.NextIs (.sequencer p) rest → p < s.cfg.numPorts →
    (s.port p).pstate = .waitAxis → (s.port p).pwax.toNat < s.cfg.numAxes →
    ((s.axis (s.port p).pwax.toNat).sem = true →
      ∃ t, step s = .next t ∧ SameBut [(s.port p).pwax.toNat] [p] (s.withSchedule rest) t ∧
        t.axis (s.port p).pwax.toNat = { s.axis (s.port p).pwax.toNat with sem := false } ∧
        t.port p = (s.port p).ended 0#32) ∧
    ((s.axis (s.port p).pwax.toNat).sem = false → step s = .next (s.withSchedule rest))

/-- The wait steps of a PGO (42_planner.md R176, R175): the right wait takes the right semaphore and goes on to the left
wheel when that one's last command signals, else completes with OK; the left wait takes the left semaphore and completes
with OK; while neither is enabled the port holds (a scheduled sequencer with no step is passed over:
notes/assumptions/7.md). -/
def Obligations.PgoWaitSteps : Prop :=
  ∀ (s : State) (p : Nat) (rest : List Event), s.Wf → s.NextIs (.sequencer p) rest → p < s.cfg.numPorts →
    ((s.port p).pstate = .pwaitR → (s.axis s.cfg.axisRight).sem = true →
      ∃ t, step s = .next t ∧ SameBut [s.cfg.axisRight] [p] (s.withSchedule rest) t ∧
        t.axis s.cfg.axisRight = { s.axis s.cfg.axisRight with sem := false } ∧
        t.port p = if (s.axis s.cfg.axisLeft).mb.sig then (s.port p).held .pwaitL else (s.port p).ended 0#32) ∧
    ((s.port p).pstate = .pwaitL → (s.axis s.cfg.axisLeft).sem = true →
      ∃ t, step s = .next t ∧ SameBut [s.cfg.axisLeft] [p] (s.withSchedule rest) t ∧
        t.axis s.cfg.axisLeft = { s.axis s.cfg.axisLeft with sem := false } ∧
        t.port p = (s.port p).ended 0#32) ∧
    ((s.port p).pstate = .pwaitR → (s.axis s.cfg.axisRight).sem = false → step s = .next (s.withSchedule rest)) ∧
    ((s.port p).pstate = .pwaitL → (s.axis s.cfg.axisLeft).sem = false → step s = .next (s.withSchedule rest))

/-- A held port goes back to IDLE only by its own sequencer taking a given semaphore, or by reset: no command, tick or
other port's step ends a wait (60_exceptions.md R209, 41_axis_controller.md R123, R125). -/
def Obligations.OnlyTakeOrResetEndsWait : Prop :=
  ∀ (s t : State) (e : Event) (rest : List Event) (p : Nat), s.NextIs e rest → step s = .next t →
    (s.port p).busy = true → (s.port p).pstate ≠ .idle → (t.port p).pstate = .idle →
    e = .reset ∨ (e = .sequencer p ∧ ∃ a, awaitedAxis s.cfg (s.port p) = some a ∧ (s.axis a).sem = true)

/-- When two sequencers wait on one axis, one give ends one wait: after either takes the semaphore the other port is as
it was and its sequencer is no longer enabled (60_exceptions.md R197, 70_reset_and_hazards.md R234). -/
def Obligations.OneGiveEndsOneWait : Prop :=
  ∀ (s t : State) (p q : Nat) (rest : List Event), s.Wf → s.NextIs (.sequencer p) rest → p ≠ q →
    sequencerEnabled s p = true → sequencerEnabled s q = true →
    awaitedAxis s.cfg (s.port p) = awaitedAxis s.cfg (s.port q) → step s = .next t →
    t.port q = s.port q ∧ sequencerEnabled t q = false

/-! ### The TICK event (41_axis_controller.md) -/

/-- A TICK of axis a occurs exactly when FORCE = 1 or RELOAD ≠ 0, on that axis alone; when both are false a scheduled
tick changes nothing (41_axis_controller.md R138, untimed model). That a scheduled tick that is not enabled is passed over
is the model's choice (notes/assumptions/7.md). -/
def Obligations.TickOccursExactlyWhenEnabled : Prop :=
  ∀ (s : State) (a : Nat) (rest : List Event), s.Wf → s.cfg.timing = .untimed → s.NextIs (.tick a) rest →
    a < s.cfg.numAxes →
    ((s.axis a).force = true ∨ (s.axis a).reload ≠ 0#16 →
      ∃ t, step s = .next t ∧ SameBut [a] [] (s.withSchedule rest) t ∧ t.axis a = (s.axis a).tick s.cfg) ∧
    ((s.axis a).force = false → (s.axis a).reload = 0#16 → step s = .next (s.withSchedule rest))

/-- TickLoad (41_axis_controller.md R131, with FloorSpeed R112 and Th2 R113): a pending mailbox becomes the active
configuration, ACCUM is preset to the old period, the velocity snaps to the target (acceleration 0), starts from rest at
the floor speed, or stays, and is scaled; REM, TH1 and TH2 are set; the slot is kept and only MB_PEND is cleared. With
nothing pending nothing changes. -/
def Obligations.TickLoadsPendingMailbox : Prop :=
  ∀ (c : Config) (x : Axis), configLegal c = true →
    (x.mb.pend = false → x.tickLoad c = x) ∧
    (x.mb.pend = true → ∃ v : Int,
      (x.mb.acc = 0#32 → v = x.mb.tgt.toInt) ∧
      (x.mb.acc ≠ 0#32 → x.vel = 0#32 → x.mb.tgt ≠ 0#32 →
        v = Int.sign x.mb.tgt.toInt * max (2 ^ 16) (x.mb.tgt.toInt.natAbs / 100 : Nat)) ∧
      (x.mb.acc ≠ 0#32 → (x.vel ≠ 0#32 ∨ x.mb.tgt = 0#32) → v = x.vel.toInt) ∧
      x.tickLoad c = { x with
        tgt := x.mb.tgt, accel := x.mb.acc, total := x.mb.total, sig := x.mb.sig
        accum := BitVec.ofNat 64 x.period.toNat
        vel := BitVec.ofInt 32 (scale c v).vel, reload := BitVec.ofNat 16 (scale c v).reload
        period := BitVec.ofNat 32 (scale c v).period, mult := BitVec.ofNat 16 (scale c v).mult
        rem := x.mb.total
        th1 := BitVec.ofNat 32 (x.mb.total.toNat / 2)
        th2 := BitVec.ofNat 32 (if x.mb.acc = 0#32 then 0
          else min (2 ^ 32 - 1) (x.mb.tgt.toInt.natAbs ^ 2 / (2 * x.mb.acc.toNat * 2 ^ 16)))
        mb := { x.mb with pend := false } })

/-- The path of a TICK and its status (41_axis_controller.md R130, R132, R135, R139): FORCE is cleared and the mailbox
loaded; an idle axis ends STOPPED; a sub-tick ends WAITING with only ACCUM advanced; a step boundary takes the period off
ACCUM and ramps, and ends STOPPED when the velocity is 0, else counts, drives the output and ends MOVING. -/
def Obligations.TickPathAndStatus : Prop :=
  ∀ (c : Config) (x y z : Axis), y = ({ x with force := false } : Axis).tickLoad c →
    z = ({ y with accum := y.accum + y.reload.setWidth 64 - y.period.setWidth 64 } : Axis).ramp c →
    (y.period = 0#32 → x.tick c = { y with last := .stopped }) ∧
    (y.period ≠ 0#32 → y.accum + y.reload.setWidth 64 < y.period.setWidth 64 →
      x.tick c = { y with accum := y.accum + y.reload.setWidth 64, last := .waiting }) ∧
    (y.period ≠ 0#32 → ¬ y.accum + y.reload.setWidth 64 < y.period.setWidth 64 → z.vel = 0#32 →
      x.tick c = { z with last := .stopped }) ∧
    (y.period ≠ 0#32 → ¬ y.accum + y.reload.setWidth 64 < y.period.setWidth 64 → z.vel ≠ 0#32 →
      x.tick c = { (z.stepCount c).phaseOut c with last := .moving })

/-- Accumulate (41_axis_controller.md R133) on whole numbers: the accumulator advances by RELOAD; below PERIOD the tick
is a sub-tick, else the period is taken off and the remainder is carried through the rest of the tick. -/
def Obligations.AccumulatorCarriesRemainder : Prop :=
  ∀ (c : Config) (x : Axis), AccumBounded x → x.period ≠ 0#32 →
    (x.accum.toNat + x.reload.toNat < x.period.toNat →
      (x.afterLoad c).accum.toNat = x.accum.toNat + x.reload.toNat ∧ (x.afterLoad c).last = .waiting) ∧
    (x.period.toNat ≤ x.accum.toNat + x.reload.toNat →
      (x.afterLoad c).accum.toNat = x.accum.toNat + x.reload.toNat - x.period.toNat ∧
      (x.afterLoad c).last ≠ .waiting)

/-- Sub-ticks per step (40_timer_scaler.md R104, 41_axis_controller.md R133): with nothing pending, every tick before the
accumulator reaches the period is a sub-tick that changes ACCUM, FORCE and LAST only, and the first tick at which it
reaches the period is the step boundary, which takes one period off. -/
def Obligations.SubTicksUntilTheBoundary : Prop :=
  ∀ (c : Config) (x : Axis) (n : Nat), AccumBounded x → x.mb.pend = false → x.period ≠ 0#32 →
    x.accum.toNat + n * x.reload.toNat < x.period.toNat →
    (1 ≤ n → Axis.ticks c n x =
      { x with force := false, accum := BitVec.ofNat 64 (x.accum.toNat + n * x.reload.toNat), last := .waiting }) ∧
    (x.period.toNat ≤ x.accum.toNat + (n + 1) * x.reload.toNat →
      (Axis.ticks c (n + 1) x).last ≠ .waiting ∧
      (Axis.ticks c (n + 1) x).accum.toNat = x.accum.toNat + (n + 1) * x.reload.toNat - x.period.toNat)

/-- Ramp (41_axis_controller.md R134): at VEL = TGT nothing changes; else the scaler gets the target when the
acceleration is 0, and otherwise the velocity moved toward the target by floor(ACCEL·PERIOD/CLK_HZ) and no further than
the target, raised to the floor of a nonzero target, or to ±1.0 in the direction of travel while a counted sequence with
target 0 has steps left. The value handed over fits 32 bits. -/
def Obligations.RampFollowsItsRule : Prop :=
  ∀ (c : Config) (x : Axis), configLegal c = true →
    (x.vel = x.tgt → x.ramp c = x) ∧
    (∀ v t dv m : Int, x.vel ≠ x.tgt → v = x.vel.toInt → t = x.tgt.toInt →
      dv = ((x.accel.toNat * x.period.toNat / c.clkHz : Nat) : Int) →
      m = (if v < t then min t (v + dv) else max t (v - dv)) →
      ∃ nv : Int, -2 ^ 31 ≤ nv ∧ nv ≤ 2 ^ 31 - 1 ∧ x.ramp c = x.setScaled (scale c nv) ∧
        (x.accel = 0#32 → nv = t) ∧
        (x.accel ≠ 0#32 → t ≠ 0 → m.natAbs < max (2 ^ 16) (t.natAbs / 100) →
          nv = Int.sign t * max (2 ^ 16) (t.natAbs / 100 : Nat)) ∧
        (x.accel ≠ 0#32 → t ≠ 0 → max (2 ^ 16) (t.natAbs / 100) ≤ m.natAbs → nv = m) ∧
        (x.accel ≠ 0#32 → t = 0 → x.rem ≠ 0#32 → m.natAbs < 2 ^ 16 → nv = Int.sign v * 2 ^ 16) ∧
        (x.accel ≠ 0#32 → t = 0 → (x.rem = 0#32 ∨ 2 ^ 16 ≤ m.natAbs) → nv = m))

/-- Ramp monotonicity of one `Ramp` (41_axis_controller.md R144): toward a nonzero target of at least 1.0 in the same direction, a ramp
keeps the direction, does not lower the speed and does not pass the target; at the target it changes nothing, and a
sub-tick does not change VEL. -/
def Obligations.RampIsMonotone : Prop :=
  ∀ (c : Config) (x : Axis), configLegal c = true → ScaleConsistent c x →
    (x.tgt.toInt ≠ 0 → 2 ^ 16 ≤ x.tgt.toInt.natAbs → Int.sign x.vel.toInt = Int.sign x.tgt.toInt →
      x.vel.toInt.natAbs < x.tgt.toInt.natAbs →
      Int.sign (x.ramp c).vel.toInt = Int.sign x.tgt.toInt ∧
      x.vel.toInt.natAbs ≤ (x.ramp c).vel.toInt.natAbs ∧
      (x.ramp c).vel.toInt.natAbs ≤ x.tgt.toInt.natAbs) ∧
    (x.vel = x.tgt → x.ramp c = x) ∧
    (x.period ≠ 0#32 → x.subTick = true → (x.afterLoad c).vel = x.vel)

/-- StepCount (41_axis_controller.md R136): a continuous run (REM = 0) is unchanged; else REM goes down by one, a
threshold (half way with the target not reached, or the stopping distance) forces the target to 0, and at REM = 0 velocity
and target are 0, the timer is disabled and the semaphore is given when SIG is 1. -/
def Obligations.StepCountFollowsItsRule : Prop :=
  ∀ (c : Config) (x : Axis), configLegal c = true →
    (x.rem = 0#32 → x.stepCount c = x) ∧
    (x.rem ≠ 0#32 → x.rem ≠ 1#32 →
      x.stepCount c = { x with
        rem := BitVec.ofNat 32 (x.rem.toNat - 1)
        tgt := if (x.rem.toNat - 1 = x.th1.toNat ∧ x.vel ≠ x.tgt) ∨ x.rem.toNat - 1 = x.th2.toNat then 0#32
          else x.tgt }) ∧
    (x.rem = 1#32 →
      x.stepCount c = { x with
        rem := 0#32, vel := 0#32, tgt := 0#32, reload := 0#16, period := 0#32, mult := 0#16
        sem := x.sem || x.sig })

/-- PhaseOut (41_axis_controller.md R137): OUT is the table's entry at PHASE, and PHASE then moves by +1 or -1 modulo 8
with the direction of VEL, or stays when VEL is 0. Nothing else changes. -/
def Obligations.PhaseOutFollowsItsRule : Prop :=
  ∀ (c : Config) (x : Axis),
    x.phaseOut c = { x with out := (x.phaseOut c).out, phase := (x.phaseOut c).phase } ∧
    (x.phaseOut c).out.toNat = c.phaseTable.toNat / 16 ^ x.phase.toNat % 16 ∧
    (0 < x.vel.toInt → (x.phaseOut c).phase.toNat = (x.phase.toNat + 1) % 8) ∧
    (x.vel.toInt < 0 → (x.phaseOut c).phase.toNat = (x.phase.toNat + 7) % 8) ∧
    (x.vel.toInt = 0 → (x.phaseOut c).phase = x.phase)

/-- SEM is set only by a TICK that takes REM from 1 to 0 with SIG = 1 (41_axis_controller.md R143): whatever step gives a
semaphore that was empty is a tick of that axis (or a clock edge), whose loaded step count was 1 and which leaves REM = 0,
VEL = 0, SIG = 1 and the status MOVING. -/
def Obligations.SemaphoreGivenOnlyByFinishedSequence : Prop :=
  ∀ (s t : State) (e : Event) (rest : List Event) (a : Nat), s.NextIs e rest → step s = .next t →
    (s.axis a).sem = false → (t.axis a).sem = true →
    (e = .tick a ∨ e = .clockEdge) ∧ (({ s.axis a with force := false } : Axis).tickLoad s.cfg).rem = 1#32 ∧
    (t.axis a).rem = 0#32 ∧ (t.axis a).sig = true ∧ (t.axis a).vel = 0#32 ∧ (t.axis a).last = .moving

/-- Steps of a counted sequence (41_axis_controller.md R141): from a counted sequence with nothing pending, however many
ticks follow, the number of them that drove a step is the number of steps taken off REM; so a sequence of N steps that
runs to completion has exactly N MOVING ticks. -/
def Obligations.CountedSequenceMovesOncePerStep : Prop :=
  ∀ (c : Config) (x : Axis) (n : Nat), configLegal c = true → x.mb.pend = false → x.rem ≠ 0#32 →
    Axis.movingTicks c n x + (Axis.ticks c n x).rem.toNat = x.rem.toNat

/-- A clock edge of the timed model (60_exceptions.md R202): on every axis a forced tick is taken; else a running timer
counts, and ticks when the count reaches RELOAD; else the count is 0. After it the count is 0 or below RELOAD. That one
step takes every axis is the model's choice (notes/assumptions/9.md). -/
def Obligations.ClockEdgeFollowsItsRule : Prop :=
  ∀ (s : State) (rest : List Event), s.Wf → s.cfg.timing = .timed → s.NextIs .clockEdge rest →
    ∃ t, step s = .next t ∧ SameBut (List.range s.cfg.numAxes) [] (s.withSchedule rest) t ∧
      ∀ a, a < s.cfg.numAxes →
        ((s.axis a).force = true → t.axis a = { (s.axis a).tick s.cfg with tcnt := 0#16 }) ∧
        ((s.axis a).force = false → (s.axis a).reload ≠ 0#16 →
          (s.axis a).reload.toNat ≤ (s.axis a).tcnt.toNat + 1 →
          t.axis a = { (s.axis a).tick s.cfg with tcnt := 0#16 }) ∧
        ((s.axis a).force = false → (s.axis a).tcnt.toNat + 1 < (s.axis a).reload.toNat →
          t.axis a = { s.axis a with tcnt := BitVec.ofNat 16 ((s.axis a).tcnt.toNat + 1) }) ∧
        ((s.axis a).force = false → (s.axis a).reload = 0#16 → t.axis a = { s.axis a with tcnt := 0#16 }) ∧
        ((t.axis a).tcnt = 0#16 ∨ (t.axis a).tcnt.toNat < (t.axis a).reload.toNat)

/-! ### Reset and the whole machine -/

/-- The reset event (70_reset_and_hazards.md R220): every field of every axis and port is at its reset value, and the
configuration is unchanged. -/
def Obligations.ResetClearsEveryField : Prop :=
  ∀ (s : State) (rest : List Event), s.NextIs .reset rest →
    ∃ t, step s = .next t ∧ t.cfg = s.cfg ∧
      t.axes.length = s.cfg.numAxes ∧ t.ports.length = s.cfg.numPorts ∧
      (∀ x ∈ t.axes, x = ⟨0#32, 0#32, 0#32, 0#32, false, 0#16, 0#32, 0#16, 0#64, 0#32, 0#32, 0#32, 0#3, 0#4, .none,
        ⟨0#32, 0#32, 0#32, false, false⟩, false, false, 0#16⟩) ∧
      (∀ q ∈ t.ports, q = ⟨0#32, 0#32, 0#32, 0#32, 0#32, 0#32, false, false, false, false, Vector.replicate 8 0#32,
        Vector.replicate 16 0#32, Vector.replicate 16 0#32, .idle, 0#8⟩)

/-- The invariant holds after reset, in every legal configuration (70_reset_and_hazards.md R220, 10_state.md R45, R46). -/
def Obligations.ResetHasInvariant : Prop :=
  (∀ c : Config, configLegal c = true → (State.resetWith c).Inv) ∧ State.reset.Inv

/-- Every step keeps the invariant: scale consistency (10_state.md R45), the accumulator bound (R46), the ranges of the
counts, the signal flags, a forced tick only on a stopped timer (41_axis_controller.md R138), BUSY exactly when the
sequencer is not IDLE (R44) and exactly while the result is PENDING (60_exceptions.md R190). -/
def Obligations.StepKeepsInvariant : Prop :=
  ∀ s t : State, s.Inv → step s = .next t → t.Inv

/-- In a legal configuration every step goes on: no register access, command, tick, sequencer step or reset stops the
block (60_exceptions.md R193, R198); an illegal configuration is refused (00_scope.md R6). That an empty schedule leaves
the state as it is, and that a bus error is a response and no stop, are the model's choices (notes/assumptions/6.md,
10.md). -/
def Obligations.EveryStepGoesOn : Prop :=
  ∀ s : State,
    (configLegal s.cfg = true → ∃ t, step s = .next t ∧ t.cfg = s.cfg ∧ t.schedule = s.schedule.tail) ∧
    (configLegal s.cfg = false → step s = .refused .illegalConfig)

/-- The writer table (10_state.md R47). For a step that is not reset: an axis's motion fields and LAST change only by a
tick of it; MB_TGT, MB_ACC, MB_TOTAL and MB_SIG only by a command that writes mailboxes; MB_PEND is set only by such a
command and cleared only by a tick; FORCE likewise; SEM is set only by a tick and cleared only by a sequencer; OUT changes
only by a tick or by IDLE or PIDLE. A command is a word that decodes to it, written to the CMD register of a port that
exists and is not busy (20_memory.md R69), by the schedule or by a host's turn (notes/assumptions/26.md). -/
def Obligations.WriterTable : Prop :=
  ∀ (s t : State) (e : Event) (rest : List Event) (a : Nat), s.NextIs e rest → step s = .next t → e ≠ .reset →
    (e ≠ .tick a → e ≠ .clockEdge →
      t.axis a = { s.axis a with
        mb := (t.axis a).mb, sem := (t.axis a).sem, force := (t.axis a).force, out := (t.axis a).out }) ∧
    ((t.axis a).mb ≠ (s.axis a).mb →
      ((e = .tick a ∨ e = .clockEdge) ∧ (t.axis a).mb = { (s.axis a).mb with pend := false }) ∨
      ((t.axis a).mb.pend = true ∧
        ∃ p w i, s.Issues e p w ∧ decode w = .ok i ∧ writesMailbox i = true)) ∧
    ((s.axis a).force = false → (t.axis a).force = true →
      (s.axis a).reload = 0#16 ∧
        ∃ p w i, s.Issues e p w ∧ decode w = .ok i ∧ writesMailbox i = true) ∧
    ((s.axis a).force = true → (t.axis a).force = false → e = .tick a ∨ e = .clockEdge) ∧
    ((s.axis a).sem = false → (t.axis a).sem = true → e = .tick a ∨ e = .clockEdge) ∧
    ((s.axis a).sem = true → (t.axis a).sem = false → ∃ p, e = .sequencer p) ∧
    ((t.axis a).out ≠ (s.axis a).out → e = .tick a ∨ e = .clockEdge ∨
      ((t.axis a).out = 0#4 ∧
        ∃ p w i, s.Issues e p w ∧ decode w = .ok i ∧ writesOut i = true))

/-- Each port's registers are its own (60_exceptions.md R205, 10_state.md R47): a step that is not reset, not the port's
sequencer and not a write into the port's region, by the schedule or by a host's turn, leaves the port as it was. -/
def Obligations.PortRegistersAreItsOwn : Prop :=
  ∀ (s t : State) (e : Event) (rest : List Event) (p : Nat), s.NextIs e rest → step s = .next t → e ≠ .reset →
    e ≠ .sequencer p →
    (∀ addr width v, s.performs e = some (.write addr width v) →
      ¬ (s.cfg.base + 0x100 * (p + 1) ≤ addr ∧ addr < s.cfg.base + 0x100 * (p + 2))) →
    t.port p = s.port p

/-- A snapshot does not change until the port's next status command (20_memory.md R68): a step that is not reset and
changes a snapshot window of port p is a PSTATUS issued by p, or a STATUS issued by p, and then SNAP_B is unchanged. -/
def Obligations.SnapshotKeptUntilStatus : Prop :=
  ∀ (s t : State) (e : Event) (rest : List Event) (p : Nat), s.NextIs e rest → step s = .next t → e ≠ .reset →
    (t.port p).snapA ≠ (s.port p).snapA ∨ (t.port p).snapB ≠ (s.port p).snapB →
    ∃ w i, s.Issues e p w ∧ decode w = .ok i ∧
      (i = .pstatus ∨ ((∃ a, i = .status a) ∧ (t.port p).snapB = (s.port p).snapB))

/-- An enabled TICK stays enabled until the axis ticks or the block is reset: no command and no other agent disables it
(41_axis_controller.md R138; what the weak fairness of 60_exceptions.md R208 is assumed of). -/
def Obligations.EnabledTickStaysEnabled : Prop :=
  ∀ (s t : State) (e : Event) (rest : List Event) (a : Nat), s.NextIs e rest → step s = .next t →
    (s.axis a).tickEnabled = true → e ≠ .tick a → e ≠ .clockEdge → e ≠ .reset → (t.axis a).tickEnabled = true
end

