-- ==== Sys2Proof/Laws/Operands.lean ====
section
/-! SUPPORT. What the primitives of 00_scope.md R9 do: the root is the largest, the cuts stay in range and change
nothing that is in range. -/

namespace Sys2Proof.Machine

/-- Invariant of the digit-by-digit root: with `r² ≤ n < (r + 2^k)²` the result is the root of `n`. -/
theorem isqrtFrom_spec (n : Nat) : ∀ k r, r * r ≤ n → n < (r + 2 ^ k) * (r + 2 ^ k) →
    isqrtFrom n k r * isqrtFrom n k r ≤ n ∧ n < (isqrtFrom n k r + 1) * (isqrtFrom n k r + 1) := by
  intro k
  induction k with
  | zero => intro r h1 h2; exact ⟨h1, by simpa [isqrtFrom] using h2⟩
  | succ k ih =>
    intro r h1 h2
    have hp : r + 2 ^ k + 2 ^ k = r + 2 ^ (k + 1) := by rw [Nat.pow_succ]; omega
    simp only [isqrtFrom]
    split
    · rename_i h
      exact ih _ h (by rw [hp]; exact h2)
    · rename_i h
      exact ih _ h1 (Nat.lt_of_not_le h)

/-- `isqrt n` is the largest integer whose square is at most `n` (00_scope.md R9). -/
theorem isqrt_spec (n : Nat) : isqrt n * isqrt n ≤ n ∧ n < (isqrt n + 1) * (isqrt n + 1) := by
  apply isqrtFrom_spec
  · simp
  · rcases Nat.eq_zero_or_pos n with rfl | hn
    · simp
    · have h1 : n < 2 ^ (Nat.log2 n + 1) := Nat.lt_log2_self
      have h2 : 2 ^ (Nat.log2 n + 1) ≤ 2 ^ (2 * (Nat.log2 n / 2 + 1)) := Nat.pow_le_pow_right (by omega) (by omega)
      have h3 : (2 : Nat) ^ (2 * (Nat.log2 n / 2 + 1)) = 2 ^ (Nat.log2 n / 2 + 1) * 2 ^ (Nat.log2 n / 2 + 1) := by
        rw [← Nat.pow_add]; congr 1; omega
      rw [Nat.zero_add, ← h3]
      omega

theorem isqrt_lt {n m : Nat} (h : n < m * m) : isqrt n < m := by
  have h1 := (isqrt_spec n).1
  by_contra hc
  have := Nat.mul_le_mul (Nat.le_of_not_lt hc) (Nat.le_of_not_lt hc)
  omega

theorem sat32_bounds (v : Int) : -2147483648 ≤ sat32 v ∧ sat32 v ≤ 2147483647 := by
  unfold sat32; omega

theorem sat32_of_bounds {v : Int} (h : -2147483648 ≤ v ∧ v ≤ 2147483647) : sat32 v = v := by
  unfold sat32; omega

theorem negSat_bounds {v : Int} (h : -2147483648 ≤ v ∧ v ≤ 2147483647) :
    -2147483648 ≤ negSat v ∧ negSat v ≤ 2147483647 := by
  unfold negSat; split <;> omega

theorem s32_bounds (w : Word) : -2147483648 ≤ s32 w ∧ s32 w ≤ 2147483647 := by
  have h1 := BitVec.le_toInt w
  have h2 := BitVec.toInt_lt (x := w)
  unfold s32
  constructor <;> simp at h1 h2 <;> omega

/-- A cut to a register word changes no value of the word's signed range. -/
theorem s32_u32 {v : Int} (h : -2147483648 ≤ v ∧ v ≤ 2147483647) : s32 (u32 v) = v := by
  unfold s32 u32
  rw [BitVec.toInt_ofInt]
  exact Int.bmod_eq_of_le (by omega) (by omega)

@[simp] theorem u32_s32 (w : Word) : u32 (s32 w) = w := by
  simp [u32, s32]

@[simp] theorem s32_eq_zero (w : Word) : s32 w = 0 ↔ w = 0#32 := by
  constructor
  · intro h; exact BitVec.eq_of_toInt_eq (by simpa [s32] using h)
  · rintro rfl; rfl

theorem s32_inj {v w : Word} : s32 v = s32 w ↔ v = w :=
  ⟨fun h => BitVec.eq_of_toInt_eq h, fun h => by rw [h]⟩

theorem absInt_s32_le (w : Word) : absInt (s32 w) ≤ 2147483648 := by
  have := s32_bounds w
  unfold absInt; omega

/-- The count a step command stores is the magnitude of the argument (41_axis_controller.md R120). -/
@[simp] theorem normalise_count (v n : Int) : (normalise v n).2 = absInt n := by
  unfold normalise; split <;> rfl

theorem normalise_velocity (v n : Int) : (normalise v n).1 = if n < 0 then negSat v else v := by
  unfold normalise; split <;> rfl

theorem normalise_velocity_bounds {v : Int} (n : Int) (h : -2147483648 ≤ v ∧ v ≤ 2147483647) :
    -2147483648 ≤ (normalise v n).1 ∧ (normalise v n).1 ≤ 2147483647 := by
  rw [normalise_velocity]
  split
  · exact negSat_bounds h
  · exact h

end Sys2Proof.Machine
end

