-- ==== Sys2Proof/Laws/State.lean ====
section
/-! SUPPORT. One lemma per field per update of State, Port and Axis, true by rfl and tagged simp; and how the
accessors `axis` and `port` read after an update. Later proofs cite these and unfold no record update. -/

namespace Sys2Proof.Machine

/-! ### State -/

@[simp] theorem State.setAxis_cfg (s : State) (a : Nat) (x : Axis) : (s.setAxis a x).cfg = s.cfg := rfl
@[simp] theorem State.setAxis_axes (s : State) (a : Nat) (x : Axis) : (s.setAxis a x).axes = s.axes.set a x := rfl
@[simp] theorem State.setAxis_ports (s : State) (a : Nat) (x : Axis) : (s.setAxis a x).ports = s.ports := rfl
@[simp] theorem State.setAxis_issuer (s : State) (a : Nat) (x : Axis) : (s.setAxis a x).issuer = s.issuer := rfl
@[simp] theorem State.setAxis_schedule (s : State) (a : Nat) (x : Axis) : (s.setAxis a x).schedule = s.schedule := rfl
@[simp] theorem State.setAxis_resp (s : State) (a : Nat) (x : Axis) : (s.setAxis a x).resp = s.resp := rfl
@[simp] theorem State.setAxis_programs (s : State) (a : Nat) (x : Axis) : (s.setAxis a x).programs = s.programs := rfl

@[simp] theorem State.setPort_cfg (s : State) (p : Nat) (q : Port) : (s.setPort p q).cfg = s.cfg := rfl
@[simp] theorem State.setPort_axes (s : State) (p : Nat) (q : Port) : (s.setPort p q).axes = s.axes := rfl
@[simp] theorem State.setPort_ports (s : State) (p : Nat) (q : Port) : (s.setPort p q).ports = s.ports.set p q := rfl
@[simp] theorem State.setPort_issuer (s : State) (p : Nat) (q : Port) : (s.setPort p q).issuer = s.issuer := rfl
@[simp] theorem State.setPort_schedule (s : State) (p : Nat) (q : Port) : (s.setPort p q).schedule = s.schedule := rfl
@[simp] theorem State.setPort_resp (s : State) (p : Nat) (q : Port) : (s.setPort p q).resp = s.resp := rfl
@[simp] theorem State.setPort_programs (s : State) (p : Nat) (q : Port) : (s.setPort p q).programs = s.programs := rfl

@[simp] theorem State.respond_cfg (s : State) (r : Response) : (s.respond r).cfg = s.cfg := rfl
@[simp] theorem State.respond_axes (s : State) (r : Response) : (s.respond r).axes = s.axes := rfl
@[simp] theorem State.respond_ports (s : State) (r : Response) : (s.respond r).ports = s.ports := rfl
@[simp] theorem State.respond_issuer (s : State) (r : Response) : (s.respond r).issuer = s.issuer := rfl
@[simp] theorem State.respond_schedule (s : State) (r : Response) : (s.respond r).schedule = s.schedule := rfl
@[simp] theorem State.respond_resp (s : State) (r : Response) : (s.respond r).resp = r := rfl
@[simp] theorem State.respond_programs (s : State) (r : Response) : (s.respond r).programs = s.programs := rfl

@[simp] theorem State.withIssuer_cfg (s : State) (p : Nat) : (s.withIssuer p).cfg = s.cfg := rfl
@[simp] theorem State.withIssuer_axes (s : State) (p : Nat) : (s.withIssuer p).axes = s.axes := rfl
@[simp] theorem State.withIssuer_ports (s : State) (p : Nat) : (s.withIssuer p).ports = s.ports := rfl
@[simp] theorem State.withIssuer_issuer (s : State) (p : Nat) : (s.withIssuer p).issuer = p := rfl
@[simp] theorem State.withIssuer_schedule (s : State) (p : Nat) : (s.withIssuer p).schedule = s.schedule := rfl
@[simp] theorem State.withIssuer_resp (s : State) (p : Nat) : (s.withIssuer p).resp = s.resp := rfl
@[simp] theorem State.withIssuer_programs (s : State) (p : Nat) : (s.withIssuer p).programs = s.programs := rfl

@[simp] theorem State.withSchedule_cfg (s : State) (l : List Event) : (s.withSchedule l).cfg = s.cfg := rfl
@[simp] theorem State.withSchedule_axes (s : State) (l : List Event) : (s.withSchedule l).axes = s.axes := rfl
@[simp] theorem State.withSchedule_ports (s : State) (l : List Event) : (s.withSchedule l).ports = s.ports := rfl
@[simp] theorem State.withSchedule_issuer (s : State) (l : List Event) : (s.withSchedule l).issuer = s.issuer := rfl
@[simp] theorem State.withSchedule_schedule (s : State) (l : List Event) : (s.withSchedule l).schedule = l := rfl
@[simp] theorem State.withSchedule_resp (s : State) (l : List Event) : (s.withSchedule l).resp = s.resp := rfl
@[simp] theorem State.withSchedule_programs (s : State) (l : List Event) : (s.withSchedule l).programs = s.programs := rfl

@[simp] theorem State.withProgram_cfg (s : State) (p : Nat) (l : List Line) : (s.withProgram p l).cfg = s.cfg := rfl
@[simp] theorem State.withProgram_axes (s : State) (p : Nat) (l : List Line) : (s.withProgram p l).axes = s.axes := rfl
@[simp] theorem State.withProgram_ports (s : State) (p : Nat) (l : List Line) : (s.withProgram p l).ports = s.ports := rfl
@[simp] theorem State.withProgram_issuer (s : State) (p : Nat) (l : List Line) : (s.withProgram p l).issuer = s.issuer := rfl
@[simp] theorem State.withProgram_schedule (s : State) (p : Nat) (l : List Line) : (s.withProgram p l).schedule = s.schedule := rfl
@[simp] theorem State.withProgram_resp (s : State) (p : Nat) (l : List Line) : (s.withProgram p l).resp = s.resp := rfl
@[simp] theorem State.withProgram_programs (s : State) (p : Nat) (l : List Line) :
    (s.withProgram p l).programs = s.programs.set p l := rfl

@[simp] theorem State.modAxis_cfg (s : State) (a : Nat) (f : Axis → Axis) : (s.modAxis a f).cfg = s.cfg := rfl
@[simp] theorem State.modAxis_issuer (s : State) (a : Nat) (f : Axis → Axis) : (s.modAxis a f).issuer = s.issuer := rfl
@[simp] theorem State.modAxis_schedule (s : State) (a : Nat) (f : Axis → Axis) : (s.modAxis a f).schedule = s.schedule := rfl
@[simp] theorem State.modAxis_resp (s : State) (a : Nat) (f : Axis → Axis) : (s.modAxis a f).resp = s.resp := rfl
@[simp] theorem State.modAxis_programs (s : State) (a : Nat) (f : Axis → Axis) : (s.modAxis a f).programs = s.programs := rfl
@[simp] theorem State.modAxis_ports (s : State) (a : Nat) (f : Axis → Axis) : (s.modAxis a f).ports = s.ports := rfl

@[simp] theorem State.modPort_cfg (s : State) (p : Nat) (f : Port → Port) : (s.modPort p f).cfg = s.cfg := rfl
@[simp] theorem State.modPort_issuer (s : State) (p : Nat) (f : Port → Port) : (s.modPort p f).issuer = s.issuer := rfl
@[simp] theorem State.modPort_schedule (s : State) (p : Nat) (f : Port → Port) : (s.modPort p f).schedule = s.schedule := rfl
@[simp] theorem State.modPort_resp (s : State) (p : Nat) (f : Port → Port) : (s.modPort p f).resp = s.resp := rfl
@[simp] theorem State.modPort_programs (s : State) (p : Nat) (f : Port → Port) : (s.modPort p f).programs = s.programs := rfl
@[simp] theorem State.modPort_axes (s : State) (p : Nat) (f : Port → Port) : (s.modPort p f).axes = s.axes := rfl

@[simp] theorem State.modAxis_axes_length (s : State) (a : Nat) (f : Axis → Axis) :
    (s.modAxis a f).axes.length = s.axes.length := by simp [State.modAxis]

@[simp] theorem State.modPort_ports_length (s : State) (p : Nat) (f : Port → Port) :
    (s.modPort p f).ports.length = s.ports.length := by simp [State.modPort]

/-! ### Reading an axis or a port after an update -/

theorem getD_set_self {α : Type} {l : List α} {a : Nat} (h : a < l.length) (x d : α) : (l.set a x).getD a d = x := by
  simp [List.getD, h]

theorem getD_set_ne {α : Type} {l : List α} {a b : Nat} (h : b ≠ a) (x d : α) : (l.set a x).getD b d = l.getD b d := by
  simp [List.getD, List.getElem?_set_ne (Ne.symm h)]

theorem State.axis_modAxis_self {s : State} {a : Nat} (h : a < s.axes.length) (f : Axis → Axis) :
    (s.modAxis a f).axis a = f (s.axis a) := getD_set_self h _ _

theorem State.axis_modAxis_ne {s : State} {a b : Nat} (h : b ≠ a) (f : Axis → Axis) :
    (s.modAxis a f).axis b = s.axis b := getD_set_ne h _ _

theorem State.port_modPort_self {s : State} {p : Nat} (h : p < s.ports.length) (f : Port → Port) :
    (s.modPort p f).port p = f (s.port p) := getD_set_self h _ _

theorem State.port_modPort_ne {s : State} {p q : Nat} (h : q ≠ p) (f : Port → Port) :
    (s.modPort p f).port q = s.port q := getD_set_ne h _ _

@[simp] theorem State.axis_modPort (s : State) (p : Nat) (f : Port → Port) (a : Nat) : (s.modPort p f).axis a = s.axis a := rfl
@[simp] theorem State.axis_respond (s : State) (r : Response) (a : Nat) : (s.respond r).axis a = s.axis a := rfl
@[simp] theorem State.axis_withIssuer (s : State) (p : Nat) (a : Nat) : (s.withIssuer p).axis a = s.axis a := rfl
@[simp] theorem State.axis_withSchedule (s : State) (l : List Event) (a : Nat) : (s.withSchedule l).axis a = s.axis a := rfl
@[simp] theorem State.axis_withProgram (s : State) (p : Nat) (l : List Line) (a : Nat) :
    (s.withProgram p l).axis a = s.axis a := rfl
@[simp] theorem State.port_modAxis (s : State) (a : Nat) (f : Axis → Axis) (q : Nat) : (s.modAxis a f).port q = s.port q := rfl
@[simp] theorem State.port_respond (s : State) (r : Response) (q : Nat) : (s.respond r).port q = s.port q := rfl
@[simp] theorem State.port_withIssuer (s : State) (p : Nat) (q : Nat) : (s.withIssuer p).port q = s.port q := rfl
@[simp] theorem State.port_withSchedule (s : State) (l : List Event) (q : Nat) : (s.withSchedule l).port q = s.port q := rfl

@[simp] theorem State.port_withProgram (s : State) (p : Nat) (l : List Line) (q : Nat) :
    (s.withProgram p l).port q = s.port q := rfl
@[simp] theorem State.program_withSchedule (s : State) (l : List Event) (p : Nat) :
    (s.withSchedule l).program p = s.program p := rfl

theorem State.program_withProgram_self {s : State} {p : Nat} (h : p < s.programs.length) (l : List Line) :
    (s.withProgram p l).program p = l := getD_set_self h _ _

theorem State.program_withProgram_ne {s : State} {p q : Nat} (h : q ≠ p) (l : List Line) :
    (s.withProgram p l).program q = s.program q := getD_set_ne h _ _

/-- An update that does nothing to an axis of the block is no update. -/
theorem State.axis_modAxis_of_not_lt {s : State} {a : Nat} (h : ¬ a < s.axes.length) (f : Axis → Axis) :
    s.modAxis a f = s := by
  simp [State.modAxis, State.setAxis, List.set_eq_of_length_le (Nat.le_of_not_lt h)]

theorem State.port_modPort_of_not_lt {s : State} {p : Nat} (h : ¬ p < s.ports.length) (f : Port → Port) :
    s.modPort p f = s := by
  simp [State.modPort, State.setPort, List.set_eq_of_length_le (Nat.le_of_not_lt h)]

/-- The axis an update leaves: `f` of the old one at the index of the block, the old one elsewhere. -/
theorem State.axis_modAxis (s : State) (a b : Nat) (f : Axis → Axis) :
    (s.modAxis a f).axis b = if b = a ∧ a < s.axes.length then f (s.axis a) else s.axis b := by
  split
  · rename_i h; rw [h.1]; exact State.axis_modAxis_self h.2 f
  · rename_i h
    by_cases hb : b = a
    · rw [State.axis_modAxis_of_not_lt (fun hl => h ⟨hb, hl⟩)]
    · exact State.axis_modAxis_ne hb f

theorem State.port_modPort (s : State) (p q : Nat) (f : Port → Port) :
    (s.modPort p f).port q = if q = p ∧ p < s.ports.length then f (s.port p) else s.port q := by
  split
  · rename_i h; rw [h.1]; exact State.port_modPort_self h.2 f
  · rename_i h
    by_cases hb : q = p
    · rw [State.port_modPort_of_not_lt (fun hl => h ⟨hb, hl⟩)]
    · exact State.port_modPort_ne hb f

/-- An axis of the block is an element of the list, and conversely: what holds of all of one holds of all of the
other. -/
theorem State.axis_mem {s : State} {a : Nat} (h : a < s.axes.length) : s.axis a ∈ s.axes := by
  simp [State.axis, List.getD, h]

theorem State.port_mem {s : State} {p : Nat} (h : p < s.ports.length) : s.port p ∈ s.ports := by
  simp [State.port, List.getD, h]

/-- What holds of every axis still holds after an update of one that keeps it. -/
theorem State.forall_axes_modAxis {s : State} {a : Nat} {f : Axis → Axis} {P : Axis → Prop}
    (h : ∀ x ∈ s.axes, P x) (hf : P (s.axis a) → P (f (s.axis a))) : ∀ x ∈ (s.modAxis a f).axes, P x := by
  intro x hx
  by_cases ha : a < s.axes.length
  · rcases List.mem_or_eq_of_mem_set hx with hx | rfl
    · exact h x hx
    · exact hf (h _ (State.axis_mem ha))
  · rw [State.axis_modAxis_of_not_lt ha] at hx
    exact h x hx

theorem State.forall_ports_modPort {s : State} {p : Nat} {f : Port → Port} {P : Port → Prop}
    (h : ∀ q ∈ s.ports, P q) (hf : P (s.port p) → P (f (s.port p))) : ∀ q ∈ (s.modPort p f).ports, P q := by
  intro q hq
  by_cases hp : p < s.ports.length
  · rcases List.mem_or_eq_of_mem_set hq with hq | rfl
    · exact h q hq
    · exact hf (h _ (State.port_mem hp))
  · rw [State.port_modPort_of_not_lt hp] at hq
    exact h q hq

/-! ### Port -/

@[simp] theorem Port.complete_cmd (s : Port) (code : ResultCode) : (s.complete code).cmd = s.cmd := rfl
@[simp] theorem Port.complete_arg0 (s : Port) (code : ResultCode) : (s.complete code).arg0 = s.arg0 := rfl
@[simp] theorem Port.complete_arg1 (s : Port) (code : ResultCode) : (s.complete code).arg1 = s.arg1 := rfl
@[simp] theorem Port.complete_arg2 (s : Port) (code : ResultCode) : (s.complete code).arg2 = s.arg2 := rfl
@[simp] theorem Port.complete_arg3 (s : Port) (code : ResultCode) : (s.complete code).arg3 = s.arg3 := rfl
@[simp] theorem Port.complete_result (s : Port) (code : ResultCode) : (s.complete code).result = code.code := rfl
@[simp] theorem Port.complete_busy (s : Port) (code : ResultCode) : (s.complete code).busy = false := rfl
@[simp] theorem Port.complete_done (s : Port) (code : ResultCode) : (s.complete code).done = true := rfl
@[simp] theorem Port.complete_overrun (s : Port) (code : ResultCode) : (s.complete code).overrun = s.overrun := rfl
@[simp] theorem Port.complete_doneIe (s : Port) (code : ResultCode) : (s.complete code).doneIe = s.doneIe := rfl
@[simp] theorem Port.complete_res (s : Port) (code : ResultCode) : (s.complete code).res = s.res := rfl
@[simp] theorem Port.complete_snapA (s : Port) (code : ResultCode) : (s.complete code).snapA = s.snapA := rfl
@[simp] theorem Port.complete_snapB (s : Port) (code : ResultCode) : (s.complete code).snapB = s.snapB := rfl
@[simp] theorem Port.complete_pstate (s : Port) (code : ResultCode) : (s.complete code).pstate = .idle := rfl
@[simp] theorem Port.complete_pwax (s : Port) (code : ResultCode) : (s.complete code).pwax = s.pwax := rfl

@[simp] theorem Port.hold_cmd (s : Port) (st : PortState) : (s.hold st).cmd = s.cmd := rfl
@[simp] theorem Port.hold_arg0 (s : Port) (st : PortState) : (s.hold st).arg0 = s.arg0 := rfl
@[simp] theorem Port.hold_arg1 (s : Port) (st : PortState) : (s.hold st).arg1 = s.arg1 := rfl
@[simp] theorem Port.hold_arg2 (s : Port) (st : PortState) : (s.hold st).arg2 = s.arg2 := rfl
@[simp] theorem Port.hold_arg3 (s : Port) (st : PortState) : (s.hold st).arg3 = s.arg3 := rfl
@[simp] theorem Port.hold_result (s : Port) (st : PortState) : (s.hold st).result = ResultCode.pending.code := rfl
@[simp] theorem Port.hold_busy (s : Port) (st : PortState) : (s.hold st).busy = true := rfl
@[simp] theorem Port.hold_done (s : Port) (st : PortState) : (s.hold st).done = s.done := rfl
@[simp] theorem Port.hold_overrun (s : Port) (st : PortState) : (s.hold st).overrun = s.overrun := rfl
@[simp] theorem Port.hold_doneIe (s : Port) (st : PortState) : (s.hold st).doneIe = s.doneIe := rfl
@[simp] theorem Port.hold_res (s : Port) (st : PortState) : (s.hold st).res = s.res := rfl
@[simp] theorem Port.hold_snapA (s : Port) (st : PortState) : (s.hold st).snapA = s.snapA := rfl
@[simp] theorem Port.hold_snapB (s : Port) (st : PortState) : (s.hold st).snapB = s.snapB := rfl
@[simp] theorem Port.hold_pstate (s : Port) (st : PortState) : (s.hold st).pstate = st := rfl
@[simp] theorem Port.hold_pwax (s : Port) (st : PortState) : (s.hold st).pwax = s.pwax := rfl

@[simp] theorem Port.writePstat_cmd (s : Port) (v : Word) : (s.writePstat v).cmd = s.cmd := rfl
@[simp] theorem Port.writePstat_arg0 (s : Port) (v : Word) : (s.writePstat v).arg0 = s.arg0 := rfl
@[simp] theorem Port.writePstat_arg1 (s : Port) (v : Word) : (s.writePstat v).arg1 = s.arg1 := rfl
@[simp] theorem Port.writePstat_arg2 (s : Port) (v : Word) : (s.writePstat v).arg2 = s.arg2 := rfl
@[simp] theorem Port.writePstat_arg3 (s : Port) (v : Word) : (s.writePstat v).arg3 = s.arg3 := rfl
@[simp] theorem Port.writePstat_result (s : Port) (v : Word) : (s.writePstat v).result = s.result := rfl
@[simp] theorem Port.writePstat_busy (s : Port) (v : Word) : (s.writePstat v).busy = s.busy := rfl
@[simp] theorem Port.writePstat_done (s : Port) (v : Word) : (s.writePstat v).done = (s.done && !v.getLsbD 1) := rfl
@[simp] theorem Port.writePstat_overrun (s : Port) (v : Word) : (s.writePstat v).overrun = (s.overrun && !v.getLsbD 2) := rfl
@[simp] theorem Port.writePstat_doneIe (s : Port) (v : Word) : (s.writePstat v).doneIe = s.doneIe := rfl
@[simp] theorem Port.writePstat_res (s : Port) (v : Word) : (s.writePstat v).res = s.res := rfl
@[simp] theorem Port.writePstat_snapA (s : Port) (v : Word) : (s.writePstat v).snapA = s.snapA := rfl
@[simp] theorem Port.writePstat_snapB (s : Port) (v : Word) : (s.writePstat v).snapB = s.snapB := rfl
@[simp] theorem Port.writePstat_pstate (s : Port) (v : Word) : (s.writePstat v).pstate = s.pstate := rfl
@[simp] theorem Port.writePstat_pwax (s : Port) (v : Word) : (s.writePstat v).pwax = s.pwax := rfl

@[simp] theorem Port.writePctl_cmd (s : Port) (v : Word) : (s.writePctl v).cmd = s.cmd := rfl
@[simp] theorem Port.writePctl_arg0 (s : Port) (v : Word) : (s.writePctl v).arg0 = s.arg0 := rfl
@[simp] theorem Port.writePctl_arg1 (s : Port) (v : Word) : (s.writePctl v).arg1 = s.arg1 := rfl
@[simp] theorem Port.writePctl_arg2 (s : Port) (v : Word) : (s.writePctl v).arg2 = s.arg2 := rfl
@[simp] theorem Port.writePctl_arg3 (s : Port) (v : Word) : (s.writePctl v).arg3 = s.arg3 := rfl
@[simp] theorem Port.writePctl_result (s : Port) (v : Word) : (s.writePctl v).result = s.result := rfl
@[simp] theorem Port.writePctl_busy (s : Port) (v : Word) : (s.writePctl v).busy = s.busy := rfl
@[simp] theorem Port.writePctl_done (s : Port) (v : Word) : (s.writePctl v).done = s.done := rfl
@[simp] theorem Port.writePctl_overrun (s : Port) (v : Word) : (s.writePctl v).overrun = s.overrun := rfl
@[simp] theorem Port.writePctl_doneIe (s : Port) (v : Word) : (s.writePctl v).doneIe = v.getLsbD 0 := rfl
@[simp] theorem Port.writePctl_res (s : Port) (v : Word) : (s.writePctl v).res = s.res := rfl
@[simp] theorem Port.writePctl_snapA (s : Port) (v : Word) : (s.writePctl v).snapA = s.snapA := rfl
@[simp] theorem Port.writePctl_snapB (s : Port) (v : Word) : (s.writePctl v).snapB = s.snapB := rfl
@[simp] theorem Port.writePctl_pstate (s : Port) (v : Word) : (s.writePctl v).pstate = s.pstate := rfl
@[simp] theorem Port.writePctl_pwax (s : Port) (v : Word) : (s.writePctl v).pwax = s.pwax := rfl

/-! ### Axis -/

@[simp] theorem Axis.mbWrite_vel (s : Axis) (t : Int) (acc n : Nat) : (s.mbWrite t acc n).vel = s.vel := rfl
@[simp] theorem Axis.mbWrite_tgt (s : Axis) (t : Int) (acc n : Nat) : (s.mbWrite t acc n).tgt = s.tgt := rfl
@[simp] theorem Axis.mbWrite_accel (s : Axis) (t : Int) (acc n : Nat) : (s.mbWrite t acc n).accel = s.accel := rfl
@[simp] theorem Axis.mbWrite_total (s : Axis) (t : Int) (acc n : Nat) : (s.mbWrite t acc n).total = s.total := rfl
@[simp] theorem Axis.mbWrite_sig (s : Axis) (t : Int) (acc n : Nat) : (s.mbWrite t acc n).sig = s.sig := rfl
@[simp] theorem Axis.mbWrite_reload (s : Axis) (t : Int) (acc n : Nat) : (s.mbWrite t acc n).reload = s.reload := rfl
@[simp] theorem Axis.mbWrite_period (s : Axis) (t : Int) (acc n : Nat) : (s.mbWrite t acc n).period = s.period := rfl
@[simp] theorem Axis.mbWrite_mult (s : Axis) (t : Int) (acc n : Nat) : (s.mbWrite t acc n).mult = s.mult := rfl
@[simp] theorem Axis.mbWrite_accum (s : Axis) (t : Int) (acc n : Nat) : (s.mbWrite t acc n).accum = s.accum := rfl
@[simp] theorem Axis.mbWrite_rem (s : Axis) (t : Int) (acc n : Nat) : (s.mbWrite t acc n).rem = s.rem := rfl
@[simp] theorem Axis.mbWrite_th1 (s : Axis) (t : Int) (acc n : Nat) : (s.mbWrite t acc n).th1 = s.th1 := rfl
@[simp] theorem Axis.mbWrite_th2 (s : Axis) (t : Int) (acc n : Nat) : (s.mbWrite t acc n).th2 = s.th2 := rfl
@[simp] theorem Axis.mbWrite_phase (s : Axis) (t : Int) (acc n : Nat) : (s.mbWrite t acc n).phase = s.phase := rfl
@[simp] theorem Axis.mbWrite_out (s : Axis) (t : Int) (acc n : Nat) : (s.mbWrite t acc n).out = s.out := rfl
@[simp] theorem Axis.mbWrite_last (s : Axis) (t : Int) (acc n : Nat) : (s.mbWrite t acc n).last = s.last := rfl
@[simp] theorem Axis.mbWrite_mb (s : Axis) (t : Int) (acc n : Nat) : (s.mbWrite t acc n).mb = ⟨u32 t, BitVec.ofNat 32 acc, BitVec.ofNat 32 n, decide (n ≠ 0), true⟩ := rfl
@[simp] theorem Axis.mbWrite_sem (s : Axis) (t : Int) (acc n : Nat) : (s.mbWrite t acc n).sem = s.sem := rfl
@[simp] theorem Axis.mbWrite_force (s : Axis) (t : Int) (acc n : Nat) : (s.mbWrite t acc n).force = (s.force || decide (s.reload = 0#16)) := rfl
@[simp] theorem Axis.mbWrite_tcnt (s : Axis) (t : Int) (acc n : Nat) : (s.mbWrite t acc n).tcnt = s.tcnt := rfl

@[simp] theorem Axis.setScaled_vel (s : Axis) (r : Scaled) : (s.setScaled r).vel = u32 r.vel := rfl
@[simp] theorem Axis.setScaled_tgt (s : Axis) (r : Scaled) : (s.setScaled r).tgt = s.tgt := rfl
@[simp] theorem Axis.setScaled_accel (s : Axis) (r : Scaled) : (s.setScaled r).accel = s.accel := rfl
@[simp] theorem Axis.setScaled_total (s : Axis) (r : Scaled) : (s.setScaled r).total = s.total := rfl
@[simp] theorem Axis.setScaled_sig (s : Axis) (r : Scaled) : (s.setScaled r).sig = s.sig := rfl
@[simp] theorem Axis.setScaled_reload (s : Axis) (r : Scaled) : (s.setScaled r).reload = BitVec.ofNat 16 r.reload := rfl
@[simp] theorem Axis.setScaled_period (s : Axis) (r : Scaled) : (s.setScaled r).period = BitVec.ofNat 32 r.period := rfl
@[simp] theorem Axis.setScaled_mult (s : Axis) (r : Scaled) : (s.setScaled r).mult = BitVec.ofNat 16 r.mult := rfl
@[simp] theorem Axis.setScaled_accum (s : Axis) (r : Scaled) : (s.setScaled r).accum = s.accum := rfl
@[simp] theorem Axis.setScaled_rem (s : Axis) (r : Scaled) : (s.setScaled r).rem = s.rem := rfl
@[simp] theorem Axis.setScaled_th1 (s : Axis) (r : Scaled) : (s.setScaled r).th1 = s.th1 := rfl
@[simp] theorem Axis.setScaled_th2 (s : Axis) (r : Scaled) : (s.setScaled r).th2 = s.th2 := rfl
@[simp] theorem Axis.setScaled_phase (s : Axis) (r : Scaled) : (s.setScaled r).phase = s.phase := rfl
@[simp] theorem Axis.setScaled_out (s : Axis) (r : Scaled) : (s.setScaled r).out = s.out := rfl
@[simp] theorem Axis.setScaled_last (s : Axis) (r : Scaled) : (s.setScaled r).last = s.last := rfl
@[simp] theorem Axis.setScaled_mb (s : Axis) (r : Scaled) : (s.setScaled r).mb = s.mb := rfl
@[simp] theorem Axis.setScaled_sem (s : Axis) (r : Scaled) : (s.setScaled r).sem = s.sem := rfl
@[simp] theorem Axis.setScaled_force (s : Axis) (r : Scaled) : (s.setScaled r).force = s.force := rfl
@[simp] theorem Axis.setScaled_tcnt (s : Axis) (r : Scaled) : (s.setScaled r).tcnt = s.tcnt := rfl

@[simp] theorem Axis.load_vel (c : Config) (s : Axis) : (s.load c).vel =
    u32 (scale c (loadVelocity (s32 s.vel) (s32 s.mb.tgt) s.mb.acc.toNat)).vel := rfl
@[simp] theorem Axis.load_tgt (c : Config) (s : Axis) : (s.load c).tgt = s.mb.tgt := rfl
@[simp] theorem Axis.load_accel (c : Config) (s : Axis) : (s.load c).accel = s.mb.acc := rfl
@[simp] theorem Axis.load_total (c : Config) (s : Axis) : (s.load c).total = s.mb.total := rfl
@[simp] theorem Axis.load_sig (c : Config) (s : Axis) : (s.load c).sig = s.mb.sig := rfl
@[simp] theorem Axis.load_reload (c : Config) (s : Axis) : (s.load c).reload =
    BitVec.ofNat 16 (scale c (loadVelocity (s32 s.vel) (s32 s.mb.tgt) s.mb.acc.toNat)).reload := rfl
@[simp] theorem Axis.load_period (c : Config) (s : Axis) : (s.load c).period =
    BitVec.ofNat 32 (scale c (loadVelocity (s32 s.vel) (s32 s.mb.tgt) s.mb.acc.toNat)).period := rfl
@[simp] theorem Axis.load_mult (c : Config) (s : Axis) : (s.load c).mult =
    BitVec.ofNat 16 (scale c (loadVelocity (s32 s.vel) (s32 s.mb.tgt) s.mb.acc.toNat)).mult := rfl
@[simp] theorem Axis.load_accum (c : Config) (s : Axis) : (s.load c).accum = s.period.setWidth 64 := rfl
@[simp] theorem Axis.load_rem (c : Config) (s : Axis) : (s.load c).rem = s.mb.total := rfl
@[simp] theorem Axis.load_th1 (c : Config) (s : Axis) : (s.load c).th1 = BitVec.ofNat 32 (s.mb.total.toNat / 2) := rfl
@[simp] theorem Axis.load_th2 (c : Config) (s : Axis) : (s.load c).th2 =
    BitVec.ofNat 32 (stopThreshold (s32 s.mb.tgt) s.mb.acc.toNat) := rfl
@[simp] theorem Axis.load_phase (c : Config) (s : Axis) : (s.load c).phase = s.phase := rfl
@[simp] theorem Axis.load_out (c : Config) (s : Axis) : (s.load c).out = s.out := rfl
@[simp] theorem Axis.load_last (c : Config) (s : Axis) : (s.load c).last = s.last := rfl
@[simp] theorem Axis.load_mb (c : Config) (s : Axis) : (s.load c).mb = { s.mb with pend := false } := rfl
@[simp] theorem Axis.load_sem (c : Config) (s : Axis) : (s.load c).sem = s.sem := rfl
@[simp] theorem Axis.load_force (c : Config) (s : Axis) : (s.load c).force = s.force := rfl
@[simp] theorem Axis.load_tcnt (c : Config) (s : Axis) : (s.load c).tcnt = s.tcnt := rfl

@[simp] theorem Axis.countDown_vel (s : Axis) : s.countDown.vel = s.vel := rfl
@[simp] theorem Axis.countDown_tgt (s : Axis) : s.countDown.tgt =
    if (s.rem - 1#32 = s.th1 ∧ s.vel ≠ s.tgt) ∨ s.rem - 1#32 = s.th2 then 0#32 else s.tgt := rfl
@[simp] theorem Axis.countDown_accel (s : Axis) : s.countDown.accel = s.accel := rfl
@[simp] theorem Axis.countDown_total (s : Axis) : s.countDown.total = s.total := rfl
@[simp] theorem Axis.countDown_sig (s : Axis) : s.countDown.sig = s.sig := rfl
@[simp] theorem Axis.countDown_reload (s : Axis) : s.countDown.reload = s.reload := rfl
@[simp] theorem Axis.countDown_period (s : Axis) : s.countDown.period = s.period := rfl
@[simp] theorem Axis.countDown_mult (s : Axis) : s.countDown.mult = s.mult := rfl
@[simp] theorem Axis.countDown_accum (s : Axis) : s.countDown.accum = s.accum := rfl
@[simp] theorem Axis.countDown_rem (s : Axis) : s.countDown.rem = s.rem - 1#32 := rfl
@[simp] theorem Axis.countDown_th1 (s : Axis) : s.countDown.th1 = s.th1 := rfl
@[simp] theorem Axis.countDown_th2 (s : Axis) : s.countDown.th2 = s.th2 := rfl
@[simp] theorem Axis.countDown_phase (s : Axis) : s.countDown.phase = s.phase := rfl
@[simp] theorem Axis.countDown_out (s : Axis) : s.countDown.out = s.out := rfl
@[simp] theorem Axis.countDown_last (s : Axis) : s.countDown.last = s.last := rfl
@[simp] theorem Axis.countDown_mb (s : Axis) : s.countDown.mb = s.mb := rfl
@[simp] theorem Axis.countDown_sem (s : Axis) : s.countDown.sem = s.sem := rfl
@[simp] theorem Axis.countDown_force (s : Axis) : s.countDown.force = s.force := rfl
@[simp] theorem Axis.countDown_tcnt (s : Axis) : s.countDown.tcnt = s.tcnt := rfl

@[simp] theorem Axis.finish_vel (c : Config) (s : Axis) : (s.finish c).vel = u32 (scale c 0).vel := rfl
@[simp] theorem Axis.finish_tgt (c : Config) (s : Axis) : (s.finish c).tgt = 0#32 := rfl
@[simp] theorem Axis.finish_accel (c : Config) (s : Axis) : (s.finish c).accel = s.accel := rfl
@[simp] theorem Axis.finish_total (c : Config) (s : Axis) : (s.finish c).total = s.total := rfl
@[simp] theorem Axis.finish_sig (c : Config) (s : Axis) : (s.finish c).sig = s.sig := rfl
@[simp] theorem Axis.finish_reload (c : Config) (s : Axis) : (s.finish c).reload = BitVec.ofNat 16 (scale c 0).reload := rfl
@[simp] theorem Axis.finish_period (c : Config) (s : Axis) : (s.finish c).period = BitVec.ofNat 32 (scale c 0).period := rfl
@[simp] theorem Axis.finish_mult (c : Config) (s : Axis) : (s.finish c).mult = BitVec.ofNat 16 (scale c 0).mult := rfl
@[simp] theorem Axis.finish_accum (c : Config) (s : Axis) : (s.finish c).accum = s.accum := rfl
@[simp] theorem Axis.finish_rem (c : Config) (s : Axis) : (s.finish c).rem = s.rem := rfl
@[simp] theorem Axis.finish_th1 (c : Config) (s : Axis) : (s.finish c).th1 = s.th1 := rfl
@[simp] theorem Axis.finish_th2 (c : Config) (s : Axis) : (s.finish c).th2 = s.th2 := rfl
@[simp] theorem Axis.finish_phase (c : Config) (s : Axis) : (s.finish c).phase = s.phase := rfl
@[simp] theorem Axis.finish_out (c : Config) (s : Axis) : (s.finish c).out = s.out := rfl
@[simp] theorem Axis.finish_last (c : Config) (s : Axis) : (s.finish c).last = s.last := rfl
@[simp] theorem Axis.finish_mb (c : Config) (s : Axis) : (s.finish c).mb = s.mb := rfl
@[simp] theorem Axis.finish_sem (c : Config) (s : Axis) : (s.finish c).sem = (s.sem || s.sig) := rfl
@[simp] theorem Axis.finish_force (c : Config) (s : Axis) : (s.finish c).force = s.force := rfl
@[simp] theorem Axis.finish_tcnt (c : Config) (s : Axis) : (s.finish c).tcnt = s.tcnt := rfl

@[simp] theorem Axis.phaseOut_vel (c : Config) (s : Axis) : (s.phaseOut c).vel = s.vel := rfl
@[simp] theorem Axis.phaseOut_tgt (c : Config) (s : Axis) : (s.phaseOut c).tgt = s.tgt := rfl
@[simp] theorem Axis.phaseOut_accel (c : Config) (s : Axis) : (s.phaseOut c).accel = s.accel := rfl
@[simp] theorem Axis.phaseOut_total (c : Config) (s : Axis) : (s.phaseOut c).total = s.total := rfl
@[simp] theorem Axis.phaseOut_sig (c : Config) (s : Axis) : (s.phaseOut c).sig = s.sig := rfl
@[simp] theorem Axis.phaseOut_reload (c : Config) (s : Axis) : (s.phaseOut c).reload = s.reload := rfl
@[simp] theorem Axis.phaseOut_period (c : Config) (s : Axis) : (s.phaseOut c).period = s.period := rfl
@[simp] theorem Axis.phaseOut_mult (c : Config) (s : Axis) : (s.phaseOut c).mult = s.mult := rfl
@[simp] theorem Axis.phaseOut_accum (c : Config) (s : Axis) : (s.phaseOut c).accum = s.accum := rfl
@[simp] theorem Axis.phaseOut_rem (c : Config) (s : Axis) : (s.phaseOut c).rem = s.rem := rfl
@[simp] theorem Axis.phaseOut_th1 (c : Config) (s : Axis) : (s.phaseOut c).th1 = s.th1 := rfl
@[simp] theorem Axis.phaseOut_th2 (c : Config) (s : Axis) : (s.phaseOut c).th2 = s.th2 := rfl
@[simp] theorem Axis.phaseOut_phase (c : Config) (s : Axis) : (s.phaseOut c).phase =
    if s32 s.vel > 0 then s.phase + 1#3 else if s32 s.vel < 0 then s.phase + 7#3 else s.phase := rfl
@[simp] theorem Axis.phaseOut_out (c : Config) (s : Axis) : (s.phaseOut c).out = phasePattern c s.phase := rfl
@[simp] theorem Axis.phaseOut_last (c : Config) (s : Axis) : (s.phaseOut c).last = s.last := rfl
@[simp] theorem Axis.phaseOut_mb (c : Config) (s : Axis) : (s.phaseOut c).mb = s.mb := rfl
@[simp] theorem Axis.phaseOut_sem (c : Config) (s : Axis) : (s.phaseOut c).sem = s.sem := rfl
@[simp] theorem Axis.phaseOut_force (c : Config) (s : Axis) : (s.phaseOut c).force = s.force := rfl
@[simp] theorem Axis.phaseOut_tcnt (c : Config) (s : Axis) : (s.phaseOut c).tcnt = s.tcnt := rfl

end Sys2Proof.Machine
end

