-- ==== Sys2Proof/Laws/Frame.lean ====
section
/-! SUPPORT. `SameBut`, the frame of a step, of each operation and of several in a row; what a mailbox write and the
end of a command leave, in the terms claims use. -/

namespace Sys2Proof.Machine

theorem SameBut.refl (s : State) : SameBut [] [] s s :=
  ⟨rfl, rfl, rfl, rfl, rfl, rfl, rfl, fun _ _ => rfl, fun _ _ => rfl⟩

theorem SameBut.trans {as bs ps qs : List Nat} {s t u : State} (h1 : SameBut as ps s t) (h2 : SameBut bs qs t u) :
    SameBut (as ++ bs) (ps ++ qs) s u := by
  obtain ⟨a1, a2, a3, a4, a0, a5, a6, a7, a8⟩ := h1
  obtain ⟨b1, b2, b3, b4, b0, b5, b6, b7, b8⟩ := h2
  refine ⟨b1.trans a1, b2.trans a2, b3.trans a3, b4.trans a4, b0.trans a0, b5.trans a5, b6.trans a6, fun b hb => ?_, fun q hq => ?_⟩
  · rw [List.mem_append, not_or] at hb
    rw [b7 b hb.2, a7 b hb.1]
  · rw [List.mem_append, not_or] at hq
    rw [b8 q hq.2, a8 q hq.1]

theorem SameBut.mono {as bs ps qs : List Nat} {s t : State} (h : SameBut as ps s t) (ha : as ⊆ bs) (hp : ps ⊆ qs) :
    SameBut bs qs s t := by
  obtain ⟨h1, h2, h3, h4, h0, h5, h6, h7, h8⟩ := h
  exact ⟨h1, h2, h3, h4, h0, h5, h6, fun b hb => h7 b (fun h => hb (ha h)), fun q hq => h8 q (fun h => hq (hp h))⟩

theorem SameBut.modPort (s : State) (p : Nat) (f : Port → Port) : SameBut [] [p] s (s.modPort p f) :=
  ⟨rfl, rfl, rfl, rfl, rfl, rfl, by simp, fun _ _ => rfl, fun _ hq => State.port_modPort_ne (by simpa using hq) f⟩

theorem SameBut.modAxis (s : State) (a : Nat) (f : Axis → Axis) : SameBut [a] [] s (s.modAxis a f) :=
  ⟨rfl, rfl, rfl, rfl, rfl, by simp, rfl, fun _ hb => State.axis_modAxis_ne (by simpa using hb) f, fun _ _ => rfl⟩

theorem SameBut.complete (p : Nat) (code : ResultCode) (s : State) : SameBut [] [p] s (complete p code s) :=
  .modPort s p _

/-- The frame of well-formed states is well formed. -/
theorem SameBut.wf {as ps : List Nat} {s t : State} (h : SameBut as ps s t) (hs : s.Wf) : t.Wf := by
  obtain ⟨h1, h2, _, _, h0, h5, h6, _, _⟩ := h
  obtain ⟨w1, w2, w3, w4, w5⟩ := hs
  exact ⟨by rw [h1]; exact w1, by rw [h1, h5, w2], by rw [h1, h6, w3], by rw [h1, h2]; exact w4, by rw [h0, h1, w5]⟩

theorem State.Wf.issuer_lt {s : State} (h : s.Wf) : s.issuer < s.ports.length := by
  obtain ⟨_, _, h3, h4, _⟩ := h
  omega

theorem axisValid_iff {c : Config} {a : Nat} : axisValid c a = true ↔ a < c.numAxes := by simp [axisValid]

theorem port_complete {p : Nat} {s : State} (h : p < s.ports.length) (code : ResultCode) :
    (complete p code s).port p = (s.port p).ended code.code := State.port_modPort_self h _

@[simp] theorem axis_complete (p : Nat) (code : ResultCode) (s : State) (a : Nat) :
    (complete p code s).axis a = s.axis a := rfl

/-- A count of at most 32 bits is 0 exactly when its word is. -/
theorem ofNat_ne_zero {n : Nat} (h : n < 2 ^ 32) : n ≠ 0 ↔ BitVec.ofNat 32 n ≠ 0#32 := by
  rw [ne_eq, ne_eq, BitVec.toNat_eq]
  simp
  omega

theorem mbWrite_eq_mailed (x : Axis) (t : Int) (acc : Nat) {n : Nat} (h : n < 2 ^ 32) :
    x.mbWrite t acc n = x.mailed (u32 t) (BitVec.ofNat 32 acc) (BitVec.ofNat 32 n) := by
  simp [Axis.mbWrite, ofNat_ne_zero h]

theorem axis_mbWrite {a : Nat} {s : State} (h : a < s.axes.length) (t : Int) (acc : Nat) {n : Nat} (hn : n < 2 ^ 32) :
    (mbWrite a t acc n s).axis a = (s.axis a).mailed (u32 t) (BitVec.ofNat 32 acc) (BitVec.ofNat 32 n) := by
  rw [mbWrite, State.axis_modAxis_self h, mbWrite_eq_mailed _ _ _ hn]

end Sys2Proof.Machine
end

