-- ==== Sys2Proof/Laws/Decode.lean ====
section
/-! SUPPORT. How a placed field reads back, and what the fields of an encoded command word are. -/

namespace Sys2Proof

/-- The bits of a placed field. -/
@[simp] theorem getLsbD_place {n : Nat} (v : BitVec n) (lo i : Nat) :
    (place v lo).getLsbD i = (decide (i < 32) && decide (lo ≤ i) && v.getLsbD (i - lo)) := by
  unfold place
  rw [BitVec.getLsbD_shiftLeft, BitVec.getLsbD_setWidth]
  by_cases h1 : i < 32
  · by_cases h2 : lo ≤ i
    · simp [h1, h2, show ¬ i < lo by omega, show i - lo < 32 by omega]
    · simp [h2, show i < lo by omega]
  · simp [h1]

@[simp] theorem getElem_place {n : Nat} (v : BitVec n) (lo i : Nat) (h : i < 32) :
    (place v lo)[i] = (decide (lo ≤ i) && v.getLsbD (i - lo)) := by
  rw [← BitVec.getLsbD_eq_getElem, getLsbD_place]; simp [h]

@[simp] theorem getLsbD_ofBool (b : Bool) (i : Nat) : (BitVec.ofBool b).getLsbD i = (decide (i = 0) && b) := by
  cases b <;> cases i <;> simp [BitVec.ofBool]

/-- A word is put together from its own bytes. -/
theorem wordOfBytes_wordByte (w : Word) : wordOfBytes (wordByte w 0) (wordByte w 1) (wordByte w 2) (wordByte w 3) = w := by
  apply BitVec.eq_of_getLsbD_eq
  intro i hi
  simp only [wordOfBytes, wordByte, BitVec.getLsbD_or, getLsbD_place, BitVec.getLsbD_extractLsb']
  have h8 : i < 8 ∨ (8 ≤ i ∧ i < 16) ∨ (16 ≤ i ∧ i < 24) ∨ 24 ≤ i := by omega
  generalize hb : w.getLsbD i = b
  rcases h8 with h | h | h | h <;> cases b <;> simp_all <;> omega

/-- The fields of an encoded command word (30_encoding.md R80). -/
@[simp] theorem opcodeField_commandWord (op : BitVec 8) (a : Nat) (h : Bool) :
    opcodeField (commandWord op a h) = op := by
  apply BitVec.eq_of_getLsbD_eq
  intro i hi
  have h8 : ¬ 8 ≤ i := by omega
  have h16 : ¬ 16 ≤ i := by omega
  simp [opcodeField, commandWord, hi, h8, h16]
  intro; omega

theorem axisField_commandWord (op : BitVec 8) {a : Nat} (h : Bool) (ha : a < 256) :
    axisField (commandWord op a h) = a := by
  have : (commandWord op a h).extractLsb' 8 8 = BitVec.ofNat 8 a := by
    apply BitVec.eq_of_getLsbD_eq
    intro i hi
    have h16 : ¬ 16 ≤ 8 + i := by omega
    have h32 : 8 + i < 32 := by omega
    simp [commandWord, hi, h16, h32]
  simp [axisField, this]; omega

@[simp] theorem hardField_commandWord (op : BitVec 8) (a : Nat) (h : Bool) : hardField (commandWord op a h) = h := by
  simp [hardField, commandWord]

/-- No bit of `w` outside `m` is set. -/
theorem and_not_eq_zero {w m : Word} :
    w &&& ~~~m = 0#32 ↔ ∀ i, i < 32 → w.getLsbD i = true → m.getLsbD i = true := by
  constructor
  · intro h i hi hw
    have := congrArg (fun v : Word => v.getLsbD i) h
    simpa [hi, hw] using this
  · intro h
    apply BitVec.eq_of_getLsbD_eq
    intro i hi
    have := h i hi
    cases hw : w.getLsbD i <;> simp_all

/-- A word with no bit above HARD is put together from its fields. -/
theorem commandWord_fields {w : Word} (h : w &&& ~~~0x0001FFFF#32 = 0#32) :
    commandWord (opcodeField w) (axisField w) (hardField w) = w := by
  rw [and_not_eq_zero] at h
  have ha : BitVec.ofNat 8 (axisField w) = w.extractLsb' 8 8 := by
    simp only [axisField, BitVec.ofNat_toNat, BitVec.setWidth_eq]
  rw [commandWord, ha]
  apply BitVec.eq_of_getLsbD_eq
  intro i hi
  have hcase : i < 8 ∨ (8 ≤ i ∧ i < 16) ∨ i = 16 ∨ 17 ≤ i := by omega
  rcases hcase with h1 | ⟨h1, h2⟩ | rfl | h1
  · have h8 : ¬ 8 ≤ i := by omega
    have h16 : ¬ 16 ≤ i := by omega
    simp [opcodeField, hi, h8, h16]
    intro; omega
  · have h16 : ¬ 16 ≤ i := by omega
    have hs : 8 + (i - 8) = i := by omega
    have hl : i - 8 < 8 := by omega
    simp [opcodeField, hi, h1, h16, hs, hl]
  · simp [opcodeField, hardField]
  · have hz : w.getLsbD i = false := by
      by_contra hc
      have hm := h i hi (by simpa using hc)
      interval_cases i <;> simp at hm
    have h8 : ¬ i < 8 := by omega
    have hl : ¬ i - 8 < 8 := by omega
    have h0 : ¬ i - 16 = 0 := by omega
    rw [hz]
    simp [opcodeField, h8, hl, h0]

end Sys2Proof
end

