-- ==== Sys2Proof/Laws/Scaler.lean ====
section
/-! SUPPORT. Everything `Scale` can answer (40_timer_scaler.md R100). -/

namespace Sys2Proof.Machine

/-- The parameter facts a legal configuration gives. -/
theorem configLegal_iff (c : Config) : configLegal c = true ↔
    (1 ≤ c.numAxes ∧ c.numAxes ≤ 4) ∧ (1 ≤ c.numPorts ∧ c.numPorts ≤ 15) ∧
    (1 ≤ c.clkHz ∧ c.clkHz ≤ 4294967295) ∧ (1 ≤ c.velEps ∧ c.velEps ≤ 2147483647) ∧
    (c.axisRight < c.numAxes ∧ c.axisLeft < c.numAxes ∧ c.axisRight ≠ c.axisLeft) ∧
    c.kTurn ≤ 2147483647 ∧ (1 ≤ c.stepsPerM ∧ c.stepsPerM ≤ 2147483647) ∧
    (1 ≤ c.vmax ∧ c.vmax ≤ 2147483647) := by
  simp [configLegal]

/-- `Scale` disables the timer, or answers the tuple of a period that fits 32 bits. -/
theorem scale_cases (c : Config) (v : Int) :
    scale c v = Scaled.off ∨
    (c.velEps ≤ absInt v ∧ rawPeriod c (absInt v) ≤ 4294967295 ∧
      scale c v = scaledOf v (max 1 (rawPeriod c (absInt v)))) := by
  unfold scale
  split
  · exact .inl rfl
  · split
    · exact .inl rfl
    · exact .inr ⟨by omega, by omega, rfl⟩

/-- The scaler of zero is off. -/
theorem scale_zero {c : Config} (h : configLegal c = true) : scale c 0 = Scaled.off := by
  have := (configLegal_iff c).1 h
  unfold scale
  rw [if_pos (by simp [absInt]; omega)]

theorem isqrt_le_iff {n r : Nat} : r ≤ isqrt n ↔ r * r ≤ n := by
  constructor
  · intro h
    exact (Nat.mul_le_mul h h).trans (isqrt_spec n).1
  · intro h
    by_contra hc
    have := isqrt_lt (n := n) (m := r)
    have h2 := (isqrt_spec n).2
    have h3 : isqrt n + 1 ≤ r := by omega
    have := Nat.mul_le_mul h3 h3
    omega

/-- The divisor and the reload of a period: the divisor never changes the reload (40_timer_scaler.md R101). -/
theorem scaledOf_reload (v : Int) (P : Nat) : (scaledOf v P).reload = min P 65535 := by
  have hs := (isqrt_spec (P / 65536)).1
  simp only [scaledOf]
  rcases Nat.lt_or_ge (isqrt (P / 65536)) 2 with h | h
  · rw [show max 1 (isqrt (P / 65536)) = 1 by omega, Nat.div_one, Nat.min_comm]
  · rw [show max 1 (isqrt (P / 65536)) = isqrt (P / 65536) by omega]
    generalize isqrt (P / 65536) = d at *
    have h1 : 65536 * (d * d) ≤ P := by
      have := Nat.mul_le_mul_left 65536 hs
      omega
    have h2 : 65535 ≤ P / d := by
      rw [Nat.le_div_iff_mul_le (by omega)]
      have : d ≤ d * d := Nat.le_mul_of_pos_left d (by omega)
      omega
    have : 65536 ≤ P := by
      have : 1 * 1 ≤ d * d := Nat.mul_le_mul (by omega) (by omega)
      omega
    omega

/-- The ranges of a scaled tuple: period and reload at least 1, the divisor 1..255 (40_timer_scaler.md R100). -/
theorem scaledOf_bounds (v : Int) {P : Nat} (h1 : 1 ≤ P) (h2 : P ≤ 4294967295) :
    1 ≤ (scaledOf v P).reload ∧ (scaledOf v P).reload ≤ 65535 ∧ 1 ≤ (scaledOf v P).mult ∧ (scaledOf v P).mult ≤ 255 := by
  rw [scaledOf_reload]
  have : isqrt (P / 65536) < 256 := isqrt_lt (by omega)
  simp only [scaledOf]
  omega

/-- What every scaled tuple is: all zero, or a nonzero velocity with every part in range. -/
theorem scale_range {c : Config} (hc : configLegal c = true) (v : Int) :
    scale c v = Scaled.off ∨
    (v ≠ 0 ∧ (scale c v).vel = v ∧ 1 ≤ (scale c v).reload ∧ (scale c v).reload ≤ 65535 ∧ 1 ≤ (scale c v).period ∧
      (scale c v).period ≤ 4294967295 ∧ 1 ≤ (scale c v).mult ∧ (scale c v).mult ≤ 255) := by
  have hl := (configLegal_iff c).1 hc
  rcases scale_cases c v with h | ⟨h1, h2, h3⟩
  · exact .inl h
  · right
    have hb := scaledOf_bounds v (P := max 1 (rawPeriod c (absInt v))) (by omega) (by omega)
    rw [h3]
    refine ⟨fun h0 => ?_, rfl, hb.1, hb.2.1, ?_, ?_, hb.2.2.1, hb.2.2.2⟩
    · rw [h0] at h1; simp [absInt] at h1; omega
    · simp only [scaledOf]; omega
    · simp only [scaledOf]; omega

end Sys2Proof.Machine
end

