-- ==== Sys2Proof/Laws/Window.lean ====
section
/-! SUPPORT. The register map is what its offsets say (20_memory.md R60 to R62): each register is found at its own
offset, each offset found is that register's, and what a check of an access answers. -/

namespace Sys2Proof.Machine

theorem globalRegAt_offset (r : GlobalReg) : globalRegAt r.offset = some r := by cases r <;> rfl

theorem globalRegAt_none {off : Nat} (h : 0x24 ≤ off) : globalRegAt off = none := by
  unfold globalRegAt
  split <;> first | omega | rfl

theorem GlobalReg.offset_lt (r : GlobalReg) : r.offset < 0x24 ∧ r.offset % 4 = 0 := by cases r <;> decide

theorem PortReg.offset_lt (r : PortReg) : r.offset < 0xC0 ∧ r.offset % 4 = 0 := by
  cases r <;> simp [PortReg.offset] <;> omega

theorem portRegAt_offset (r : PortReg) : portRegAt r.offset = some r := by
  cases r with
  | res k => revert k; decide
  | snapA k => revert k; decide
  | snapB k => revert k; decide
  | _ => rfl

theorem portRegAt_none {low : Nat} (h : 0xC0 ≤ low) : portRegAt low = none := by
  unfold portRegAt
  split
  · rfl
  · rw [if_neg (by omega), dif_neg (by omega), dif_neg (by omega), dif_neg (by omega)]

/-- The registers of a region are found at their offsets and at no other. -/
theorem regAt_port {c : Config} {p low : Nat} (hp : p < c.numPorts) (hl : low < 0x100) :
    regAt c (0x100 * (p + 1) + low) = (portRegAt low).map (Reg.port p) := by
  have h1 : (0x100 * (p + 1) + low) / 256 = p + 1 := by omega
  have h2 : (0x100 * (p + 1) + low) % 256 = low := by omega
  unfold regAt
  rw [h1, h2, if_neg (by omega), Nat.add_sub_cancel, if_pos hp]

theorem regAt_global {c : Config} {off : Nat} (h : off < 0x100) : regAt c off = (globalRegAt off).map Reg.global := by
  unfold regAt
  rw [if_pos (by omega)]

/-- An offset of the region of a port that does not exist names no register. -/
theorem regAt_no_port {c : Config} {off : Nat} (h1 : 0x100 ≤ off) (h2 : c.numPorts < off / 0x100) :
    regAt c off = none := by
  unfold regAt
  rw [if_neg (by omega), if_neg (by omega)]

theorem regAt_port_hole {c : Config} {off : Nat} (h1 : 0x100 ≤ off) (h2 : 0xC0 ≤ off % 0x100) : regAt c off = none := by
  unfold regAt
  rw [if_neg (by omega), portRegAt_none h2]
  simp

theorem decodeAccess_of_regAt {c : Config} {off : Nat} {r : Reg} (h4 : off % 4 = 0) (h : regAt c off = some r) :
    decodeAccess c off 32 = .ok r := by
  unfold decodeAccess
  rw [if_neg (by simp [h4]), h]

/-- Why an access is answered with a bus error (20_memory.md R65). -/
theorem decodeAccess_error {c : Config} {off width : Nat} (h : width ≠ 32 ∨ off % 4 ≠ 0 ∨ regAt c off = none) :
    decodeAccess c off width = .error (.busError off) := by
  unfold decodeAccess
  split
  · rfl
  · rw [h.resolve_left (by simp_all) |>.resolve_left (by simp_all)]

theorem windowOffset_of_lt {c : Config} {off : Nat} (h : off < 4096) : windowOffset c (c.base + off) = some off := by
  unfold windowOffset
  rw [if_pos (by omega)]
  simp

theorem Reg.offset_lt {c : Config} (hc : configLegal c = true) {r : Reg}
    (h : match r with | .global _ => True | .port p _ => p < c.numPorts) : r.offset < 4096 ∧ r.offset % 4 = 0 := by
  have hl := (configLegal_iff c).1 hc
  cases r with
  | global r => have := r.offset_lt; simp only [Reg.offset]; omega
  | port p r => have := r.offset_lt; simp only [Reg.offset] at *; omega

/-- Every register of the window is found at its offset. -/
theorem regAt_offset {c : Config} {r : Reg} (h : match r with | .global _ => True | .port p _ => p < c.numPorts) :
    regAt c r.offset = some r := by
  cases r with
  | global r =>
    rw [regAt_global (by have := r.offset_lt; simp only [Reg.offset]; omega)]
    simp [Reg.offset, globalRegAt_offset]
  | port p r =>
    rw [Reg.offset, regAt_port h (by have := r.offset_lt; omega), portRegAt_offset]
    rfl

/-- A register is found at no offset but its own. -/
theorem portRegAt_some {low : Nat} {r : PortReg} (h : portRegAt low = some r) : low = r.offset := by
  unfold portRegAt at h
  split at h
  · cases h
  · split at h
    · have h8 : low / 4 < 8 := ‹_›
      have hm : low = 4 * (low / 4) := by omega
      generalize low / 4 = k at *
      interval_cases k <;> cases h <;> simpa [PortReg.offset] using hm
    · repeat' split at h
      all_goals cases h
      all_goals simp only [PortReg.offset]; omega

theorem globalRegAt_some {off : Nat} {r : GlobalReg} (h : globalRegAt off = some r) : off = r.offset := by
  unfold globalRegAt at h
  split at h <;> cases h <;> rfl

theorem regAt_some {c : Config} {off : Nat} {r : Reg} (h : regAt c off = some r) :
    off = r.offset ∧ (match r with | .global _ => True | .port p _ => p < c.numPorts) := by
  unfold regAt at h
  split at h
  · obtain ⟨g, hg, rfl⟩ := Option.map_eq_some_iff.1 h
    exact ⟨globalRegAt_some hg, trivial⟩
  · split at h
    · obtain ⟨g, hg, rfl⟩ := Option.map_eq_some_iff.1 h
      have := portRegAt_some hg
      exact ⟨by simp only [Reg.offset]; omega, ‹_›⟩
    · cases h

end Sys2Proof.Machine
end

