-- ==== Sys2Proof/Laws/Bus.lean ====
section
/-! SUPPORT. What a step whose next entry is a host access does, by the kind of access (20_memory.md R65 to R69,
R76). -/

namespace Sys2Proof.Machine

/-- A step is the first scheduled agent's move. -/
theorem step_next {s : State} {e : Event} {rest : List Event} (h : s.NextIs e rest) :
    step s = runEvent e (s.withSchedule rest) := by
  unfold step
  rw [if_pos h.1, h.2]

/-- A read at a register's offset is answered with its word. -/
theorem readResponse_reg {s : State} {r : Reg} (hc : configLegal s.cfg = true) (h : r.Mapped s.cfg) :
    readResponse s (s.cfg.base + r.offset) 32 = .data (readReg s r) := by
  have ho := Reg.offset_lt hc h
  simp only [readResponse, windowOffset_of_lt ho.1, decodeAccess_of_regAt ho.2 (regAt_offset h)]

theorem hostAccess_read {s : State} {r : Reg} (hc : configLegal s.cfg = true) (h : r.Mapped s.cfg) :
    hostAccess (.read (s.cfg.base + r.offset) 32) s = .next (s.respond (.data (readReg s r))) := by
  rw [hostAccess, readResponse_reg hc h]

theorem hostAccess_write {s : State} {r : Reg} (v : Word) (hc : configLegal s.cfg = true) (h : r.Mapped s.cfg) :
    hostAccess (.write (s.cfg.base + r.offset) 32 v) s = writeReg v (s.respond .written) r := by
  have ho := Reg.offset_lt hc h
  simp only [hostAccess, windowOffset_of_lt ho.1, decodeAccess_of_regAt ho.2 (regAt_offset h)]

/-- An access that is the wrong width, misaligned or unmapped is answered with a bus error and does nothing. -/
theorem hostAccess_error {s : State} {off width : Nat} (hl : off < 4096)
    (h : width ≠ 32 ∨ off % 4 ≠ 0 ∨ regAt s.cfg off = none) :
    hostAccess (.read (s.cfg.base + off) width) s = .next (s.respond (.failed (.busError off))) ∧
    ∀ v, hostAccess (.write (s.cfg.base + off) width v) s = .next (s.respond (.failed (.busError off))) := by
  simp only [hostAccess, readResponse, windowOffset_of_lt hl, decodeAccess_error h, implies_true, and_self]

/-- An access outside the window does nothing (notes/assumptions/4.md). -/
theorem hostAccess_outside {s : State} {addr : Nat} (width : Nat) (h : windowOffset s.cfg addr = none) :
    hostAccess (.read addr width) s = .next (s.respond .notSelected) ∧
    ∀ v, hostAccess (.write addr width v) s = .next (s.respond .notSelected) := by
  simp only [hostAccess, readResponse, h, implies_true, and_self]

/-- A write to port p's CMD register is a command (20_memory.md R69). -/
theorem hostAccess_command {s : State} {p : Nat} (w : Word) (hc : configLegal s.cfg = true) (hp : p < s.cfg.numPorts) :
    hostAccess (.write (s.cfg.base + 0x100 * (p + 1)) 32 w) s = writeCommand p w (s.respond .written) :=
  hostAccess_write (r := .port p .cmd) w hc hp

/-- Everything a write can be: answered without effect, a global register's ignored write, a command, or a write to
a plain register of a port in its region. -/
theorem hostAccess_write_cases (s : State) (addr width : Nat) (v : Word) :
    (∃ r, hostAccess (.write addr width v) s = .next (s.respond r)) ∨
    ∃ p r, p < s.cfg.numPorts ∧ addr = s.cfg.base + (Reg.port p r).offset ∧ width = 32 ∧
      hostAccess (.write addr width v) s = writeReg v (s.respond .written) (.port p r) := by
  cases hw : windowOffset s.cfg addr with
  | none => exact .inl ⟨_, (hostAccess_outside width hw).2 v⟩
  | some off =>
    simp only [hostAccess, hw]
    cases hd : decodeAccess s.cfg off width with
    | error f => exact .inl ⟨_, rfl⟩
    | ok r =>
      simp only [decodeAccess] at hd
      split at hd
      · cases hd
      · rename_i h4
        split at hd
        · rename_i r' hr
          cases hd
          cases r with
          | global g => exact .inl ⟨_, rfl⟩
          | port p r =>
            obtain ⟨h1, h2⟩ := regAt_some hr
            refine .inr ⟨p, r, h2, ?_, by simp_all, rfl⟩
            unfold windowOffset at hw
            split at hw
            · cases hw; omega
            · cases hw
        · cases hd

/-- PSTAT as the number of its fields (20_memory.md R62). -/
theorem pstatWord_eq (q : Port) : q.pstatWord =
    BitVec.ofNat 32 (q.busy.toNat + 2 * q.done.toNat + 4 * q.overrun.toNat + 16 * q.pstate.code.toNat + 256 * q.pwax.toNat) := by
  have h : ∀ (b d o : Bool) (s : BitVec 2) (x : BitVec 8),
      place (BitVec.ofBool b) 0 ||| place (BitVec.ofBool d) 1 ||| place (BitVec.ofBool o) 2 ||| place s 4 ||| place x 8 =
        BitVec.ofNat 32 (b.toNat + 2 * d.toNat + 4 * o.toNat + 16 * s.toNat + 256 * x.toNat) := by decide +kernel
  exact h ..

/-- PCTL as the number of its one field (20_memory.md R62). -/
theorem pctlWord_eq (q : Port) : q.pctlWord = BitVec.ofNat 32 q.doneIe.toNat := by
  unfold Port.pctlWord
  generalize q.doneIe = b
  revert b
  decide

/-- Each row of the written-out register map is the model's: the row's offset is its register's, and the row's word is
what its register reads as (20_memory.md R62). -/
theorem portMap_rows (q : Port) : ∀ row ∈ portMap q, row.2 = (row.1.offset, q.read row.1) := by
  simp only [portMap, List.forall_mem_append, List.forall_mem_map]
  refine ⟨⟨⟨?_, fun _ _ => rfl⟩, fun _ _ => rfl⟩, fun _ _ => rfl⟩
  simp [PortReg.offset, Port.read, pstatWord_eq, pctlWord_eq]

/-- A row of the written-out register map, by its parts. -/
theorem portMap_eq {q : Port} {r : PortReg} {off : Nat} {word : Word} (h : (r, off, word) ∈ portMap q) :
    off = r.offset ∧ word = q.read r :=
  Prod.mk.inj (portMap_rows q _ h)

/-- The written-out register map leaves no register of a port out. -/
theorem portMap_covers (q : Port) (r : PortReg) : ∃ off word, (r, off, word) ∈ portMap q := by
  cases r <;> simp [portMap]

/-- A write to a plain register of a port changes that port alone. -/
theorem writeReg_plain {p : Nat} {r : PortReg} (v : Word) (s : State) (h : r ≠ .cmd) :
    writeReg v s (.port p r) = .next (s.modPort p (fun q => q.writePlain v r)) := by
  cases r <;> first | rfl | exact absurd rfl h

end Sys2Proof.Machine
end

