-- ==== Sys2Proof/Laws/Commands.lean ====
section
/-! SUPPORT. What a command can do, said once: it answers a next state, writes the issuing port, and of the axes
writes mailboxes, FORCE and OUT only, each as its rule allows (10_state.md R47). -/

namespace Sys2Proof.Machine

/-- What a command can do to an axis. `m`: it writes mailboxes; `o`: it writes OUT. -/
structure AxisCommanded (m o : Bool) (x y : Axis) : Prop where
  frame : y = { x with mb := y.mb, force := y.force, out := y.out }
  mail : y.mb = x.mb ∨ (m = true ∧ y.mb.pend = true)
  force : y.force = x.force ∨ (m = true ∧ x.reload = 0#16 ∧ y.force = true)
  out : y.out = x.out ∨ (o = true ∧ y.out = 0#4)
  inv : ∀ c, AxisInv c x → AxisInv c y

theorem AxisCommanded.refl (m o : Bool) (x : Axis) : AxisCommanded m o x x :=
  ⟨rfl, .inl rfl, .inl rfl, .inl rfl, fun _ h => h⟩

theorem AxisCommanded.trans {m o : Bool} {x y z : Axis} (h1 : AxisCommanded m o x y) (h2 : AxisCommanded m o y z) :
    AxisCommanded m o x z where
  frame := by rw [h2.frame, h1.frame]
  mail := by
    rcases h2.mail with h | h
    · rcases h1.mail with h' | h'
      · exact .inl (h.trans h')
      · exact .inr ⟨h'.1, by rw [h]; exact h'.2⟩
    · exact .inr h
  force := by
    have hr : y.reload = x.reload := by rw [h1.frame]
    rcases h2.force with h | h
    · rw [h]; exact h1.force
    · exact .inr ⟨h.1, by rw [← hr]; exact h.2.1, h.2.2⟩
  out := by
    rcases h2.out with h | h
    · rw [h]; exact h1.out
    · exact .inr h
  inv := fun c h => h2.inv c (h1.inv c h)

/-- The mailbox write of counts in range (41_axis_controller.md R111). -/
theorem AxisCommanded.mbWrite (o : Bool) (x : Axis) (t : Int) {acc n : Nat}
    (ha : ∀ c, AxisInv c x → acc ≤ 2147483648) (hn : n ≤ 2147483648) :
    AxisCommanded true o x (x.mbWrite t acc n) where
  frame := rfl
  mail := .inr ⟨rfl, rfl⟩
  force := by
    cases hf : x.force
    · by_cases hr : x.reload = 0#16
      · exact .inr ⟨rfl, hr, by simp [Axis.mbWrite, hr]⟩
      · exact .inl (by simp [Axis.mbWrite, hf, hr])
    · exact .inl (by simp [Axis.mbWrite, hf])
  out := .inl rfl
  inv := by
    intro c hx
    have ha := ha c hx
    obtain ⟨h1, h2, ⟨a1, a2, _, _, a5, a6, _, a8⟩, h4⟩ := hx
    have hn0 : n ≠ 0 ↔ BitVec.ofNat 32 n ≠ 0#32 := by
      rw [ne_eq, ne_eq, BitVec.toNat_eq]; simp; omega
    refine ⟨h1, h2, ⟨a1, a2, ?_, ?_, a5, a6, ?_, a8⟩, ?_⟩
    · simp [Axis.mbWrite]; omega
    · simp [Axis.mbWrite]; omega
    · simp [Axis.mbWrite, hn0]
    · intro h
      rw [Axis.mbWrite_force, Bool.or_eq_true, decide_eq_true_eq] at h
      exact h.elim h4 id

theorem AxisCommanded.phasesOff (m : Bool) (x : Axis) : AxisCommanded m true x { x with out := 0#4 } :=
  ⟨rfl, .inl rfl, .inl rfl, .inr ⟨rfl, rfl⟩, fun _ h => h⟩

/-- What a command issued by port `p` can do to the state. -/
structure Commanded (m o : Bool) (p : Nat) (s t : State) : Prop where
  cfg : t.cfg = s.cfg
  issuer : t.issuer = s.issuer
  schedule : t.schedule = s.schedule
  resp : t.resp = s.resp
  programs : t.programs = s.programs
  axes : t.axes.length = s.axes.length
  ports : t.ports.length = s.ports.length
  port : ∀ q, q ≠ p → t.port q = s.port q
  axis : ∀ a, AxisCommanded m o (s.axis a) (t.axis a)

theorem Commanded.refl (m o : Bool) (p : Nat) (s : State) : Commanded m o p s s :=
  ⟨rfl, rfl, rfl, rfl, rfl, rfl, rfl, fun _ _ => rfl, fun _ => .refl ..⟩

theorem Commanded.trans {m o : Bool} {p : Nat} {s t u : State} (h1 : Commanded m o p s t) (h2 : Commanded m o p t u) :
    Commanded m o p s u where
  cfg := h2.cfg.trans h1.cfg
  issuer := h2.issuer.trans h1.issuer
  schedule := h2.schedule.trans h1.schedule
  resp := h2.resp.trans h1.resp
  programs := h2.programs.trans h1.programs
  axes := h2.axes.trans h1.axes
  ports := h2.ports.trans h1.ports
  port := fun q hq => (h2.port q hq).trans (h1.port q hq)
  axis := fun a => (h1.axis a).trans (h2.axis a)

theorem Commanded.modPort (m o : Bool) (p : Nat) (s : State) (f : Port → Port) : Commanded m o p s (s.modPort p f) where
  cfg := rfl
  issuer := rfl
  schedule := rfl
  resp := rfl
  programs := rfl
  axes := rfl
  ports := by simp
  port := fun q hq => State.port_modPort_ne hq f
  axis := fun _ => .refl ..

theorem Commanded.complete (m o : Bool) (p : Nat) (code : ResultCode) (s : State) :
    Commanded m o p s (complete p code s) := .modPort ..

theorem Commanded.modAxis {m o : Bool} (p : Nat) {a : Nat} {s : State} {f : Axis → Axis}
    (h : AxisCommanded m o (s.axis a) (f (s.axis a))) : Commanded m o p s (s.modAxis a f) where
  cfg := rfl
  issuer := rfl
  schedule := rfl
  resp := rfl
  programs := rfl
  axes := by simp
  ports := rfl
  port := fun _ _ => rfl
  axis := fun b => by
    rw [State.axis_modAxis]
    split
    · rename_i hb; rw [hb.1]; exact h
    · exact .refl ..

theorem Commanded.mbWrite (o : Bool) (p a : Nat) (t : Int) {acc n : Nat} {s : State}
    (ha : ∀ c, AxisInv c (s.axis a) → acc ≤ 2147483648) (hn : n ≤ 2147483648) :
    Commanded true o p s (mbWrite a t acc n s) := .modAxis p (.mbWrite o _ t ha hn)

theorem Commanded.goBody (o : Bool) (p a : Nat) (v : Int) {acc n : Int} (s : State)
    (ha : absInt acc ≤ 2147483648) (hn : absInt n ≤ 2147483648) : Commanded true o p s (goBody a v acc n s) :=
  .mbWrite o p a _ (fun _ _ => ha) (by rw [normalise_count]; exact hn)

theorem Commanded.stopBody (o : Bool) (p a : Nat) (hard : Bool) (s : State) :
    Commanded true o p s (stopBody a hard s) :=
  .mbWrite o p a _ (fun _ h => by have := h.2.2.1.1; split <;> omega) (Nat.zero_le _)

theorem Commanded.phasesOff (m : Bool) (p a : Nat) (s : State) : Commanded m true p s (phasesOff a s) := by
  unfold Machine.phasesOff
  exact .modAxis p (.phasesOff ..)

theorem Commanded.idleBody (p a : Nat) (s : State) : Commanded true true p s (idleBody a s) :=
  (Commanded.mbWrite true p a 0 (acc := 0) (n := 0) (fun _ _ => Nat.zero_le _) (Nat.zero_le _)).trans
    (.phasesOff ..)

theorem Commanded.wheelGo (o : Bool) (p a : Nat) (c : Config) (v x d w : Int) (s : State) :
    Commanded true o p s (wheelGo a (wheelCommand c v x d w) s) :=
  .goBody o p a _ s
    (by have := sat32_bounds (tdiv (x * w * c.stepsPerM) (v * 65536)); simp only [wheelCommand, absInt]; omega)
    (by have := sat32_bounds (tdiv (d * w * c.stepsPerM) (v * 4294967296)); simp only [wheelCommand, absInt]; omega)

theorem Commanded.waitBeginLeft (m o : Bool) (p : Nat) (s : State) : Commanded m o p s (waitBeginLeft p s) := by
  unfold Machine.waitBeginLeft
  split
  · exact .modPort ..
  · exact .complete ..

theorem Commanded.waitBeginRight (m o : Bool) (p : Nat) (s : State) : Commanded m o p s (waitBeginRight p s) := by
  unfold Machine.waitBeginRight
  split
  · exact .modPort ..
  · exact .waitBeginLeft ..

/-- Every command answers a next state, and this is all it can have done to reach it. -/
theorem exec_commanded (i : Instr) (s : State) :
    ∃ t, exec i s = .next t ∧ Commanded (writesMailbox i) (writesOut i) s.issuer s t := by
  cases i with
  | go a =>
    simp only [exec, execGo]
    split
    · exact ⟨_, rfl, (Commanded.goBody _ _ _ _ s (absInt_s32_le _) (absInt_s32_le _)).trans (.complete ..)⟩
    · exact ⟨_, rfl, .complete ..⟩
  | stop a hard =>
    simp only [exec, execStop]
    split
    · exact ⟨_, rfl, (Commanded.stopBody ..).trans (.complete ..)⟩
    · exact ⟨_, rfl, .complete ..⟩
  | idle a =>
    simp only [exec, execIdle]
    split
    · exact ⟨_, rfl, (Commanded.idleBody ..).trans (.complete ..)⟩
    · exact ⟨_, rfl, .complete ..⟩
  | wait a =>
    simp only [exec, execWait]
    split
    · split
      · exact ⟨_, rfl, .modPort ..⟩
      · exact ⟨_, rfl, .complete ..⟩
    · exact ⟨_, rfl, .complete ..⟩
  | status a =>
    simp only [exec, execStatus]
    split
    · exact ⟨_, rfl, (Commanded.modPort ..).trans (.complete ..)⟩
    · exact ⟨_, rfl, .complete ..⟩
  | scale => exact ⟨_, rfl, (Commanded.modPort ..).trans (.complete ..)⟩
  | pgo =>
    simp only [exec, execPgo]
    split
    · exact ⟨_, rfl, .complete ..⟩
    · exact ⟨_, rfl, ((Commanded.wheelGo ..).trans ((Commanded.wheelGo ..).trans (.modPort ..))).trans
        (.waitBeginRight ..)⟩
  | pstop hard => exact ⟨_, rfl, (Commanded.stopBody ..).trans ((Commanded.stopBody ..).trans (.complete ..))⟩
  | pidle => exact ⟨_, rfl, (Commanded.idleBody ..).trans ((Commanded.idleBody ..).trans (.complete ..))⟩
  | pstatus => exact ⟨_, rfl, (Commanded.modPort ..).trans (.complete ..)⟩

end Sys2Proof.Machine
end

