-- ==== Sys2Proof/Laws/Tick.lean ====
section
/-! SUPPORT. The paths of a TICK, said once, what its parts keep, and that it keeps the invariant of its axis
(41_axis_controller.md R130 to R139, 10_state.md R45, R46). -/

namespace Sys2Proof.Machine

/-- The axis a tick works on after the force is consumed and the mailbox loaded. -/
abbrev Axis.loaded (c : Config) (x : Axis) : Axis := ({ x with force := false } : Axis).tickLoad c

/-- The axis at a step boundary, its period taken off the accumulator and ramped. -/
abbrev Axis.ramped (c : Config) (x : Axis) : Axis :=
  ({ x with accum := x.accumNext - x.period.setWidth 64 } : Axis).ramp c

theorem tickEnabled_iff {x : Axis} : x.tickEnabled = true ↔ x.force = true ∨ x.reload ≠ 0#16 := by
  rw [Axis.tickEnabled, Bool.or_eq_true, decide_eq_true_eq]

theorem subTick_def {x : Axis} :
    x.subTick = true ↔ x.accum + x.reload.setWidth 64 < x.period.setWidth 64 := decide_eq_true_iff

/-- The four ways a tick ends. -/
theorem tick_cases (c : Config) (x : Axis) :
    ((x.loaded c).period = 0#32 ∧ x.tick c = { x.loaded c with last := .stopped }) ∨
    ((x.loaded c).period ≠ 0#32 ∧ (x.loaded c).subTick = true ∧
      x.tick c = { x.loaded c with accum := (x.loaded c).accumNext, last := .waiting }) ∨
    ((x.loaded c).period ≠ 0#32 ∧ (x.loaded c).subTick = false ∧ ((x.loaded c).ramped c).vel = 0#32 ∧
      x.tick c = { (x.loaded c).ramped c with last := .stopped }) ∨
    ((x.loaded c).period ≠ 0#32 ∧ (x.loaded c).subTick = false ∧ ((x.loaded c).ramped c).vel ≠ 0#32 ∧
      x.tick c = { (((x.loaded c).ramped c).stepCount c).phaseOut c with last := .moving }) := by
  simp only [Axis.tick, Axis.afterLoad]
  split
  · exact .inl ⟨‹_›, rfl⟩
  · split
    · exact .inr (.inl ⟨‹_›, ‹_›, rfl⟩)
    · simp only [Axis.boundary]
      split
      · exact .inr (.inr (.inl ⟨‹_›, Bool.eq_false_iff.2 ‹¬ _ = true›, ‹_›, rfl⟩))
      · exact .inr (.inr (.inr ⟨‹_›, Bool.eq_false_iff.2 ‹¬ _ = true›, ‹_›, rfl⟩))

/-! ### What the parts leave alone -/

theorem loaded_eq (c : Config) (x : Axis) :
    (x.mb.pend = false ∧ x.loaded c = { x with force := false }) ∨
    (x.mb.pend = true ∧ x.loaded c = ({ x with force := false } : Axis).load c) := by
  unfold Axis.loaded Axis.tickLoad
  cases h : x.mb.pend
  · exact .inl ⟨rfl, rfl⟩
  · exact .inr ⟨rfl, rfl⟩

/-! A ramp changes only what the scaler derives. -/

@[simp] theorem Axis.ramp_tgt (c : Config) (x : Axis) : (x.ramp c).tgt = x.tgt := by unfold Axis.ramp; split <;> rfl
@[simp] theorem Axis.ramp_accel (c : Config) (x : Axis) : (x.ramp c).accel = x.accel := by unfold Axis.ramp; split <;> rfl
@[simp] theorem Axis.ramp_total (c : Config) (x : Axis) : (x.ramp c).total = x.total := by unfold Axis.ramp; split <;> rfl
@[simp] theorem Axis.ramp_sig (c : Config) (x : Axis) : (x.ramp c).sig = x.sig := by unfold Axis.ramp; split <;> rfl
@[simp] theorem Axis.ramp_accum (c : Config) (x : Axis) : (x.ramp c).accum = x.accum := by unfold Axis.ramp; split <;> rfl
@[simp] theorem Axis.ramp_rem (c : Config) (x : Axis) : (x.ramp c).rem = x.rem := by unfold Axis.ramp; split <;> rfl
@[simp] theorem Axis.ramp_th1 (c : Config) (x : Axis) : (x.ramp c).th1 = x.th1 := by unfold Axis.ramp; split <;> rfl
@[simp] theorem Axis.ramp_th2 (c : Config) (x : Axis) : (x.ramp c).th2 = x.th2 := by unfold Axis.ramp; split <;> rfl
@[simp] theorem Axis.ramp_phase (c : Config) (x : Axis) : (x.ramp c).phase = x.phase := by unfold Axis.ramp; split <;> rfl
@[simp] theorem Axis.ramp_out (c : Config) (x : Axis) : (x.ramp c).out = x.out := by unfold Axis.ramp; split <;> rfl
@[simp] theorem Axis.ramp_last (c : Config) (x : Axis) : (x.ramp c).last = x.last := by unfold Axis.ramp; split <;> rfl
@[simp] theorem Axis.ramp_mb (c : Config) (x : Axis) : (x.ramp c).mb = x.mb := by unfold Axis.ramp; split <;> rfl
@[simp] theorem Axis.ramp_sem (c : Config) (x : Axis) : (x.ramp c).sem = x.sem := by unfold Axis.ramp; split <;> rfl
@[simp] theorem Axis.ramp_force (c : Config) (x : Axis) : (x.ramp c).force = x.force := by unfold Axis.ramp; split <;> rfl
@[simp] theorem Axis.ramp_tcnt (c : Config) (x : Axis) : (x.ramp c).tcnt = x.tcnt := by unfold Axis.ramp; split <;> rfl

/-! A step count changes only REM, the target, the semaphore and what a finished sequence sets to 0. -/

@[simp] theorem Axis.stepCount_accel (c : Config) (x : Axis) : (x.stepCount c).accel = x.accel := by unfold Axis.stepCount; split <;> [rfl; (split <;> rfl)]
@[simp] theorem Axis.stepCount_total (c : Config) (x : Axis) : (x.stepCount c).total = x.total := by unfold Axis.stepCount; split <;> [rfl; (split <;> rfl)]
@[simp] theorem Axis.stepCount_sig (c : Config) (x : Axis) : (x.stepCount c).sig = x.sig := by unfold Axis.stepCount; split <;> [rfl; (split <;> rfl)]
@[simp] theorem Axis.stepCount_accum (c : Config) (x : Axis) : (x.stepCount c).accum = x.accum := by unfold Axis.stepCount; split <;> [rfl; (split <;> rfl)]
@[simp] theorem Axis.stepCount_th1 (c : Config) (x : Axis) : (x.stepCount c).th1 = x.th1 := by unfold Axis.stepCount; split <;> [rfl; (split <;> rfl)]
@[simp] theorem Axis.stepCount_th2 (c : Config) (x : Axis) : (x.stepCount c).th2 = x.th2 := by unfold Axis.stepCount; split <;> [rfl; (split <;> rfl)]
@[simp] theorem Axis.stepCount_phase (c : Config) (x : Axis) : (x.stepCount c).phase = x.phase := by unfold Axis.stepCount; split <;> [rfl; (split <;> rfl)]
@[simp] theorem Axis.stepCount_out (c : Config) (x : Axis) : (x.stepCount c).out = x.out := by unfold Axis.stepCount; split <;> [rfl; (split <;> rfl)]
@[simp] theorem Axis.stepCount_last (c : Config) (x : Axis) : (x.stepCount c).last = x.last := by unfold Axis.stepCount; split <;> [rfl; (split <;> rfl)]
@[simp] theorem Axis.stepCount_mb (c : Config) (x : Axis) : (x.stepCount c).mb = x.mb := by unfold Axis.stepCount; split <;> [rfl; (split <;> rfl)]
@[simp] theorem Axis.stepCount_force (c : Config) (x : Axis) : (x.stepCount c).force = x.force := by unfold Axis.stepCount; split <;> [rfl; (split <;> rfl)]
@[simp] theorem Axis.stepCount_tcnt (c : Config) (x : Axis) : (x.stepCount c).tcnt = x.tcnt := by unfold Axis.stepCount; split <;> [rfl; (split <;> rfl)]

/-- A tick clears the force and the pending flag, keeps the mailbox's values and leaves the timer channel alone. -/
theorem tick_frame (c : Config) (x : Axis) :
    (x.tick c).force = false ∧ (x.tick c).mb = { x.mb with pend := false } ∧ (x.tick c).tcnt = x.tcnt := by
  have hl : (x.loaded c).force = false ∧ (x.loaded c).mb = { x.mb with pend := false } ∧ (x.loaded c).tcnt = x.tcnt := by
    rcases loaded_eq c x with ⟨h1, h2⟩ | ⟨h1, h2⟩
    · rw [h2]; exact ⟨rfl, by cases hm : x.mb; simp_all, rfl⟩
    · rw [h2]; exact ⟨rfl, rfl, rfl⟩
  rcases tick_cases c x with ⟨-, h⟩ | ⟨-, -, h⟩ | ⟨-, -, -, h⟩ | ⟨-, -, -, h⟩
  · rw [h]; exact hl
  · rw [h]; exact hl
  · rw [h]; simpa using hl
  · rw [h]; simpa using hl

/-- A tick never takes a semaphore (10_state.md R47). -/
theorem tick_sem {c : Config} {x : Axis} (h : x.sem = true) : (x.tick c).sem = true := by
  have hl : (x.loaded c).sem = true := by
    rcases loaded_eq c x with ⟨-, e⟩ | ⟨-, e⟩ <;> rw [e] <;> exact h
  have hk : ∀ y : Axis, y.sem = true → (y.stepCount c).sem = true := by
    intro y hy
    unfold Axis.stepCount
    split
    · exact hy
    · split
      · simp [hy]
      · exact hy
  rcases tick_cases c x with ⟨-, e⟩ | ⟨-, -, e⟩ | ⟨-, -, -, e⟩ | ⟨-, -, -, e⟩ <;> rw [e]
  · exact hl
  · exact hl
  · simpa using hl
  · exact hk _ (by simpa using hl)

/-! ### Ranges -/

theorem sign_cases (v : Int) : (v < 0 ∧ sign v = -1) ∨ (v = 0 ∧ sign v = 0) ∨ (0 < v ∧ sign v = 1) := by
  unfold sign
  rcases lt_trichotomy v 0 with h | h | h
  · exact .inl ⟨h, Int.sign_eq_neg_one_of_neg h⟩
  · exact .inr (.inl ⟨h, by rw [h]; rfl⟩)
  · exact .inr (.inr ⟨h, Int.sign_eq_one_of_pos h⟩)

theorem floorSpeed_le {t : Int} (h : -2147483648 ≤ t ∧ t ≤ 2147483647) : 65536 ≤ floorSpeed t ∧ floorSpeed t ≤ 21474836 := by
  unfold floorSpeed one absInt
  omega

/-- A load hands the scaler a velocity of the signed range. -/
theorem loadVelocity_bounds {v t : Int} (acc : Nat) (hv : -2147483648 ≤ v ∧ v ≤ 2147483647)
    (ht : -2147483648 ≤ t ∧ t ≤ 2147483647) :
    -2147483648 ≤ loadVelocity v t acc ∧ loadVelocity v t acc ≤ 2147483647 := by
  have hf := floorSpeed_le ht
  unfold loadVelocity
  split
  · exact ht
  · split
    · rcases sign_cases t with h | h | h <;> rw [h.2] <;> omega
    · exact hv

/-- The velocity one ramp increment toward the target, no further than the target (41_axis_controller.md R134). -/
def rampMove (v t : Int) (dv : Nat) : Int := if v < t then min t (v + dv) else max t (v - dv)

/-- The cases of the ramp's velocity (41_axis_controller.md R134). -/
theorem rampVelocity_eq (c : Config) {v t : Int} (acc period rem : Nat) (hne : v ≠ t) :
    rampVelocity c v t acc period rem =
      if acc = 0 then t
      else if t ≠ 0 then
        if absInt (rampMove v t (acc * period / c.clkHz)) < floorSpeed t then sign t * floorSpeed t
        else rampMove v t (acc * period / c.clkHz)
      else if rem ≠ 0 ∧ absInt (rampMove v t (acc * period / c.clkHz)) < one then sign v * one
      else rampMove v t (acc * period / c.clkHz) := by
  have key : ∀ dv : Nat, (if (sign (t - v) > 0 ∧ v + sign (t - v) * dv > t) ∨ (sign (t - v) < 0 ∧ v + sign (t - v) * dv < t)
      then t else v + sign (t - v) * dv) = rampMove v t dv := by
    intro dv
    unfold rampMove
    rcases sign_cases (t - v) with h | h | h
    · rw [h.2, if_neg (show ¬ v < t by omega)]; split <;> omega
    · omega
    · rw [h.2, if_pos (show v < t by omega)]; split <;> omega
  unfold rampVelocity
  split
  · rfl
  · simp only [key]

theorem rampMove_between (v t : Int) (dv : Nat) :
    (v < t → v ≤ rampMove v t dv ∧ rampMove v t dv ≤ t) ∧ (t ≤ v → t ≤ rampMove v t dv ∧ rampMove v t dv ≤ v) := by
  unfold rampMove
  constructor <;> intro h
  · rw [if_pos h]; omega
  · rw [if_neg (by omega)]; omega

/-- A ramp hands the scaler a velocity of the signed range. -/
theorem rampVelocity_bounds (c : Config) {v t : Int} (acc period rem : Nat) (hne : v ≠ t)
    (hv : -2147483648 ≤ v ∧ v ≤ 2147483647) (ht : -2147483648 ≤ t ∧ t ≤ 2147483647) :
    -2147483648 ≤ rampVelocity c v t acc period rem ∧ rampVelocity c v t acc period rem ≤ 2147483647 := by
  have hf := floorSpeed_le ht
  have hm := rampMove_between v t (acc * period / c.clkHz)
  have hm' : -2147483648 ≤ rampMove v t (acc * period / c.clkHz) ∧ rampMove v t (acc * period / c.clkHz) ≤ 2147483647 := by
    rcases lt_or_ge v t with h | h
    · have := hm.1 h; omega
    · have := hm.2 h; omega
  rw [rampVelocity_eq c acc period rem hne]
  split
  · exact ht
  · split
    · split
      · rcases sign_cases t with h | h | h <;> rw [h.2] <;> omega
      · exact hm'
    · split
      · rcases sign_cases v with h | h | h <;> rw [h.2] <;> simp only [one] <;> omega
      · exact hm'

/-! ### Scale consistency and the accumulator bound -/

/-- A scaled velocity of the signed range leaves a consistent axis (10_state.md R45). -/
theorem scaleConsistent_setScaled {c : Config} (hc : configLegal c = true) (x : Axis) {v : Int}
    (hv : -2147483648 ≤ v ∧ v ≤ 2147483647) : ScaleConsistent c (x.setScaled (scale c v)) := by
  rcases scale_range hc v with h | ⟨h0, h1, h2, h3, h4, h5, h6, h7⟩
  · rw [h]; simp [ScaleConsistent, Axis.setScaled, Scaled.off, u32]
  · have n1 : BitVec.ofNat 32 (scale c v).period ≠ 0#32 := by
      rw [ne_eq, BitVec.toNat_eq]; simp; omega
    have n2 : BitVec.ofNat 16 (scale c v).reload ≠ 0#16 := by
      rw [ne_eq, BitVec.toNat_eq]; simp; omega
    have n3 : BitVec.ofNat 16 (scale c v).mult ≠ 0#16 := by
      rw [ne_eq, BitVec.toNat_eq]; simp; omega
    have n0 : u32 (scale c v).vel ≠ 0#32 := by
      intro h
      have := s32_u32 hv
      rw [h1] at h
      rw [h] at this
      exact h0 this.symm
    refine ⟨⟨fun h => absurd h n0, fun h => absurd h n1⟩, ⟨fun h => absurd h n1, fun h => absurd h n2⟩,
      ⟨fun h => absurd h n2, fun h => absurd h n3⟩, fun _ => ?_⟩
    simp only [Axis.setScaled_vel, Axis.setScaled_reload, Axis.setScaled_period, Axis.setScaled_mult, h1, s32_u32 hv,
      BitVec.toNat_ofNat]
    rw [Nat.mod_eq_of_lt (by omega), Nat.mod_eq_of_lt (by omega), Nat.mod_eq_of_lt (by omega)]
    cases hs : scale c v
    rw [hs] at h1
    simp_all

/-- Consistency looks at four fields. -/
theorem scaleConsistent_congr {c : Config} {x y : Axis} (h : ScaleConsistent c x) (h1 : y.vel = x.vel)
    (h2 : y.period = x.period) (h3 : y.reload = x.reload) (h4 : y.mult = x.mult) : ScaleConsistent c y := by
  unfold ScaleConsistent
  rw [h1, h2, h3, h4]
  exact h

theorem scaleConsistent_loaded {c : Config} (hc : configLegal c = true) {x : Axis} (h : ScaleConsistent c x) :
    ScaleConsistent c (x.loaded c) := by
  rcases loaded_eq c x with ⟨-, h2⟩ | ⟨-, h2⟩
  · rw [h2]; exact h
  · rw [h2]
    exact scaleConsistent_congr
      (scaleConsistent_setScaled hc x (loadVelocity_bounds x.mb.acc.toNat (s32_bounds x.vel) (s32_bounds x.mb.tgt)))
      rfl rfl rfl rfl

theorem scaleConsistent_ramp {c : Config} (hc : configLegal c = true) {x : Axis} (h : ScaleConsistent c x) :
    ScaleConsistent c (x.ramp c) := by
  unfold Axis.ramp
  split
  · exact h
  · rename_i hne
    exact scaleConsistent_setScaled hc x
      (rampVelocity_bounds c _ _ _ (fun he => hne (s32_inj.1 he)) (s32_bounds _) (s32_bounds _))

theorem scaleConsistent_stepCount {c : Config} (hc : configLegal c = true) {x : Axis} (h : ScaleConsistent c x) :
    ScaleConsistent c (x.stepCount c) := by
  unfold Axis.stepCount
  split
  · exact h
  · split
    · exact scaleConsistent_congr (scaleConsistent_setScaled hc x (v := 0) (by omega)) rfl rfl rfl rfl
    · exact scaleConsistent_congr h rfl rfl rfl rfl

theorem scaleConsistent_tick {c : Config} (hc : configLegal c = true) {x : Axis} (h : ScaleConsistent c x) :
    ScaleConsistent c (x.tick c) := by
  have hl := scaleConsistent_loaded hc h
  have hr : ScaleConsistent c ((x.loaded c).ramped c) :=
    scaleConsistent_ramp hc (scaleConsistent_congr hl rfl rfl rfl rfl)
  rcases tick_cases c x with ⟨-, h⟩ | ⟨-, -, h⟩ | ⟨-, -, -, h⟩ | ⟨-, -, -, h⟩
  · rw [h]; exact hl
  · rw [h]; exact hl
  · rw [h]; exact hr
  · rw [h]; exact scaleConsistent_congr (scaleConsistent_stepCount hc hr) rfl rfl rfl rfl

/-- A consistent axis reloads its timer with no more than its period. -/
theorem ScaleConsistent.reload_le {c : Config} {x : Axis} (h : ScaleConsistent c x) :
    x.reload.toNat ≤ x.period.toNat := by
  by_cases hp : x.period = 0#32
  · rw [h.2.1.1 hp]; simp
  · have he := h.2.2.2 hp
    rcases scale_cases c (s32 x.vel) with h1 | ⟨_, _, h1⟩
    · rw [h1] at he
      have := congrArg Scaled.reload he
      simp only [Scaled.off] at this
      omega
    · have e1 := congrArg Scaled.reload he
      have e2 := congrArg Scaled.period he
      rw [h1, scaledOf_reload] at e1
      rw [h1] at e2
      simp only [scaledOf] at e1 e2
      omega

/-- The sum `Accumulate` compares, as a number. -/
theorem accumNext_toNat {x : Axis} (h : AccumBounded x) : x.accumNext.toNat = x.accum.toNat + x.reload.toNat := by
  unfold AccumBounded at h
  have := x.reload.isLt
  unfold Axis.accumNext
  rw [BitVec.toNat_add, BitVec.toNat_setWidth]
  omega

theorem subTick_iff {x : Axis} (h : AccumBounded x) :
    x.subTick = true ↔ x.accum.toNat + x.reload.toNat < x.period.toNat := by
  have hp := x.period.isLt
  rw [Axis.subTick, decide_eq_true_eq, BitVec.lt_def, accumNext_toNat h, BitVec.toNat_setWidth]
  omega

/-- The accumulator after the period is taken off, as a number. -/
theorem accum_boundary {x : Axis} (h : AccumBounded x) (hs : x.subTick = false) :
    (x.accumNext - x.period.setWidth 64).toNat = x.accum.toNat + x.reload.toNat - x.period.toNat := by
  have hp := x.period.isLt
  have hr := x.reload.isLt
  have hn : ¬ x.accum.toNat + x.reload.toNat < x.period.toNat := fun hl => by
    rw [(subTick_iff h).2 hl] at hs; cases hs
  unfold AccumBounded at h
  rw [BitVec.toNat_sub, accumNext_toNat h, BitVec.toNat_setWidth]
  omega

theorem accumBounded_tick {c : Config} (hc : configLegal c = true) {x : Axis} (h : ScaleConsistent c x)
    (ha : AccumBounded x) : AccumBounded (x.tick c) := by
  have hl := scaleConsistent_loaded hc h
  have hb : AccumBounded (x.loaded c) := by
    rcases loaded_eq c x with ⟨-, h2⟩ | ⟨-, h2⟩
    · rw [h2]; exact ha
    · rw [h2]
      have := x.period.isLt
      simp only [AccumBounded, Axis.load_accum, BitVec.toNat_setWidth]
      omega
  have hle := hl.reload_le
  rcases tick_cases c x with ⟨-, h⟩ | ⟨-, hs, h⟩ | ⟨-, hs, -, h⟩ | ⟨-, hs, -, h⟩
  · rw [h]; exact hb
  · have := (subTick_iff hb).1 hs
    have := accumNext_toNat hb
    have := (x.loaded c).period.isLt
    rw [h]
    simp only [AccumBounded]
    omega
  · have := accum_boundary hb hs
    rw [h]
    simp only [AccumBounded, Axis.ramp_accum] at hb ⊢
    omega
  · have := accum_boundary hb hs
    rw [h]
    simp only [AccumBounded, Axis.phaseOut_accum, Axis.stepCount_accum, Axis.ramp_accum] at hb ⊢
    omega

/-! ### Counts -/

/-- A step count never raises REM. -/
theorem stepCount_rem (c : Config) (x : Axis) :
    (x.rem = 0#32 ∧ (x.stepCount c).rem = 0#32) ∨
    (x.rem ≠ 0#32 ∧ (x.stepCount c).rem.toNat + 1 = x.rem.toNat) := by
  by_cases h : x.rem = 0#32
  · exact .inl ⟨h, by rw [Axis.stepCount, if_pos h]; exact h⟩
  · refine .inr ⟨h, ?_⟩
    have h0 : x.rem.toNat ≠ 0 := fun h0 => h (BitVec.eq_of_toNat_eq h0)
    have hl := x.rem.isLt
    have e : (x.stepCount c).rem = x.rem - 1#32 := by
      rw [Axis.stepCount, if_neg h]
      split <;> rfl
    rw [e, BitVec.toNat_sub]
    simp only [BitVec.toNat_ofNat]
    omega

theorem countsInRange_tick {c : Config} (hc : configLegal c = true) {x : Axis} (h : CountsInRange x) :
    CountsInRange (x.tick c) := by
  obtain ⟨h1, h2, h3, h4, h5, h6, h7, h8⟩ := h
  have hm : ∀ v, (BitVec.ofNat 16 (scale c v).mult).toNat ≤ 255 := by
    intro v
    rcases scale_range hc v with h | h
    · rw [h]; decide
    · simp only [BitVec.toNat_ofNat]; omega
  have hl : CountsInRange (x.loaded c) := by
    rcases loaded_eq c x with ⟨-, e⟩ | ⟨-, e⟩
    · rw [e]; exact ⟨h1, h2, h3, h4, h5, h6, h7, h8⟩
    · rw [e]; exact ⟨h3, h4, h3, h4, hm _, h7, h7, le_refl _⟩
  have hr : ∀ y : Axis, CountsInRange y → CountsInRange (y.ramp c) := by
    rintro y ⟨a1, a2, a3, a4, a5, a6, a7, a8⟩
    unfold Axis.ramp
    split
    · exact ⟨a1, a2, a3, a4, a5, a6, a7, a8⟩
    · exact ⟨a1, a2, a3, a4, hm _, a6, a7, a8⟩
  have hk : ∀ y : Axis, CountsInRange y → CountsInRange (y.stepCount c) := by
    rintro y ⟨a1, a2, a3, a4, a5, a6, a7, a8⟩
    have hrem : (y.stepCount c).rem.toNat ≤ y.total.toNat := by
      rcases stepCount_rem c y with ⟨_, h⟩ | ⟨_, h⟩
      · rw [h]; simp
      · omega
    have hmul : (y.stepCount c).mult.toNat ≤ 255 := by
      unfold Axis.stepCount
      split
      · exact a5
      · split
        · exact hm 0
        · exact a5
    simp only [CountsInRange, Axis.stepCount_accel, Axis.stepCount_total, Axis.stepCount_mb, Axis.stepCount_sig]
    exact ⟨a1, a2, a3, a4, hmul, a6, a7, hrem⟩
  have hR : CountsInRange ((x.loaded c).ramped c) := hr { x.loaded c with accum := _ } hl
  rcases tick_cases c x with ⟨-, h⟩ | ⟨-, -, h⟩ | ⟨-, -, -, h⟩ | ⟨-, -, -, h⟩ <;> rw [h]
  · exact hl
  · exact hl
  · exact hR
  · obtain ⟨b1, b2, b3, b4, b5, b6, b7, b8⟩ := hk _ hR
    exact ⟨b1, b2, b3, b4, b5, b6, b7, b8⟩

/-- A tick keeps the invariant of its axis. -/
theorem axisInv_tick {c : Config} (hc : configLegal c = true) {x : Axis} (h : AxisInv c x) : AxisInv c (x.tick c) := by
  refine ⟨scaleConsistent_tick hc h.1, accumBounded_tick hc h.1 h.2.1, countsInRange_tick hc h.2.2.1, fun hf => ?_⟩
  rw [(tick_frame c x).1] at hf
  cases hf

/-- A clock edge of the timed model keeps it too. -/
theorem axisInv_clockEdge {c : Config} (hc : configLegal c = true) {x : Axis} (h : AxisInv c x) :
    AxisInv c (x.clockEdge c) := by
  unfold Axis.clockEdge
  split
  · exact axisInv_tick hc h
  · split
    · split
      · exact axisInv_tick hc h
      · exact h
    · exact h

end Sys2Proof.Machine
end

