-- ==== Sys2Proof/Laws/Agents.lean ====
section
/-! SUPPORT. What the step of each agent can do, said once: a host access, a host's turn, a sequencer, a tick, a clock edge and
reset (00_scope.md R5, 10_state.md R47), and the port invariant of a command. -/

namespace Sys2Proof.Machine

/-! ### The port invariant of the operations -/

theorem portInv_complete (c : Config) (q : Port) {code : ResultCode} (h : code ≠ .pending) :
    PortInv c (q.complete code) := by
  cases code <;> first | exact absurd rfl h | simp [PortInv, Port.complete, ResultCode.code]

theorem portInv_hold {c : Config} {q : Port} {st : PortState} (h : st ≠ .idle)
    (hw : st = .waitAxis → q.pwax.toNat < c.numAxes) : PortInv c (q.hold st) := by
  refine ⟨⟨fun _ => h, fun _ => rfl⟩, ⟨fun _ => rfl, fun _ => rfl⟩, .inr rfl, hw⟩

/-- The invariant looks at four fields. -/
theorem portInv_congr {c : Config} {q r : Port} (h : PortInv c q) (h1 : r.busy = q.busy) (h2 : r.pstate = q.pstate)
    (h3 : r.result = q.result) (h4 : r.pwax = q.pwax) : PortInv c r := by
  unfold PortInv
  rw [h1, h2, h3, h4]
  exact h

abbrev PortsInv (s : State) : Prop := ∀ q ∈ s.ports, PortInv s.cfg q

theorem portsInv_modPort {s : State} {p : Nat} {f : Port → Port} (h : PortsInv s)
    (hf : PortInv s.cfg (s.port p) → PortInv s.cfg (f (s.port p))) : PortsInv (s.modPort p f) :=
  State.forall_ports_modPort h hf

theorem portsInv_complete {s : State} {p : Nat} {code : ResultCode} (h : PortsInv s) (hc : code ≠ .pending) :
    PortsInv (complete p code s) := portsInv_modPort h (fun _ => portInv_complete _ _ hc)

theorem portsInv_waitBeginLeft {s : State} {p : Nat} (h : PortsInv s) : PortsInv (waitBeginLeft p s) := by
  unfold waitBeginLeft
  split
  · exact portsInv_modPort h (fun _ => portInv_hold (by decide) (by simp))
  · exact portsInv_complete h (by decide)

theorem portsInv_waitBeginRight {s : State} {p : Nat} (h : PortsInv s) : PortsInv (waitBeginRight p s) := by
  unfold waitBeginRight
  split
  · exact portsInv_modPort h (fun _ => portInv_hold (by decide) (by simp))
  · exact portsInv_waitBeginLeft h

/-- A command keeps the port invariant. -/
theorem portsInv_exec {i : Instr} {s t : State} (hc : configLegal s.cfg = true) (h : PortsInv s)
    (he : exec i s = .next t) : PortsInv t := by
  have hn : s.cfg.numAxes ≤ 4 := by have := (configLegal_iff _).1 hc; omega
  cases i with
  | go a =>
    simp only [exec, execGo] at he
    split at he <;> cases he
    · exact portsInv_complete (s := goBody a _ _ _ s) h (by decide)
    · exact portsInv_complete h (by decide)
  | stop a hard =>
    simp only [exec, execStop] at he
    split at he <;> cases he
    · exact portsInv_complete (s := stopBody a hard s) h (by decide)
    · exact portsInv_complete h (by decide)
  | idle a =>
    simp only [exec, execIdle] at he
    split at he <;> cases he
    · exact portsInv_complete (s := idleBody a s) h (by decide)
    · exact portsInv_complete h (by decide)
  | wait a =>
    simp only [exec, execWait] at he
    split at he
    · rename_i ha
      rw [axisValid_iff] at ha
      split at he <;> cases he
      · refine portsInv_modPort h (fun _ => portInv_hold (q := { (s.port s.issuer) with pwax := BitVec.ofNat 8 a })
          (st := .waitAxis) (by decide) (fun _ => ?_))
        simp only [BitVec.toNat_ofNat]
        omega
      · exact portsInv_complete h (by decide)
    · cases he
      exact portsInv_complete h (by decide)
  | status a =>
    simp only [exec, execStatus] at he
    split at he <;> cases he
    · exact portsInv_complete (portsInv_modPort h (fun hq => portInv_congr hq rfl rfl rfl rfl)) (by decide)
    · exact portsInv_complete h (by decide)
  | scale =>
    cases he
    exact portsInv_complete (portsInv_modPort h (fun hq => portInv_congr hq rfl rfl rfl rfl)) (by decide)
  | pgo =>
    simp only [exec, execPgo] at he
    split at he <;> cases he
    · exact portsInv_complete h (by decide)
    · exact portsInv_waitBeginRight
        (portsInv_modPort (s := wheelGo s.cfg.axisLeft _ (wheelGo s.cfg.axisRight _ s)) h
          (fun hq => portInv_congr hq rfl rfl rfl rfl))
  | pstop hard => cases he; exact portsInv_complete (s := stopBody _ hard (stopBody _ hard s)) h (by decide)
  | pidle => cases he; exact portsInv_complete (s := idleBody _ (idleBody _ s)) h (by decide)
  | pstatus =>
    cases he
    exact portsInv_complete (portsInv_modPort h (fun hq => portInv_congr hq rfl rfl rfl rfl)) (by decide)

/-! ### A host access -/

/-- What a host access can do, by the schedule's own entry or by a host's turn. -/
structure AccessEffect (k : Access) (s t : State) : Prop where
  cfg : t.cfg = s.cfg
  schedule : t.schedule = s.schedule
  programs : t.programs.length = s.programs.length
  axes : t.axes.length = s.axes.length
  ports : t.ports.length = s.ports.length
  issuer : t.issuer = s.issuer ∨ t.issuer < s.cfg.numPorts
  axis : t.axes = s.axes ∨ ∃ p w i, k = .write (s.cfg.base + 0x100 * (p + 1)) 32 w ∧ p < s.cfg.numPorts ∧
    (s.port p).busy = false ∧ decode w = .ok i ∧
    ∀ a, AxisCommanded (writesMailbox i) (writesOut i) (s.axis a) (t.axis a)
  port : ∀ p, t.port p = s.port p ∨ ∃ addr width v, k = .write addr width v ∧
    s.cfg.base + 0x100 * (p + 1) ≤ addr ∧ addr < s.cfg.base + 0x100 * (p + 2)
  busy : ∀ p, (s.port p).busy = true → (t.port p).busy = true ∧ (t.port p).pstate = (s.port p).pstate
  inv : PortsInv s → PortsInv t

theorem AccessEffect.respond (k : Access) (s : State) (r : Response) : AccessEffect k s (s.respond r) :=
  ⟨rfl, rfl, rfl, rfl, rfl, .inl rfl, .inl rfl, fun _ => .inl rfl, fun _ h => ⟨h, rfl⟩, fun h => h⟩

/-- A host's turn takes a line off a program first: the effect is the same seen from before that. -/
theorem AccessEffect.of_withProgram {k : Access} {s t : State} {p : Nat} {l : List Line}
    (h : AccessEffect k (s.withProgram p l) t) : AccessEffect k s t :=
  ⟨h.cfg, h.schedule, h.programs.trans (by simp), h.axes, h.ports, h.issuer, h.axis, h.port, h.busy, h.inv⟩

/-- Everything `Issue` can do (30_encoding.md R84). -/
theorem issue_effect (p : Nat) (w : Word) {s : State} (hc : configLegal s.cfg = true) :
    ∃ t, issue p w s = .next t ∧ t.cfg = s.cfg ∧ t.schedule = s.schedule ∧ t.programs = s.programs ∧ t.axes.length = s.axes.length ∧
      t.ports.length = s.ports.length ∧ t.issuer = p ∧
      (t.axes = s.axes ∨ ∃ i, decode w = .ok i ∧
        ∀ a, AxisCommanded (writesMailbox i) (writesOut i) (s.axis a) (t.axis a)) ∧
      (∀ q, q ≠ p → t.port q = s.port q) ∧ (PortsInv s → PortsInv t) := by
  unfold issue
  split
  · rename_i i hd
    obtain ⟨t, ht, h⟩ := exec_commanded i (s.withIssuer p)
    exact ⟨t, ht, h.cfg, h.schedule, h.programs, h.axes, h.ports, h.issuer, .inr ⟨i, hd, h.axis⟩, h.port,
      fun hi => portsInv_exec (s := s.withIssuer p) hc hi ht⟩
  · rename_i e hd
    refine ⟨_, rfl, rfl, rfl, rfl, rfl, by simp [complete], rfl, .inl rfl, fun q hq => State.port_modPort_ne hq _,
      fun hi => portsInv_complete (s := s.withIssuer p) hi ?_⟩
    cases e <;> decide

/-- Every access answers a next state, and this is all it can have done to reach it. -/
theorem hostAccess_effect (k : Access) {s : State} (hc : configLegal s.cfg = true) :
    ∃ t, hostAccess k s = .next t ∧ AccessEffect k s t := by
  cases k with
  | read addr width => exact ⟨_, rfl, .respond ..⟩
  | write addr width v =>
    rcases hostAccess_write_cases s addr width v with ⟨r, h⟩ | ⟨p, r, hp, rfl, rfl, h⟩
    · exact ⟨_, h, .respond ..⟩
    · have hr := r.offset_lt
      have region : ∀ {f : Port → Port} (u : State), (∀ q, u.port q = s.port q) → ∀ q, (u.modPort p f).port q = s.port q ∨
          ∃ addr width v', Access.write (s.cfg.base + (Reg.port p r).offset) 32 v = .write addr width v' ∧
            s.cfg.base + 0x100 * (q + 1) ≤ addr ∧ addr < s.cfg.base + 0x100 * (q + 2) := by
        intro f u hu q
        by_cases hq : q = p
        · subst hq
          refine .inr ⟨_, _, _, rfl, ?_⟩
          simp only [Reg.offset]
          omega
        · exact .inl ((State.port_modPort_ne hq f).trans (hu q))
      by_cases hcmd : r = .cmd
      · subst hcmd
        rw [h]
        by_cases hb : (s.port p).busy = true
        · refine ⟨_, if_pos hb, rfl, rfl, rfl, rfl, by simp [latchCommand], .inl rfl, .inl rfl, fun q => ?_, fun q hq => ?_, fun hi => ?_⟩
          · by_cases hqp : q = p
            · subst hqp
              exact (region (s.respond .written) (fun _ => rfl) q (f := id)).elim
                (fun _ => .inr ⟨_, _, _, rfl, by simp only [Reg.offset, PortReg.offset]; omega⟩) .inr
            · exact .inl ((State.port_modPort_ne hqp _).trans (State.port_modPort_ne hqp _))
          · rw [State.port_modPort]
            split
            · rename_i hqp
              have e : (latchCommand p v (s.respond .written)).port p = { s.port p with cmd := v } :=
                State.port_modPort_self (by simpa [latchCommand] using hqp.2) _
              rw [e, hqp.1]
              exact ⟨hb, rfl⟩
            · rw [latchCommand, State.port_modPort]
              split
              · rename_i hqp; rw [hqp.1]; exact ⟨hb, rfl⟩
              · exact ⟨hq, rfl⟩
          · exact portsInv_modPort (portsInv_modPort (s := s.respond .written) hi (fun hq => portInv_congr hq rfl rfl rfl rfl))
              (fun hq => portInv_congr hq rfl rfl rfl rfl)
        · have hw : writeReg v (s.respond .written) (.port p .cmd) = issue p v (latchCommand p v (s.respond .written)) :=
            if_neg hb
          rw [hw]
          have hl : ∀ q, q ≠ p → (latchCommand p v (s.respond .written)).port q = s.port q := fun q hq =>
            State.port_modPort_ne (s := s) hq (fun q => { q with cmd := v })
          obtain ⟨t, ht, h1, h2, h0, h3, h4, h5, h6, h7, h8⟩ := issue_effect p v (s := latchCommand p v (s.respond .written)) hc
          refine ⟨t, ht, h1, h2, by rw [h0]; rfl, h3, h4.trans (by simp [latchCommand]), .inr (by rw [h5]; exact hp), ?_, fun q => ?_,
            fun q hq => ?_, fun hi => h8 ?_⟩
          · rcases h6 with h6 | ⟨i, hd, ha⟩
            · exact .inl h6
            · exact .inr ⟨p, _, i, rfl, hp, Bool.eq_false_iff.2 hb, hd, ha⟩
          · by_cases hqp : q = p
            · subst hqp
              exact .inr ⟨_, _, _, rfl, by simp only [Reg.offset, PortReg.offset]; omega⟩
            · exact .inl ((h7 q hqp).trans (hl q hqp))
          · have hqp : q ≠ p := fun e => hb (by rw [← e]; exact hq)
            rw [h7 q hqp, hl q hqp]
            exact ⟨hq, rfl⟩
          · exact portsInv_modPort (s := s.respond .written) (f := fun q => { q with cmd := v }) hi
              (fun hq => portInv_congr hq rfl rfl rfl rfl)
      · rw [h, writeReg_plain v _ hcmd]
        refine ⟨_, rfl, rfl, rfl, rfl, rfl, by simp, .inl rfl, .inl rfl, region _ (fun _ => rfl), fun q hq => ?_, fun hi => ?_⟩
        · rw [State.port_modPort]
          split
          · rename_i hqp
            rw [hqp.1] at hq ⊢
            exact ⟨by cases r <;> exact hq, by cases r <;> rfl⟩
          · exact ⟨hq, rfl⟩
        · exact portsInv_modPort (s := s.respond .written) hi (fun hq => by cases r <;> exact portInv_congr hq rfl rfl rfl rfl)

/-! ### A turn of a host -/

/-- A turn at a `WR` or `RD` line takes the line off the program and makes its access (30_encoding.md R86). -/
theorem hostStep_access {s : State} {p : Nat} {k : Access} {lines : List Line} (h : s.program p = .access k :: lines) :
    hostStep p s = hostAccess k (s.withProgram p lines) := by
  rw [hostStep, h]

/-- A turn at a POLL line reads PSTAT once (30_encoding.md R87). -/
theorem hostStep_poll {s : State} {p q : Nat} {lines : List Line} (h : s.program p = .poll q :: lines) :
    hostStep p s = .next (pollStep p q lines s) := by
  rw [hostStep, h]

/-- A poll of a port that exists goes on exactly when the port is not busy (30_encoding.md R87). -/
theorem pollStep_eq {s : State} {p q : Nat} (lines : List Line) (hc : configLegal s.cfg = true) (hq : q < s.cfg.numPorts) :
    pollStep p q lines s =
      (if (s.port q).busy then s else s.withProgram p lines).respond (.data ((s.port q).pstatWord)) := by
  have hr : readResponse s (pstatAddr s.cfg q) 32 = .data ((s.port q).pstatWord) :=
    readResponse_reg (r := .port q .pstat) hc hq
  have hb : ((s.port q).pstatWord).getLsbD 0 = (s.port q).busy := by simp [Port.pstatWord]
  simp only [pollStep, hr, pollAgain, hb]

/-- Everything a turn of port p's host can do: nothing, with no line; or the access of its line. -/
theorem hostStep_effect (p : Nat) {s : State} (hc : configLegal s.cfg = true) :
    (s.program p = [] ∧ hostStep p s = .next s) ∨
    ∃ k t, s.performs (.host p) = some k ∧ hostStep p s = .next t ∧ AccessEffect k s t := by
  cases h : s.program p with
  | nil => exact .inl ⟨rfl, by rw [hostStep, h]⟩
  | cons l lines =>
    cases l with
    | access k =>
      obtain ⟨t, ht, he⟩ := hostAccess_effect k (s := s.withProgram p lines) hc
      exact .inr ⟨k, t, by simp [State.performs, h, Line.toAccess], (hostStep_access h).trans ht, he.of_withProgram⟩
    | poll q =>
      refine .inr ⟨_, _, by rw [State.performs, h]; rfl, hostStep_poll h, ?_⟩
      simp only [pollStep]
      split
      · exact .respond ..
      · exact (AccessEffect.respond ..).of_withProgram

/-! ### The other agents -/

theorem sequencerEnabled_iff {s : State} {p : Nat} : sequencerEnabled s p = true ↔
    p < s.cfg.numPorts ∧ ∃ a, awaitedAxis s.cfg (s.port p) = some a ∧ (s.axis a).sem = true := by
  unfold sequencerEnabled
  rw [Bool.and_eq_true, decide_eq_true_eq]
  cases awaitedAxis s.cfg (s.port p) <;> simp

/-- The step of an enabled sequencer: the awaited semaphore is taken and the port completes, or goes on to the left
wheel. -/
theorem sequencerStep_cases (p : Nat) (s : State) :
    (sequencerEnabled s p = false ∧ sequencerStep p s = s) ∨
    (sequencerEnabled s p = true ∧ ∃ a f, awaitedAxis s.cfg (s.port p) = some a ∧ (s.axis a).sem = true ∧
      sequencerStep p s = (takeSem a s).modPort p f ∧ (f = (fun q => q.complete .ok) ∨ f = (fun q => q.hold .pwaitL))) := by
  cases he : sequencerEnabled s p
  · exact .inl ⟨rfl, by simp [sequencerStep, he]⟩
  · obtain ⟨-, a, ha, hs⟩ := sequencerEnabled_iff.1 he
    refine .inr ⟨rfl, ?_⟩
    unfold sequencerStep
    rw [if_pos he]
    unfold awaitedAxis at ha ⊢
    cases hp : (s.port p).pstate <;> rw [hp] at ha <;> cases ha
    · exact ⟨_, _, rfl, hs, rfl, .inl rfl⟩
    · simp only [waitBeginLeft]
      split
      · exact ⟨_, _, rfl, hs, rfl, .inr rfl⟩
      · exact ⟨_, _, rfl, hs, rfl, .inl rfl⟩
    · exact ⟨_, _, rfl, hs, rfl, .inl rfl⟩

theorem axis_takeSem (a b : Nat) (s : State) :
    (takeSem a s).axis b = { s.axis b with sem := (s.axis b).sem && !decide (b = a) } := by
  rw [takeSem, State.axis_modAxis]
  split
  · rename_i h; simp [h.1]
  · rename_i h
    by_cases hb : b = a
    · subst hb
      have : s.axis b = Axis.reset := by
        unfold State.axis List.getD
        rw [List.getElem?_eq_none (by omega)]
        rfl
      simp [this, Axis.reset]
    · simp [hb]

theorem tickReady_iff {s : State} {a : Nat} : tickReady s a = true ↔
    s.cfg.timing = .untimed ∧ a < s.cfg.numAxes ∧ (s.axis a).tickEnabled = true := by
  rw [tickReady, Bool.and_eq_true, Bool.and_eq_true, decide_eq_true_eq, axisValid_iff, and_assoc]

/-- The axis a scheduled tick or clock edge leaves: ticked, with only its timer channel moved, or as it was. -/
theorem axis_tickStep (a b : Nat) (s : State) :
    (tickStep a s).axis b = s.axis b ∨ (b = a ∧ (tickStep a s).axis b = (s.axis b).tick s.cfg) := by
  unfold tickStep
  split
  · rw [State.axis_modAxis]
    split
    · rename_i h; exact .inr ⟨h.1, by rw [h.1]⟩
    · exact .inl rfl
  · exact .inl rfl

theorem axis_clockStep (b : Nat) (s : State) :
    (clockStep s).axis b = s.axis b ∨
    (s.cfg.timing = .timed ∧ b < s.axes.length ∧ (clockStep s).axis b = (s.axis b).clockEdge s.cfg) := by
  unfold clockStep
  split
  · by_cases h : b < s.axes.length
    · exact .inr ⟨‹_›, h, by simp [State.axis, List.getD, h]⟩
    · left; simp [State.axis, List.getD, List.getElem?_eq_none (Nat.le_of_not_lt h)]
  · exact .inl rfl

/-- A clock edge is a tick with the count at 0, or moves the count only. -/
theorem clockEdge_cases (c : Config) (x : Axis) :
    x.clockEdge c = { x.tick c with tcnt := 0#16 } ∨ ∃ n, x.clockEdge c = { x with tcnt := n } := by
  unfold Axis.clockEdge
  split
  · exact .inl rfl
  · split
    · split
      · exact .inl rfl
      · exact .inr ⟨_, rfl⟩
    · exact .inr ⟨_, rfl⟩

/-! ### The step -/

/-- What a step can do, said once, by the agent at the head of the schedule: an access, the schedule's own or a host's;
a host with no line; a sequencer; a tick; a clock edge; reset. -/
theorem step_cases {s t : State} {e : Event} {rest : List Event} (h : s.NextIs e rest) (hs : step s = .next t) :
    (∃ k, s.performs e = some k ∧ AccessEffect k (s.withSchedule rest) t) ∨
    (∃ p, e = .host p ∧ s.program p = [] ∧ t = s.withSchedule rest) ∨
    (∃ p, e = .sequencer p ∧ t = sequencerStep p (s.withSchedule rest)) ∨
    (∃ a, e = .tick a ∧ t = tickStep a (s.withSchedule rest)) ∨
    (e = .clockEdge ∧ t = clockStep (s.withSchedule rest)) ∨
    (e = .reset ∧ t = resetStep (s.withSchedule rest)) := by
  rw [step_next h] at hs
  cases e with
  | access k =>
    obtain ⟨u, hu, he⟩ := hostAccess_effect k (s := s.withSchedule rest) h.1
    cases hu.symm.trans hs
    exact .inl ⟨k, rfl, he⟩
  | host p =>
    rcases hostStep_effect p (s := s.withSchedule rest) h.1 with ⟨hn, hu⟩ | ⟨k, u, hk, hu, he⟩
    · cases hu.symm.trans hs
      exact .inr (.inl ⟨p, rfl, hn, rfl⟩)
    · cases hu.symm.trans hs
      exact .inl ⟨k, hk, he⟩
  | sequencer p => cases hs; exact .inr (.inr (.inl ⟨p, rfl, rfl⟩))
  | tick a => cases hs; exact .inr (.inr (.inr (.inl ⟨a, rfl, rfl⟩)))
  | clockEdge => cases hs; exact .inr (.inr (.inr (.inr (.inl ⟨rfl, rfl⟩))))
  | reset => cases hs; exact .inr (.inr (.inr (.inr (.inr ⟨rfl, rfl⟩))))

end Sys2Proof.Machine
end

