-- ==== Sys2Proof/Laws/PerInstr.lean ====
section
/-! SUPPORT. Per command: its encoding has a defined opcode and sets no bit its command does not use (30_encoding.md
R80 to R82). -/

namespace Sys2Proof.Laws

open Sys2Proof.Machine

/-- The encoding of `i` is a word the decode checks of 30_encoding.md R84 let through. -/
def EncodingIsLegal.Statement (i : Instr) : Prop :=
  opcodeField (encode i) ∈ definedOpcodes ∧ encode i &&& ~~~(usedMask (opcodeField (encode i))) = 0#32

/-- A word of a command's fields sets only bits of a mask that has them. -/
theorem commandWord_used {op : BitVec 8} {a : Nat} {hard : Bool} {m : Word}
    (h : ∀ i, i < 32 → (i < 8 ∨ (8 ≤ i ∧ i < 16 ∧ a ≠ 0) ∨ (i = 16 ∧ hard = true)) → m.getLsbD i = true) :
    commandWord op a hard &&& ~~~m = 0#32 := by
  rw [and_not_eq_zero]
  intro i hi hw
  apply h i hi
  simp [commandWord, hi] at hw
  rcases hw with (hw | ⟨h8, hw⟩) | ⟨h16, h0, hh⟩
  · refine .inl ?_
    by_contra hc
    rw [BitVec.getLsbD_of_ge _ _ (by omega)] at hw
    cases hw
  · refine .inr (.inl ⟨h8, ?_, ?_⟩)
    · by_contra hc
      rw [BitVec.getLsbD_of_ge _ _ (by omega)] at hw
      cases hw
    · rintro rfl
      simp at hw
  · exact .inr (.inr ⟨by omega, hh⟩)

/-- The axis-only mask has the bits of OPCODE and AXIS. -/
theorem axisMask_bits : ∀ i, i < 32 → (i < 16 → (0x0000FFFF#32).getLsbD i = true) := by decide

theorem EncodingIsLegal.go (axis : Nat) : EncodingIsLegal.Statement (.go axis) := by
  rw [Statement, encode, opcodeField_commandWord]
  exact ⟨by decide, commandWord_used fun i hi h => axisMask_bits i hi (by simp at h; omega)⟩

theorem EncodingIsLegal.stop (axis : Nat) (hard : Bool) : EncodingIsLegal.Statement (.stop axis hard) := by
  rw [Statement, encode, opcodeField_commandWord]
  have bits : ∀ i, i < 32 → (i < 17 → (0x0001FFFF#32).getLsbD i = true) := by decide
  exact ⟨by decide, commandWord_used fun i hi h => bits i hi (by omega)⟩

theorem EncodingIsLegal.idle (axis : Nat) : EncodingIsLegal.Statement (.idle axis) := by
  rw [Statement, encode, opcodeField_commandWord]
  exact ⟨by decide, commandWord_used fun i hi h => axisMask_bits i hi (by simp at h; omega)⟩

theorem EncodingIsLegal.wait (axis : Nat) : EncodingIsLegal.Statement (.wait axis) := by
  rw [Statement, encode, opcodeField_commandWord]
  exact ⟨by decide, commandWord_used fun i hi h => axisMask_bits i hi (by simp at h; omega)⟩

theorem EncodingIsLegal.status (axis : Nat) : EncodingIsLegal.Statement (.status axis) := by
  rw [Statement, encode, opcodeField_commandWord]
  exact ⟨by decide, commandWord_used fun i hi h => axisMask_bits i hi (by simp at h; omega)⟩

theorem EncodingIsLegal.scale : EncodingIsLegal.Statement .scale := ⟨by decide, by decide⟩

theorem EncodingIsLegal.pgo : EncodingIsLegal.Statement .pgo := ⟨by decide, by decide⟩

theorem EncodingIsLegal.pstop (hard : Bool) : EncodingIsLegal.Statement (.pstop hard) := by
  cases hard <;> exact ⟨by decide, by decide⟩

theorem EncodingIsLegal.pidle : EncodingIsLegal.Statement .pidle := ⟨by decide, by decide⟩

theorem EncodingIsLegal.pstatus : EncodingIsLegal.Statement .pstatus := ⟨by decide, by decide⟩

end Sys2Proof.Laws
end

