-- ==== Sys2Proof/Tests/Slice0.lean ====
section
/-! SUPPORT. Tests: well-formedness, decoding of words written out from 30_encoding.md, at most two one-step tests per
command with the values of 95_test_vectors.md (configuration EX1), and for each obligation with hypotheses a state and
operands that meet them. -/

namespace Sys2Proof.Tests

open Sys2Proof.Machine

/-! ### Well-formedness: an axis index that no 8-bit field holds is refused -/

theorem test_wf_go : (Instr.go 256).wf = false ∧ (Instr.go 255).wf = true := by decide
theorem test_wf_stop : (Instr.stop 256 false).wf = false ∧ (Instr.stop 300 true).wf = false := by decide
theorem test_wf_idle : (Instr.idle 256).wf = false := by decide
theorem test_wf_wait : (Instr.wait 256).wf = false := by decide
theorem test_wf_status : (Instr.status 256).wf = false := by decide
theorem test_wf_no_axis : [Instr.scale, .pgo, .pstop true, .pidle, .pstatus].all Instr.wf = true := by decide

/-! ### Decoding, from the layout of 30_encoding.md R80 and the opcodes of R81 -/

/-- Axis controller: AXIS = 1 in bits 15..8, HARD in bit 16. -/
theorem test_decode_axis :
    decodeTableWord 32 0b00000000_00000000_00000001_00000001 = some (.go 1) ∧
    decodeTableWord 32 0b00000000_00000001_00000001_00000010 = some (.stop 1 true) ∧
    decodeTableWord 16 0b00000001_00000011 = some (.idle 1) ∧
    decodeTableWord 16 0b00000011_00000100 = some (.wait 3) ∧
    decodeTableWord 16 0b11111111_00000101 = some (.status 255) := by decide

/-- Timer scaler. -/
theorem test_decode_scale : decodeTableWord 8 0b00001000 = some .scale := by decide

/-- Planner. -/
theorem test_decode_planner :
    decodeTableWord 8 0b00010001 = some .pgo ∧
    decodeTableWord 32 0b00000000_00000001_00000000_00010010 = some (.pstop true) ∧
    decodeTableWord 8 0b00010011 = some .pidle ∧ decodeTableWord 8 0b00010101 = some .pstatus := by decide

/-- 95_test_vectors.md V-DE1 to V-DE8: undefined opcodes and reserved bits. -/
theorem test_decode_errors :
    decode 0x00000000#32 = .error .undefinedOpcode ∧ decode 0x00000006#32 = .error .undefinedOpcode ∧
    decode 0x000000FF#32 = .error .undefinedOpcode ∧ decode 0x80000009#32 = .error .undefinedOpcode ∧
    decode 0x00010001#32 = .error .reservedBits ∧ decode 0x00000108#32 = .error .reservedBits ∧
    decode 0x00010112#32 = .error .reservedBits ∧ decode 0x00020304#32 = .error .reservedBits := by decide

theorem test_decode_truncated : decodeBytes [0x01#8, 0x00#8, 0x00#8] = .error .truncated := by decide

/-! ### Small states -/

/-- The reset state of EX1 with `events` to come. -/
def boot (events : List Event) : State := State.reset.withSchedule events

/-- The state a step answers; the state itself where it answers none. -/
def next (s : State) : State :=
  match step s with
  | .next t => t
  | .fault _ => s
  | .refused _ => s

/-- A write of `w` to port p's CMD. -/
def cmd (p : Nat) (w : Word) : Event := .access (.write (0x100 * (p + 1)) 32 w)

/-- The state after port 0 writes the command word `w` in `s`. -/
def issued (w : Word) (s : State) : State := next (s.withSchedule [cmd 0 w])

/-- Port 0's arguments. -/
def withArgs (a0 a1 a2 a3 : Word) (s : State) : State :=
  s.modPort 0 (fun q => { q with arg0 := a0, arg1 := a1, arg2 := a2, arg3 := a3 })

/-- Reset, with axis 0 changed. -/
def withAxis (f : Axis → Axis) : State := State.reset.modAxis 0 f

/-- An axis running at 200.0 steps/s, its scaler outputs those of 95_test_vectors.md, table V-SC. -/
def cruising : Axis :=
  { Axis.reset with vel := 0x00C80000#32, tgt := 0x00C80000#32, reload := 5000#16, period := 5000#32, mult := 1#16 }

/-! ### Commands -/

/-- V-AX1. -/
theorem test_go : ((issued 0x1#32 (withArgs 0x00C80000#32 0x00640000#32 1000#32 0#32 State.reset)).axis 0).mb =
    ⟨0x00C80000#32, 0x00640000#32, 1000#32, true, true⟩ := by decide

/-- V-AX6: the magnitudes of -2^31. -/
theorem test_go_extremes :
    ((issued 0x101#32 (withArgs 0x80000000#32 0x80000000#32 0x80000000#32 0#32 State.reset)).axis 1).mb =
    ⟨0x7FFFFFFF#32, 0x80000000#32, 0x80000000#32, true, true⟩ := by decide

/-- V-AX8: a soft stop takes the active acceleration, and a running timer is not forced. -/
theorem test_stop_soft :
    ((issued 0x2#32 (withAxis fun _ => { cruising with accel := 0x00640000#32 })).axis 0).mb =
      ⟨0#32, 0x00640000#32, 0#32, false, true⟩ ∧
    ((issued 0x2#32 (withAxis fun _ => cruising)).axis 0).force = false := by decide

/-- V-DE12. -/
theorem test_stop_hard : ((issued 0x10002#32 (withAxis fun x => { x with accel := 7#32 })).axis 0).mb.acc = 0#32 ∧
    ((issued 0x10002#32 State.reset).axis 0).force = true := by decide

/-- V-AX10. -/
theorem test_idle : ((issued 0x3#32 (withAxis fun x => { x with out := 0x9#4, phase := 5#3 })).axis 0).out = 0#4 ∧
    ((issued 0x3#32 (withAxis fun x => { x with out := 0x9#4, phase := 5#3 })).axis 0).phase = 5#3 := by decide

/-- V-AX11: PSTAT reads 0x11 here (no earlier command set DONE). -/
theorem test_wait_holds :
    ((issued 0x4#32 (withAxis fun x => { x with mb := { x.mb with sig := true } })).port 0).pstatWord = 0x11#32 ∧
    ((issued 0x4#32 (withAxis fun x => { x with mb := { x.mb with sig := true } })).port 0).result = 7#32 := by decide

/-- V-DE15 and V-DE9. -/
theorem test_wait_errors : ((issued 0x104#32 State.reset).port 0).result = 2#32 ∧
    ((issued 0x304#32 State.reset).port 0).result = 1#32 := by decide

/-- V-AX13. -/
theorem test_status : ((issued 0x105#32 State.reset).port 0).snapA[11] = 0x01000000#32 := by decide

/-- V-DE10. -/
theorem test_status_bad_axis : ((issued 0xFF05#32 State.reset).port 0).result = 1#32 := by decide

/-- 40_timer_scaler.md R102's example: 1.0 steps/s. -/
theorem test_scale : ((issued 0x8#32 (withArgs 0x10000#32 0#32 0#32 0#32 State.reset)).port 0).res =
    #v[0x10000#32, 65535#32, 1000000#32, 3#32, 0#32, 0#32, 0#32, 0#32] := by decide +kernel

/-- Table V-SC: the smallest velocity with a period, and the one below it. -/
theorem test_scale_edge : scale Config.ex1 (-16) = ⟨-16, 65535, 4096000000, 250⟩ ∧ scale Config.ex1 15 = ⟨0, 0, 0, 0⟩ := by
  decide +kernel

/-- 42_planner.md R162 and R163's example: V = 0.5, W = 0x65DC, A = 0x1999, D = 1.0. -/
theorem test_pgo : ((issued 0x11#32 (withArgs 0x8000#32 0x1999#32 0x65DC#32 0x10000#32 State.reset)).port 0).res =
    #v[671088640#32, 134205440#32, 20480#32, 223682560#32, 44732416#32, 6826#32, 32768#32, 10922#32] := by decide

/-- 42_planner.md R182's example: the inner wheel's negative count negates its velocity. -/
theorem test_pgo_inner :
    ((issued 0x11#32 (withArgs 0x1999#32 0x1999#32 40000#32 0x10000#32 State.reset)).axis 1).mb.tgt = 380518400#32 ∧
    ((issued 0x11#32 (withArgs 0x1999#32 0x1999#32 40000#32 0x10000#32 State.reset)).axis 1).mb.total = 58067#32 := by
  decide

/-- V-DE13. -/
theorem test_pstop : ((issued 0x10012#32 State.reset).axis 0).mb.pend = true ∧
    ((issued 0x10012#32 State.reset).axis 1).force = true := by decide

/-- 42_planner.md R172. -/
theorem test_pidle : ((issued 0x13#32 (withAxis fun x => { x with out := 0x3#4 })).axis 0).out = 0#4 ∧
    ((issued 0x13#32 State.reset).axis 1).mb.pend = true := by decide

/-- V-DE14. -/
theorem test_pstatus : ((issued 0x15#32 State.reset).port 0).snapA[11] = 0#32 ∧
    ((issued 0x15#32 State.reset).port 0).snapB[11] = 0x01000000#32 := by decide

/-! ### Host programs (30_encoding.md R86, R87) -/

/-- V-AX11's wait in a host's program: `POLL.0` and a line after it, at the host's turn. -/
def polling : State :=
  ((withAxis fun x => { x with sem := true }).modPort 0 fun q => q.hold .waitAxis).loadProgram 0
    ((Pseudo.poll 0).expand ++ (Pseudo.ack 0).expand)

/-- POLL reads BUSY = 1: the line after it does not run. -/
theorem test_poll_repeats : (next (polling.withSchedule [.host 0])).resp = .data 0x11#32 ∧
    (next (polling.withSchedule [.host 0])).program 0 = polling.program 0 := by decide

/-- POLL reads BUSY = 0 after the sequencer's step: the line after it, ACK, runs at the next turn. -/
theorem test_poll_goes_on :
    (next (next (polling.withSchedule [.sequencer 0, .host 0]))).resp = .data 0x2#32 ∧
    ((next (next (next (polling.withSchedule [.sequencer 0, .host 0, .host 0])))).port 0).done = false := by decide

/-! ### Other agents -/

/-- A register read as V-RA3, and the bus error of V-RA7. -/
theorem test_read : (next (boot [.access (.read 0x008 32)])).resp = .data 0x1022#32 ∧
    (next (boot [.access (.read 0x102 32)])).resp = .failed (.busError 0x102) := by decide

/-- V-RA13: the read-only bits of PSTAT ignore the write. -/
theorem test_write_pstat :
    ((next ((State.reset.modPort 0 fun q => { q with overrun := true, busy := true }).withSchedule
      [.access (.write 0x118 32 0xFFFFFFFF#32)])).port 0).pstatWord = 1#32 := by decide

/-- T1, tick 8: the first step, from the accumulator the seventh tick left. -/
theorem test_tick_step :
    (Axis.tick Config.ex1 { Axis.reset with
      vel := 131072#32, tgt := 13107200#32, accel := 6553600#32, total := 1000#32, sig := true, reload := 65535#16
      period := 500000#32, mult := 2#16, accum := 458745#64, rem := 1000#32, th1 := 500#32, th2 := 200#32 }) =
    { Axis.reset with
      vel := 3407872#32, tgt := 13107200#32, accel := 6553600#32, total := 1000#32, sig := true, reload := 19230#16
      period := 19230#32, mult := 1#16, accum := 24280#64, rem := 999#32, th1 := 500#32, th2 := 200#32
      phase := 1#3, out := 1#4, last := .moving } := by decide +kernel

/-- T1, tick 1: the load starts from rest at the floor speed 2.0. -/
theorem test_tick_load :
    ((Axis.reset.mbWrite 13107200 6553600 1000).tick Config.ex1).vel = 131072#32 ∧
    ((Axis.reset.mbWrite 13107200 6553600 1000).tick Config.ex1).th2 = 200#32 ∧
    ((Axis.reset.mbWrite 13107200 6553600 1000).tick Config.ex1).accum = 65535#64 := by decide

/-- 41_axis_controller.md R125's example. -/
theorem test_wait_ends :
    ((sequencerStep 0 ((withAxis fun x => { x with sem := true }).modPort 0 fun q => q.hold .waitAxis)).port 0).pstatWord =
      2#32 := by decide

/-- 60_exceptions.md R202: the count reaches RELOAD at the edge. -/
theorem test_clock_edge :
    (Axis.clockEdge Config.ex1 { cruising with tcnt := 4998#16 }).tcnt = 4999#16 ∧
    (Axis.clockEdge Config.ex1 { cruising with tcnt := 4999#16 }).last = .moving := by decide

/-- A scheduled command word runs as the first step after reset. -/
theorem test_first_step : step (State.reset.withFetchWord 32 0x104) =
    .next (complete 0 .errNowait (latchCommand 0 0x104#32 ((State.reset.withSchedule []).respond .written))) := by rfl

/-- The flag word of 20_memory.md R63: V-AX12, word 11. -/
theorem test_flags_word :
    ({ Axis.reset with mb := { Mailbox.reset with sig := true }, sig := true, last := .waiting } : Axis).flagsWord 0 =
      0x00010006#32 := by decide

/-! ### Witnesses: for each obligation with hypotheses, states and operands that meet them, at the ends of the ranges -/

theorem witness_wf : State.reset.Wf := by decide

/-- Reset in EX1 with port p changed. -/
def withPort (p : Nat) (f : Port → Port) : State := State.reset.modPort p f

/-- A state in which both ports wait on axis 1, whose semaphore is given. -/
def twoWaiters : State :=
  ((withPort 0 fun q => { q.hold .waitAxis with pwax := 1#8 }).modPort 1 fun q => { q.hold .waitAxis with pwax := 1#8 }).modAxis 1
    fun x => { x with sem := true }

/-- EX1 in the timed model. -/
def timedReset : State := State.resetWith { Config.ex1 with timing := .timed }

theorem witness_DecodeOfEncode : (Instr.stop 255 true).wf = true ∧ (Instr.go 0).wf = true := by decide

theorem witness_EncodeOfDecode : decode 0x0001FF02#32 = .ok (.stop 255 true) := by decide

/-- A turn at an access line; a turn at a POLL line of a busy port, and of one that is not. -/
theorem witness_PseudoInstructionsExpandAndRun : 0 < 256 ∧ 255 < 256 ∧ (polling.withSchedule [.host 0]).Wf ∧
    (polling.withSchedule [.host 0]).NextIs (.host 0) [] ∧ 0 < Config.ex1.numPorts ∧ 1 < Config.ex1.numPorts ∧
    polling.program 0 = .poll 0 :: [.access (.write 0x118 32 6#32)] ∧ (polling.port 0).busy = true ∧
    (State.reset.port 0).busy = false ∧
    (State.reset.loadProgram 1 (Pseudo.ack 0).expand).program 1 = .access (.write 0x118 32 6#32) :: [] := by decide

theorem witness_StepRunsDecodedCommand : (boot [cmd 1 0x101#32]).NextIs (cmd 1 0x101#32) [] ∧ 1 < Config.ex1.numPorts ∧
    ((boot [cmd 1 0x101#32]).port 1).busy = false ∧ decode 0x101#32 = .ok (.go 1) := by decide

theorem witness_BadWordCompletesWithError : (boot [cmd 1 0x14#32]).Wf ∧ (boot [cmd 1 0x14#32]).NextIs (cmd 1 0x14#32) [] ∧
    1 < Config.ex1.numPorts ∧ ((boot [cmd 1 0x14#32]).port 1).busy = false ∧
    (0x14#32).extractLsb' 0 8 ∉ definedOpcodes ∧
    (0x80000015#32).extractLsb' 0 8 ∈ definedOpcodes ∧ 0x80000015#32 &&& ~~~(usedMask 0x15#8) ≠ 0#32 := by decide

theorem witness_BusyPortDropsCommand :
    (twoWaiters.withSchedule [cmd 1 0x15#32]).Wf ∧ (twoWaiters.withSchedule [cmd 1 0x15#32]).NextIs (cmd 1 0x15#32) [] ∧
    1 < Config.ex1.numPorts ∧ ((twoWaiters.withSchedule [cmd 1 0x15#32]).port 1).busy = true := by decide

theorem witness_BusErrorHasNoEffect : (0 : Nat) < 4096 ∧ (16 : Nat) ≠ 32 ∧ 4095 < 4096 ∧ 4095 % 4 ≠ 0 ∧
    Unmapped Config.ex1 0x24 ∧ Unmapped Config.ex1 0xFC ∧ Unmapped Config.ex1 0x1C0 ∧ Unmapped Config.ex1 0x2FC ∧
    Unmapped Config.ex1 0x300 ∧ ¬ Unmapped Config.ex1 0x20 ∧ ¬ Unmapped Config.ex1 0x2BC ∧
    (boot [.access (.read 0x300 32)]).NextIs (.access (.read (Config.ex1.base + 0x300) 32)) [] ∧
    (boot [.access (.write 0x300 32 1#32)]).NextIs (.access (.write (Config.ex1.base + 0x300) 32 1#32)) [] := by decide

theorem witness_ReadReturnsRegister : (Reg.port 1 (.snapB 15)).Mapped Config.ex1 ∧
    (boot [.access (.read 0x2BC 32)]).NextIs (.access (.read (Config.ex1.base + (Reg.port 1 (.snapB 15)).offset) 32)) [] ∧
    1 < Config.ex1.numPorts ∧ (.cmd, 0x00, 0#32) ∈ portMap (State.reset.port 1) ∧
    (.snapB 15, 0xBC, 0#32) ∈ portMap (State.reset.port 1) ∧
    (boot [.access (.read 0x2BC 32)]).NextIs (.access (.read (Config.ex1.base + (0x100 * (1 + 1) + 0xBC)) 32)) [] := by
  decide

theorem witness_GlobalRegionReadsConfiguration :
    (boot [.access (.read 0x20 32)]).NextIs (.access (.read (Config.ex1.base + 0x20) 32)) [] ∧
    (boot [.access (.write 0x0 32 5#32)]).NextIs (.access (.write (Config.ex1.base + 0x0) 32 5#32)) [] ∧
    0x24 ≤ 0x24 ∧ 0xFF < 0x100 := by decide

theorem witness_PlainWriteChangesOnlyItsRegister : ∀ e ∈ [(PortReg.arg0, 0x04), (.arg1, 0x08), (.arg2, 0x0C), (.arg3, 0x10),
    (.result, 0x14), (.pstat, 0x18), (.pctl, 0x1C), (.res 7, 0x3C), (.snapA 15, 0x7C), (.snapB 15, 0xBC)],
    e.1 ≠ .cmd ∧ State.reset.Wf ∧ 1 < Config.ex1.numPorts ∧ (e.1, e.2, 0#32) ∈ portMap (State.reset.port 1) ∧
    (boot [.access (.write (0x200 + e.2) 32 6#32)]).NextIs
      (.access (.write (Config.ex1.base + (0x100 * (1 + 1) + e.2)) 32 6#32)) [] := by decide

theorem witness_SnapshotHoldsTheAxis : 0 < 256 ∧ 255 < 256 := by decide

theorem witness_WindowIsLittleEndian : configLegal Config.ex1 = true ∧ (Reg.port 1 (.snapB 15)).Mapped Config.ex1 ∧ 3 < 4 := by
  decide

theorem witness_IrqFollowsDoneAndEnable : 1 < State.reset.ports.length ∧ (1#32).getLsbD 0 = true ∧
    (2#32).getLsbD 0 = false ∧ (2#32).getLsbD 1 = true ∧ (1#32).getLsbD 1 = false := by decide

/-- Below the epsilon; the largest magnitude whose period does not fit, and the smallest whose period does. -/
theorem witness_ScaleFollowsItsFormula : configLegal Config.ex1 = true ∧ (0 : Int).natAbs < Config.ex1.velEps ∧
    2 ^ 32 - 1 < Config.ex1.clkHz * 2 ^ 16 / (15 : Int).natAbs ∧ Config.ex1.velEps ≤ (1 : Int).natAbs ∧
    Config.ex1.clkHz * 2 ^ 16 / (16 : Int).natAbs ≤ 2 ^ 32 - 1 := by decide

theorem witness_ReloadIsMinOfPeriod : configLegal Config.ex1 = true := by decide

theorem witness_ScaleIsIdempotent : configLegal Config.ex1 = true ∧
    ({ Config.ex1 with vmax := 1 } : Config).clkHz = Config.ex1.clkHz ∧
    ({ Config.ex1 with vmax := 1 } : Config).velEps = Config.ex1.velEps := by decide

theorem witness_ScaleCommandResult : State.reset.Wf := witness_wf

theorem witness_GoResult : State.reset.Wf ∧ 1 < State.reset.cfg.numAxes ∧ State.reset.cfg.numAxes ≤ 2 := by decide

theorem witness_StopResult : State.reset.Wf ∧ 1 < State.reset.cfg.numAxes ∧ State.reset.cfg.numAxes ≤ 2 := by decide

theorem witness_IdleResult : State.reset.Wf ∧ 1 < State.reset.cfg.numAxes ∧ State.reset.cfg.numAxes ≤ 2 := by decide

theorem witness_WaitResult : (withAxis fun x => x.mbWrite 0 0 1).Wf ∧ ((withAxis fun x => x.mbWrite 0 0 1).axis 0).mb.sig = true ∧
    ((withAxis fun x => x.mbWrite 0 0 1).axis 1).mb.sig = false ∧ State.reset.cfg.numAxes ≤ 2 := by decide

theorem witness_StatusResult : State.reset.Wf ∧ 1 < State.reset.cfg.numAxes ∧ State.reset.cfg.numAxes ≤ 2 := by decide

theorem witness_ZeroStepsNeverSignal : State.reset.Wf ∧ 1 < State.reset.cfg.numAxes ∧
    (State.reset.port State.reset.issuer).arg2 = 0#32 := by decide

theorem witness_CommandFrame : (∃ t, exec (.wait 0) State.reset = .next t) ∧ writesMailbox (.wait 0) = false ∧
    writesOut (.go 0) = false ∧ 0x2FF / 0x100 ≠ State.reset.issuer + 1 := ⟨⟨_, rfl⟩, by decide⟩

theorem witness_ErrorCodeChangesNothingElse : State.reset.Wf ∧ (State.reset.port 0).busy = false ∧
    (State.reset.port 0).pstate = .idle ∧ ∃ t, exec .pgo State.reset = .next t ∧ 1 ≤ (t.port 0).result.toNat ∧
      (t.port 0).result.toNat ≤ 5 := ⟨by decide, by decide, by decide, _, rfl, by decide, by decide⟩

/-- 42_planner.md R161 to R163's example, with the cuts of 00_scope.md R9. -/
theorem witness_PgoResult : (∀ x, sat32 x = min (2 ^ 31 - 1) (max (-2 ^ 31) x)) ∧
    (∀ x, negSat x = if x = -2 ^ 31 then 2 ^ 31 - 1 else -x) ∧
    (withArgs 0x8000#32 0x1999#32 0x65DC#32 0x10000#32 State.reset).Wf ∧
    (0x8000#32).toInt = 32768 ∧ (0x1999#32).toInt = 6553 ∧ (0x65DC#32).toInt = 26076 ∧ (0x10000#32).toInt = 65536 ∧
    (32768 : Int) ≠ 0 ∧ Int.tdiv (Config.ex1.kTurn * 26076) (2 ^ 16) = 16384 ∧ sat32 (32768 + 16384) = 49152 ∧
    sat32 (32768 - 16384) = 16384 ∧ Config.ex1.vmax < (49152 : Int).natAbs ∧
    Int.tdiv (49152 * Config.ex1.vmax) 49152 = 32768 ∧ Int.tdiv (16384 * Config.ex1.vmax) 49152 = 10922 ∧
    ¬ Config.ex1.vmax < (10922 : Int).natAbs := ⟨fun _ => rfl, fun _ => rfl, by decide⟩

theorem witness_PgoZeroVelocityRejected : State.reset.Wf ∧ (State.reset.port State.reset.issuer).arg0 = 0#32 := by decide

theorem witness_PstopResult : State.reset.Wf := witness_wf

theorem witness_PidleResult : State.reset.Wf := witness_wf

theorem witness_PstatusResult : State.reset.Wf := witness_wf

theorem witness_SaturationBoundsBothWheels : configLegal Config.ex1 = true ∧ (32768 : Int).natAbs ≤ Config.ex1.vmax ∧
    (-32768 : Int).natAbs ≤ Config.ex1.vmax := by decide

theorem witness_PlannerIsSymmetric : configLegal Config.ex1 = true ∧ (-2 ^ 31 : Int) ≤ -2 ^ 31 ∧ (2 ^ 31 - 1 : Int) < 2 ^ 31 ∧
    (wheelVelocities Config.ex1 0x4000 0x65DC).1.natAbs ≤ Config.ex1.vmax ∧
    (wheelVelocities Config.ex1 0x4000 0x65DC).2.natAbs ≤ Config.ex1.vmax := by decide

theorem witness_RightLimitScalesBothWheels : configLegal Config.ex1 = true ∧ Config.ex1.vmax < (49152 : Int).natAbs ∧
    (-49152 : Int).natAbs ≤ (49152 : Int).natAbs ∧ 2 * (49152 : Int).natAbs = 3 * Config.ex1.vmax ∧
    Config.ex1.vmax < (32769 : Int).natAbs := by decide

theorem witness_WaitCompletionTakesSemaphore : (twoWaiters.withSchedule [.sequencer 1]).Wf ∧
    (twoWaiters.withSchedule [.sequencer 1]).NextIs (.sequencer 1) [] ∧ 1 < Config.ex1.numPorts ∧
    (twoWaiters.port 1).pstate = .waitAxis ∧ (twoWaiters.port 1).pwax.toNat < Config.ex1.numAxes ∧
    (twoWaiters.axis 1).sem = true ∧ ((takeSem 1 twoWaiters).axis 1).sem = false := by decide

/-- One port waits on the right wheel, the other on the left; the right semaphore is given. -/
def pgoWaiters : State :=
  ((withPort 0 fun q => q.hold .pwaitR).modPort 1 fun q => q.hold .pwaitL).modAxis 0 fun x => { x with sem := true }

theorem witness_PgoWaitSteps : (pgoWaiters.withSchedule [.sequencer 0]).Wf ∧
    (pgoWaiters.withSchedule [.sequencer 0]).NextIs (.sequencer 0) [] ∧ 1 < Config.ex1.numPorts ∧
    (pgoWaiters.port 0).pstate = .pwaitR ∧ (pgoWaiters.axis Config.ex1.axisRight).sem = true ∧
    (pgoWaiters.port 1).pstate = .pwaitL ∧ (pgoWaiters.axis Config.ex1.axisLeft).sem = false ∧
    ((takeSem 0 pgoWaiters).axis Config.ex1.axisRight).sem = false ∧
    ((pgoWaiters.modAxis 1 fun x => { x with sem := true }).axis Config.ex1.axisLeft).sem = true := by decide

theorem witness_OnlyTakeOrResetEndsWait : (twoWaiters.withSchedule [.sequencer 1]).NextIs (.sequencer 1) [] ∧
    (twoWaiters.port 1).busy = true ∧ (twoWaiters.port 1).pstate ≠ .idle ∧
    ∃ t, step (twoWaiters.withSchedule [.sequencer 1]) = .next t ∧ (t.port 1).pstate = .idle :=
  ⟨by decide, by decide, by decide, _, rfl, by decide⟩

theorem witness_OneGiveEndsOneWait : (twoWaiters.withSchedule [.sequencer 0]).Wf ∧
    (twoWaiters.withSchedule [.sequencer 0]).NextIs (.sequencer 0) [] ∧ sequencerEnabled twoWaiters 0 = true ∧
    sequencerEnabled twoWaiters 1 = true ∧
    awaitedAxis Config.ex1 (twoWaiters.port 0) = awaitedAxis Config.ex1 (twoWaiters.port 1) ∧
    ∃ t, step (twoWaiters.withSchedule [.sequencer 0]) = .next t :=
  ⟨by decide, by decide, by decide, by decide, by decide, _, rfl⟩

theorem witness_TickOccursExactlyWhenEnabled : (boot [.tick 1]).Wf ∧ (boot [.tick 1]).cfg.timing = .untimed ∧
    (boot [.tick 1]).NextIs (.tick 1) [] ∧ 1 < Config.ex1.numAxes ∧ (State.reset.axis 1).force = false ∧
    (State.reset.axis 1).reload = 0#16 ∧ cruising.reload ≠ 0#16 ∧ (Axis.reset.mbWrite 0 0 0).force = true := by decide

theorem witness_TickLoadsPendingMailbox : configLegal Config.ex1 = true ∧ Axis.reset.mb.pend = false ∧
    (Axis.reset.mbWrite 5 0 0).mb.pend = true ∧ (Axis.reset.mbWrite 5 0 0).mb.acc = 0#32 ∧
    (Axis.reset.mbWrite 5 1 0).mb.acc ≠ 0#32 ∧ (Axis.reset.mbWrite 5 1 0).vel = 0#32 ∧
    (Axis.reset.mbWrite 5 1 0).mb.tgt ≠ 0#32 ∧ (cruising.mbWrite 5 1 0).vel ≠ 0#32 ∧
    (Axis.reset.mbWrite 0 1 0).mb.tgt = 0#32 := by decide

/-- The four paths: idle; below the period by one; at the period, ramped to a stop; at the period, moving. -/
theorem witness_TickPathAndStatus : Axis.reset.period = 0#32 ∧ cruising.period ≠ 0#32 ∧
    ({ cruising with reload := 4999#16 } : Axis).subTick = true ∧ cruising.subTick = false ∧
    (({ cruising with tgt := 0#32 } : Axis).ramp Config.ex1).vel = 0#32 ∧ (cruising.ramp Config.ex1).vel ≠ 0#32 := by decide

theorem witness_AccumulatorCarriesRemainder : AccumBounded cruising ∧ cruising.period ≠ 0#32 ∧
    ({ cruising with reload := 4999#16 } : Axis).accum.toNat + 4999 < cruising.period.toNat ∧
    cruising.period.toNat ≤ cruising.accum.toNat + cruising.reload.toNat := by decide

/-- An axis at 1.0 steps/s: 15 sub-ticks and then the boundary. -/
def slow : Axis := { Axis.reset with vel := 65536#32, tgt := 65536#32, reload := 65535#16, period := 1000000#32, mult := 3#16 }

theorem witness_SubTicksUntilTheBoundary : AccumBounded slow ∧ slow.mb.pend = false ∧ slow.period ≠ 0#32 ∧
    slow.accum.toNat + 15 * slow.reload.toNat < slow.period.toNat ∧
    slow.period.toNat ≤ slow.accum.toNat + (15 + 1) * slow.reload.toNat ∧ 1 ≤ 15 := by decide

/-- The `m` of RampFollowsItsRule in EX1. -/
def moved (x : Axis) : Int :=
  if x.vel.toInt < x.tgt.toInt then min x.tgt.toInt (x.vel.toInt + (x.accel.toNat * x.period.toNat / 1000000 : Nat))
  else max x.tgt.toInt (x.vel.toInt - (x.accel.toNat * x.period.toNat / 1000000 : Nat))

/-- An axis for each clause of the ramp: at the target; a snap; toward -200.0 below the floor and above it; toward 0, a
crawl, a stop and a slowing. -/
theorem witness_RampFollowsItsRule : configLegal Config.ex1 = true ∧ cruising.vel = cruising.tgt ∧
    ({ slow with tgt := 0#32 } : Axis).vel ≠ 0#32 ∧ slow.accel = 0#32 ∧
    (moved { slow with tgt := 0xFF380000#32, accel := 1#32 }).natAbs < max (2 ^ 16) ((0xFF380000#32).toInt.natAbs / 100) ∧
    max (2 ^ 16) ((0xFF380000#32).toInt.natAbs / 100) ≤ (moved { cruising with tgt := 0xFF380000#32, accel := 1#32 }).natAbs ∧
    (0xFF380000#32).toInt ≠ 0 ∧ (1#32 : Word) ≠ 0#32 ∧
    (moved { slow with tgt := 0#32, accel := 1#32, rem := 1#32 }).natAbs < 2 ^ 16 ∧ slow.rem = 0#32 ∧
    2 ^ 16 ≤ (moved { cruising with tgt := 0#32, accel := 1#32, rem := 1#32 }).natAbs := by decide

theorem witness_RampIsMonotone : configLegal Config.ex1 = true ∧ ScaleConsistent Config.ex1 { slow with tgt := 131072#32 } ∧
    (131072#32).toInt ≠ 0 ∧ 2 ^ 16 ≤ (131072#32).toInt.natAbs ∧ Int.sign (65536#32).toInt = Int.sign (131072#32).toInt ∧
    (65536#32).toInt.natAbs < (131072#32).toInt.natAbs ∧ slow.vel = slow.tgt ∧ slow.period ≠ 0#32 ∧ slow.subTick = true := by
  decide +kernel

theorem witness_StepCountFollowsItsRule : configLegal Config.ex1 = true ∧ cruising.rem = 0#32 ∧
    ({ cruising with rem := 2#32 } : Axis).rem ≠ 0#32 ∧ ({ cruising with rem := 2#32 } : Axis).rem ≠ 1#32 ∧
    ({ cruising with rem := 1#32 } : Axis).rem = 1#32 := by decide

theorem witness_PhaseOutFollowsItsRule : 0 < (1#32).toInt ∧ (0xFFFFFFFF#32).toInt < 0 ∧ (0#32).toInt = 0 := by decide

/-- An axis whose next tick takes the last step of a signalling sequence. -/
def lastStep : Axis := { cruising with total := 1#32, sig := true, rem := 1#32 }

theorem witness_SemaphoreGivenOnlyByFinishedSequence :
    ((withAxis fun _ => lastStep).withSchedule [.tick 0]).NextIs (.tick 0) [] ∧ lastStep.sem = false ∧
    ∃ t, step ((withAxis fun _ => lastStep).withSchedule [.tick 0]) = .next t ∧ (t.axis 0).sem = true :=
  ⟨by decide, by decide, _, rfl, by decide⟩

theorem witness_CountedSequenceMovesOncePerStep : configLegal Config.ex1 = true ∧ lastStep.mb.pend = false ∧
    lastStep.rem ≠ 0#32 := by decide

theorem witness_ClockEdgeFollowsItsRule : (timedReset.withSchedule [.clockEdge]).Wf ∧
    (timedReset.withSchedule [.clockEdge]).cfg.timing = .timed ∧
    (timedReset.withSchedule [.clockEdge]).NextIs .clockEdge [] ∧ 1 < Config.ex1.numAxes ∧
    (Axis.reset.mbWrite 0 0 0).force = true ∧ cruising.force = false ∧ cruising.reload ≠ 0#16 ∧
    cruising.reload.toNat ≤ (4999#16).toNat + 1 ∧ (4998#16).toNat + 1 < cruising.reload.toNat ∧
    Axis.reset.reload = 0#16 := by decide

theorem witness_ResetClearsEveryField : (boot [.reset]).NextIs .reset [] := by decide

theorem witness_ResetHasInvariant : configLegal Config.ex1 = true := by decide

theorem witness_StepKeepsInvariant : (boot [.tick 0]).Inv ∧ ∃ t, step (boot [.tick 0]) = .next t := ⟨by decide, _, rfl⟩

theorem witness_EveryStepGoesOn : configLegal Config.ex1 = true ∧ configLegal { Config.ex1 with axisLeft := 0 } = false ∧
    configLegal { Config.ex1 with numAxes := 1 } = false := by decide

/-- A step of each kind that the table speaks of: a mailbox write, a tick, a sequencer's take, an IDLE's write of OUT. -/
theorem witness_WriterTable :
    step (boot [cmd 0 0x3#32]) = .next (next (boot [cmd 0 0x3#32])) ∧
    (boot [cmd 0 0x3#32]).Issues (cmd 0 0x3#32) 0 0x3#32 ∧
    (boot [cmd 0 0x3#32]).NextIs (cmd 0 0x3#32) [] ∧ cmd 0 0x3#32 ≠ .reset ∧
    ((next (boot [cmd 0 0x3#32])).axis 0).mb ≠ (State.reset.axis 0).mb ∧ (State.reset.axis 0).force = false ∧
    ((next (boot [cmd 0 0x3#32])).axis 0).force = true ∧
    ((next ((withAxis fun x => x.mbWrite 0 0 0).withSchedule [.tick 0])).axis 0).force = false ∧
    ((next ((withAxis fun _ => lastStep).withSchedule [.tick 0])).axis 0).sem = true ∧
    (twoWaiters.axis 1).sem = true ∧ ((next (twoWaiters.withSchedule [.sequencer 0])).axis 1).sem = false ∧
    ((next ((withAxis fun x => { x with out := 9#4 }).withSchedule [cmd 0 0x3#32])).axis 0).out ≠ 9#4 := ⟨rfl, by decide⟩

theorem witness_PortRegistersAreItsOwn : (boot [cmd 0 0x3#32]).NextIs (cmd 0 0x3#32) [] ∧ cmd 0 0x3#32 ≠ .reset ∧
    cmd 0 0x3#32 ≠ .sequencer 1 ∧ ¬ (0 + 0x100 * (1 + 1) ≤ 0x100 * (0 + 1)) ∧
    step (boot [cmd 0 0x3#32]) = .next (next (boot [cmd 0 0x3#32])) :=
  ⟨by decide, by decide, by decide, by decide, rfl⟩

theorem witness_SnapshotKeptUntilStatus : (boot [cmd 0 0x105#32]).NextIs (cmd 0 0x105#32) [] ∧ cmd 0 0x105#32 ≠ .reset ∧
    ((next (boot [cmd 0 0x105#32])).port 0).snapA ≠ (State.reset.port 0).snapA ∧
    ((next (boot [cmd 0 0x15#32])).port 0).snapB ≠ (State.reset.port 0).snapB ∧
    step (boot [cmd 0 0x105#32]) = .next (next (boot [cmd 0 0x105#32])) :=
  ⟨by decide, by decide, by decide, by decide, rfl⟩

theorem witness_EnabledTickStaysEnabled : ((withAxis fun _ => cruising).withSchedule [.tick 1]).NextIs (.tick 1) [] ∧
    cruising.tickEnabled = true ∧ Event.tick 1 ≠ .tick 0 ∧ Event.tick 1 ≠ .clockEdge ∧ Event.tick 1 ≠ .reset ∧
    ∃ t, step ((withAxis fun _ => cruising).withSchedule [.tick 1]) = .next t :=
  ⟨by decide, by decide, by decide, by decide, by decide, _, rfl⟩

end Sys2Proof.Tests
end

section
/-! The invariant of the block, agent by agent (10_state.md R44 to R46). -/

namespace Sys2Proof.Machine

/-- What holds of every axis of the list holds of every axis index of the block, and conversely. -/
theorem State.forall_axes_iff {s : State} {P : Axis → Prop} :
    (∀ x ∈ s.axes, P x) ↔ ∀ a, a < s.axes.length → P (s.axis a) := by
  constructor
  · exact fun h a ha => h _ (State.axis_mem ha)
  · intro h x hx
    obtain ⟨a, ha, rfl⟩ := List.mem_iff_getElem.1 hx
    simpa [State.axis, ha] using h a ha

theorem AccessEffect.keeps_wf {k : Access} {s t : State} (h : AccessEffect k s t) (hs : s.Wf) : t.Wf := by
  obtain ⟨legal, axes, ports, issuer, programs⟩ := hs
  refine ⟨?_, ?_, ?_, ?_, ?_⟩ <;> rw [h.cfg]
  · exact legal
  · exact h.axes.trans axes
  · exact h.ports.trans ports
  · exact h.issuer.elim (fun he => he ▸ issuer) id
  · exact h.programs.trans programs

/-- An access leaves every axis alone, or as a command leaves it. -/
theorem AccessEffect.keeps_axisInv {k : Access} {s t : State} (h : AccessEffect k s t)
    (hs : ∀ x ∈ s.axes, AxisInv s.cfg x) : ∀ x ∈ t.axes, AxisInv t.cfg x := by
  rw [h.cfg]
  obtain hsame | ⟨p, w, i, -, -, -, -, hcmd⟩ := h.axis
  · rwa [hsame]
  · rw [State.forall_axes_iff] at hs ⊢
    exact fun a ha => (hcmd a).inv _ (hs a (h.axes ▸ ha))

theorem AccessEffect.keeps_inv {k : Access} {s t : State} (h : AccessEffect k s t) (hs : s.Inv) : t.Inv :=
  ⟨h.keeps_wf hs.1, h.keeps_axisInv hs.2.1, h.inv hs.2.2⟩

/-- A sequencer clears a semaphore, which the axis invariant does not speak of, and ends or holds its own port. -/
theorem inv_sequencerStep (p : Nat) {s : State} (hs : s.Inv) : (sequencerStep p s).Inv := by
  obtain ⟨-, h⟩ | ⟨-, a, f, -, -, h, hf⟩ := sequencerStep_cases p s
  · rwa [h]
  · obtain ⟨hwf, haxes, hports⟩ := hs
    have hport : PortInv s.cfg (f (s.port p)) := by
      obtain rfl | rfl := hf
      · exact portInv_complete _ _ (by decide)
      · exact portInv_hold (by decide) nofun
    have hframe : SameBut [a] [p] s (sequencerStep p s) := by
      rw [h]
      exact (SameBut.modAxis s a _).trans (SameBut.modPort _ p f)
    refine ⟨hframe.wf hwf, ?_, ?_⟩
    · rw [h]
      exact State.forall_axes_modAxis (f := fun x => { x with sem := false }) haxes (fun hx => hx)
    · rw [h]
      exact portsInv_modPort (s := takeSem a s) hports (fun _ => hport)

theorem inv_tickStep (a : Nat) {s : State} (hs : s.Inv) : (tickStep a s).Inv := by
  unfold tickStep
  split
  · obtain ⟨hwf, haxes, hports⟩ := hs
    exact ⟨(SameBut.modAxis s a _).wf hwf, State.forall_axes_modAxis haxes (axisInv_tick hwf.1), hports⟩
  · exact hs

theorem inv_clockStep {s : State} (hs : s.Inv) : (clockStep s).Inv := by
  unfold clockStep
  split
  · obtain ⟨⟨legal, axes, hwf⟩, haxes, hports⟩ := hs
    refine ⟨⟨legal, (List.length_map _).trans axes, hwf⟩, ?_, hports⟩
    exact List.forall_mem_map.2 fun x hx => axisInv_clockEdge legal (haxes x hx)
  · exact hs

theorem axisInv_reset (c : Config) : AxisInv c Axis.reset := by
  simp [AxisInv, ScaleConsistent, AccumBounded, CountsInRange, Axis.reset, Mailbox.reset]

theorem portInv_reset (c : Config) : PortInv c Port.reset := by
  simp [PortInv, Port.reset, ResultCode.code]

theorem wf_resetWith {c : Config} (hc : configLegal c = true) : (State.resetWith c).Wf := by
  have hports : 0 < c.numPorts := ((configLegal_iff c).1 hc).2.1.1
  exact ⟨hc, List.length_replicate, List.length_replicate, hports, List.length_replicate⟩

/-- The state of a legal configuration right after reset (70_reset_and_hazards.md R220) meets the invariant. -/
theorem inv_resetWith {c : Config} (hc : configLegal c = true) : (State.resetWith c).Inv := by
  refine ⟨wf_resetWith hc, fun x hx => ?_, fun q hq => ?_⟩
  · rw [List.eq_of_mem_replicate hx]
    exact axisInv_reset c
  · rw [List.eq_of_mem_replicate hq]
    exact portInv_reset c

/-- Reset keeps the hosts' programs, so there is still one per port. -/
theorem inv_resetStep {s : State} (hs : s.Inv) : (resetStep s).Inv := by
  obtain ⟨⟨legal, -, -, -, programs⟩, -, -⟩ := hs
  obtain ⟨⟨-, axes, ports, issuer, -⟩, hinv⟩ := inv_resetWith legal
  exact ⟨⟨legal, axes, ports, issuer, programs⟩, hinv⟩

theorem step_nil {s : State} (hc : configLegal s.cfg = true) (h : s.schedule = []) : step s = .next s := by
  unfold step
  rw [if_pos hc, h]

/-- Settles O55: each agent's step keeps the invariant, and `step_cases` says that a step is one agent's. -/
theorem stepKeepsInvariant : Obligations.StepKeepsInvariant := by
  unfold Obligations.StepKeepsInvariant
  intro s t hs hstep
  have legal : configLegal s.cfg = true := hs.1.1
  cases hsch : s.schedule with
  | nil =>
    cases (step_nil legal hsch).symm.trans hstep
    exact hs
  | cons e rest =>
    have hs' : (s.withSchedule rest).Inv := hs
    obtain ⟨k, -, h⟩ | ⟨p, -, -, rfl⟩ | ⟨p, -, rfl⟩ | ⟨a, -, rfl⟩ | ⟨-, rfl⟩ | ⟨-, rfl⟩ :=
      step_cases ⟨legal, hsch⟩ hstep
    · exact h.keeps_inv hs'
    · exact hs'
    · exact inv_sequencerStep p hs'
    · exact inv_tickStep a hs'
    · exact inv_clockStep hs'
    · exact inv_resetStep hs'

end Sys2Proof.Machine
end

section
/-! What a command leaves alone (10_state.md R47, 60_exceptions.md R205). -/

namespace Sys2Proof.Machine

/-- A command that writes OUT is an IDLE, which writes a mailbox too (41_axis_controller.md R122). -/
theorem writesOut_eq_false_of_writesMailbox {i : Instr} (h : writesMailbox i = false) : writesOut i = false := by
  revert h
  cases i <;> simp [writesMailbox, writesOut]

/-- A command that writes neither a mailbox nor OUT does nothing to an axis. -/
theorem AxisCommanded.eq_of_noWrites {x y : Axis} (h : AxisCommanded false false x y) : y = x := by
  have hmb : y.mb = x.mb := h.mail.resolve_right (by simp)
  have hforce : y.force = x.force := h.force.resolve_right (by simp)
  have hout : y.out = x.out := h.out.resolve_right (by simp)
  rw [h.frame, hmb, hforce, hout]

/-- The axes of two states are the same when each reads the same. -/
theorem State.axes_ext {s t : State} (hlen : t.axes.length = s.axes.length) (h : ∀ a, t.axis a = s.axis a) :
    t.axes = s.axes :=
  List.ext_getElem hlen fun a ht hs => by simpa [State.axis, ht, hs] using h a

theorem Commanded.axes_eq {p : Nat} {s t : State} (h : Commanded false false p s t) : t.axes = s.axes :=
  State.axes_ext h.axes fun a => (h.axis a).eq_of_noWrites

/-- The region of the window in which a register's word lies (20_memory.md R60 to R62): 0 for the global registers,
p + 1 for port p's. -/
def Reg.region : Reg → Nat
  | .global _ => 0
  | .port p _ => p + 1

/-- A register word lies whole in its region, so each of its bytes does. -/
theorem regAt_region {c : Config} {off : Nat} {r : Reg} (h : regAt c (off - off % 4) = some r) :
    off / 0x100 = r.region := by
  obtain ⟨hoff, -⟩ := regAt_some h
  cases r with
  | global g =>
    have := g.offset_lt
    simp only [Reg.offset, Reg.region] at hoff ⊢
    omega
  | port p g =>
    have := g.offset_lt
    simp only [Reg.offset, Reg.region] at hoff ⊢
    omega

theorem readReg_congr {s t : State} {p : Nat} {r : Reg} (hcfg : t.cfg = s.cfg)
    (hport : ∀ q, q ≠ p → t.port q = s.port q) (hr : r.region ≠ p + 1) : readReg t r = readReg s r := by
  cases r with
  | global g => simp only [readReg, hcfg]
  | port q g => simp only [readReg, hport q (fun hq => hr (congrArg (· + 1) hq))]

/-- The window shows only the configuration and the ports: outside port p's region it reads the same when no other
port changed. -/
theorem windowByte_congr {s t : State} {p off : Nat} (hcfg : t.cfg = s.cfg)
    (hport : ∀ q, q ≠ p → t.port q = s.port q) (hoff : off / 0x100 ≠ p + 1) : windowByte t off = windowByte s off := by
  unfold windowByte
  rw [hcfg]
  cases hreg : regAt s.cfg (off - off % 4) with
  | none => rfl
  | some r =>
    have hr : r.region ≠ p + 1 := regAt_region hreg ▸ hoff
    rw [Option.map_some, Option.map_some, readReg_congr hcfg hport hr]

/-- Settles O27: what `exec_commanded` says of every command, with the axes whole when it writes no mailbox and the
window read through the ports. -/
theorem commandFrame : Obligations.CommandFrame := by
  unfold Obligations.CommandFrame
  intro i s t hexec
  obtain ⟨u, hu, h⟩ := exec_commanded i s
  cases hu.symm.trans hexec
  refine ⟨h.cfg, h.issuer, h.schedule, h.resp, h.programs, h.axes, h.ports, h.port, fun a => (h.axis a).frame,
    fun hm => ?_, fun ho a => ?_, fun off => windowByte_congr h.cfg h.port⟩
  · rw [hm, writesOut_eq_false_of_writesMailbox hm] at h
    exact h.axes_eq
  · exact (h.axis a).out.resolve_right (by simp [ho])

end Sys2Proof.Machine
end

section
/-! Who writes a port and an axis: the step of each agent, seen from one of them (10_state.md R47). -/

namespace Sys2Proof.Machine

@[simp] theorem performs_withSchedule (s : State) (l : List Event) (e : Event) :
    (s.withSchedule l).performs e = s.performs e := by
  cases e <;> rfl

/-- A sequencer's step changes no port but its own. -/
theorem port_sequencerStep_ne {p q : Nat} (s : State) (h : q ≠ p) : (sequencerStep p s).port q = s.port q := by
  obtain ⟨-, hs⟩ | ⟨-, a, f, -, -, hs, -⟩ := sequencerStep_cases p s
  · rw [hs]
  · rw [hs, State.port_modPort_ne h]
    rfl

@[simp] theorem port_tickStep (a q : Nat) (s : State) : (tickStep a s).port q = s.port q := by
  unfold tickStep
  split <;> rfl

@[simp] theorem port_clockStep (q : Nat) (s : State) : (clockStep s).port q = s.port q := by
  unfold clockStep
  split <;> rfl

/-- Settles O58: of the agents, a host writes a port in its region only, a sequencer its own, and no tick any. -/
theorem portRegistersAreItsOwn : Obligations.PortRegistersAreItsOwn := by
  unfold Obligations.PortRegistersAreItsOwn
  intro s t e rest p hnext hstep hreset hseq hwrite
  obtain ⟨k, hk, h⟩ | ⟨_, -, -, rfl⟩ | ⟨q, rfl, rfl⟩ | ⟨a, -, rfl⟩ | ⟨-, rfl⟩ | ⟨he, -⟩ := step_cases hnext hstep
  · obtain hsame | ⟨addr, width, v, rfl, hregion⟩ := h.port p
    · exact hsame
    · exact absurd hregion (hwrite addr width v hk)
  · rfl
  · exact port_sequencerStep_ne _ (fun hpq => hseq (congrArg _ hpq.symm))
  · exact port_tickStep ..
  · exact port_clockStep ..
  · exact absurd he hreset

/-- A sequencer does nothing to an axis but take its semaphore (20_memory.md R73). -/
theorem axis_sequencerStep (p a : Nat) (s : State) :
    (sequencerStep p s).axis a = s.axis a ∨ (sequencerStep p s).axis a = { s.axis a with sem := false } := by
  obtain ⟨-, hs⟩ | ⟨-, b, f, -, -, hs, -⟩ := sequencerStep_cases p s
  · exact .inl (by rw [hs])
  · rw [hs, State.axis_modPort, axis_takeSem]
    by_cases hab : a = b
    · exact .inr (by simp [hab])
    · exact .inl (by simp [hab])

/-- What a step that is not reset can do to axis `a`, by the agent: nothing; what a command that a port issues does; a
sequencer's take of the semaphore; a tick, or a clock edge, which ticks the axis or moves the timer count only. -/
inductive AxisStep (s : State) (e : Event) (a : Nat) (y : Axis) : Prop where
  | same (h : y = s.axis a)
  | command {p : Nat} {w : Word} {i : Instr} (hissue : s.Issues e p w) (hdec : decode w = .ok i)
      (h : AxisCommanded (writesMailbox i) (writesOut i) (s.axis a) y)
  | take (p : Nat) (he : e = .sequencer p) (h : y = { s.axis a with sem := false })
  | tick (n : BitVec 16) (he : e = .tick a ∨ e = .clockEdge) (h : y = { (s.axis a).tick s.cfg with tcnt := n })
  | count (n : BitVec 16) (he : e = .clockEdge) (h : y = { s.axis a with tcnt := n })

/-- `step_cases`, seen from one axis. -/
theorem axisStep_of_step {s t : State} {e : Event} {rest : List Event} (a : Nat) (hnext : s.NextIs e rest)
    (hstep : step s = .next t) (hreset : e ≠ .reset) : AxisStep s e a (t.axis a) := by
  obtain ⟨k, hk, h⟩ | ⟨_, -, -, rfl⟩ | ⟨p, he, rfl⟩ | ⟨b, he, rfl⟩ | ⟨he, rfl⟩ | ⟨he, -⟩ := step_cases hnext hstep
  · obtain hsame | ⟨p, w, i, rfl, hp, hbusy, hdec, hcmd⟩ := h.axis
    · exact .same (congrArg (·.getD a Axis.reset) hsame)
    · exact .command ⟨hk, hp, hbusy⟩ hdec (hcmd a)
  · exact .same rfl
  · obtain hsame | htake := axis_sequencerStep p a (s.withSchedule rest)
    · exact .same hsame
    · exact .take p he htake
  · obtain hsame | ⟨rfl, htick⟩ := axis_tickStep b a (s.withSchedule rest)
    · exact .same hsame
    · exact .tick _ (.inl he) htick
  · obtain hsame | ⟨-, -, hedge⟩ := axis_clockStep a (s.withSchedule rest)
    · exact .same hsame
    · obtain htick | ⟨n, hcount⟩ := clockEdge_cases s.cfg (s.axis a)
      · exact .tick _ (.inr he) (hedge.trans htick)
      · exact .count n he (hedge.trans hcount)
  · exact absurd he hreset

/-- A port issues, by the step of `e`, a command of the kind `writes`. -/
abbrev State.IssuesWriter (s : State) (e : Event) (writes : Instr → Bool) : Prop :=
  ∃ p w i, s.Issues e p w ∧ decode w = .ok i ∧ writes i = true

section
variable {s : State} {e : Event} {a : Nat} {y : Axis}

/-- Motion fields and LAST: written by a tick only. -/
theorem AxisStep.motion (h : AxisStep s e a y) (htick : e ≠ .tick a) (hedge : e ≠ .clockEdge) :
    y = { s.axis a with mb := y.mb, sem := y.sem, force := y.force, out := y.out } := by
  cases h with
  | same h => rw [h]
  | command _ _ h => rw [h.frame]
  | take _ _ h => rw [h]
  | tick _ he _ => exact absurd he (not_or.2 ⟨htick, hedge⟩)
  | count _ he _ => exact absurd he hedge

/-- The mailbox: filled by a command that writes mailboxes, its pending flag cleared by a tick. -/
theorem AxisStep.mb (h : AxisStep s e a y) (hne : y.mb ≠ (s.axis a).mb) :
    ((e = .tick a ∨ e = .clockEdge) ∧ y.mb = { (s.axis a).mb with pend := false }) ∨
      (y.mb.pend = true ∧ s.IssuesWriter e writesMailbox) := by
  cases h with
  | same h | take _ _ h | count _ _ h => exact absurd (congrArg _ h) hne
  | command hissue hdec h =>
    obtain ⟨hm, hpend⟩ := h.mail.resolve_left hne
    exact .inr ⟨hpend, _, _, _, hissue, hdec, hm⟩
  | tick _ he h =>
    obtain ⟨-, hmb, -⟩ := tick_frame s.cfg (s.axis a)
    exact .inl ⟨he, by rw [h, ← hmb]⟩

/-- FORCE is set by a command that writes mailboxes, on a stopped timer. -/
theorem AxisStep.force_set (h : AxisStep s e a y) (hx : (s.axis a).force = false) (hy : y.force = true) :
    (s.axis a).reload = 0#16 ∧ s.IssuesWriter e writesMailbox := by
  have hne : y.force ≠ (s.axis a).force := by simp [hx, hy]
  cases h with
  | same h | take _ _ h | count _ _ h => exact absurd (congrArg _ h) hne
  | command hissue hdec h =>
    obtain ⟨hm, hreload, -⟩ := h.force.resolve_left hne
    exact ⟨hreload, _, _, _, hissue, hdec, hm⟩
  | tick _ _ h =>
    obtain ⟨hforce, -⟩ := tick_frame s.cfg (s.axis a)
    rw [h] at hy
    exact absurd (hforce.symm.trans hy) (by decide)

/-- FORCE is cleared by a tick only. -/
theorem AxisStep.force_clear (h : AxisStep s e a y) (hx : (s.axis a).force = true) (hy : y.force = false) :
    e = .tick a ∨ e = .clockEdge := by
  have hne : y.force ≠ (s.axis a).force := by simp [hx, hy]
  cases h with
  | same h | take _ _ h => exact absurd (congrArg _ h) hne
  | command _ _ h =>
    obtain ⟨-, -, hset⟩ := h.force.resolve_left hne
    exact absurd (hy.symm.trans hset) (by decide)
  | tick _ he _ => exact he
  | count _ he _ => exact .inr he

/-- SEM is given by a tick only. -/
theorem AxisStep.sem_give (h : AxisStep s e a y) (hx : (s.axis a).sem = false) (hy : y.sem = true) :
    e = .tick a ∨ e = .clockEdge := by
  have hne : y.sem ≠ (s.axis a).sem := by simp [hx, hy]
  cases h with
  | same h => exact absurd (congrArg _ h) hne
  | command _ _ h => exact absurd (congrArg Axis.sem h.frame) hne
  | take _ _ h => exact absurd ((congrArg Axis.sem h).symm.trans hy) Bool.false_ne_true
  | tick _ he _ => exact he
  | count _ he _ => exact .inr he

/-- SEM is taken by a sequencer only. -/
theorem AxisStep.sem_take (h : AxisStep s e a y) (hx : (s.axis a).sem = true) (hy : y.sem = false) :
    ∃ p, e = .sequencer p := by
  have hne : y.sem ≠ (s.axis a).sem := by simp [hx, hy]
  cases h with
  | same h | count _ _ h => exact absurd (congrArg _ h) hne
  | command _ _ h => exact absurd (congrArg Axis.sem h.frame) hne
  | take p he _ => exact ⟨p, he⟩
  | tick _ _ h =>
    have hkept : ((s.axis a).tick s.cfg).sem = true := tick_sem hx
    rw [h] at hy
    exact absurd (hy.symm.trans hkept) (by decide)

/-- OUT: driven by a tick, switched off by IDLE or PIDLE. -/
theorem AxisStep.out (h : AxisStep s e a y) (hne : y.out ≠ (s.axis a).out) :
    e = .tick a ∨ e = .clockEdge ∨ (y.out = 0#4 ∧ s.IssuesWriter e writesOut) := by
  cases h with
  | same h | take _ _ h => exact absurd (congrArg _ h) hne
  | command hissue hdec h =>
    obtain ⟨ho, hoff⟩ := h.out.resolve_left hne
    exact .inr (.inr ⟨hoff, _, _, _, hissue, hdec, ho⟩)
  | tick _ he _ => exact he.imp_right .inl
  | count _ he _ => exact .inr (.inl he)

end

/-- Settles O57: the rows of the table are the seven facts about `AxisStep`. -/
theorem writerTable : Obligations.WriterTable := by
  unfold Obligations.WriterTable
  intro s t e rest a hnext hstep hreset
  have h := axisStep_of_step a hnext hstep hreset
  exact ⟨h.motion, h.mb, h.force_set, h.force_clear, h.sem_give, h.sem_take, h.out⟩

end Sys2Proof.Machine
end

section
/-! The accesses of the register window, as steps (20_memory.md R60 to R69, R76). -/

namespace Sys2Proof.Machine

theorem step_access {s : State} {k : Access} {rest : List Event} (h : s.NextIs (.access k) rest) :
    step s = hostAccess k (s.withSchedule rest) :=
  step_next h

/-- Two updates of one port are one. -/
theorem State.modPort_modPort (s : State) (p : Nat) (f g : Port → Port) :
    (s.modPort p f).modPort p g = s.modPort p (fun q => g (f q)) := by
  by_cases hp : p < s.ports.length
  · have hset : ∀ q, (s.setPort p q).modPort p g = s.setPort p (g q) := fun q => by
      simp [State.modPort, State.setPort, State.port, hp]
    exact hset _
  · simp only [State.port_modPort_of_not_lt hp]

/-! ### Reads and writes of registers -/

@[simp] theorem readReg_withSchedule (s : State) (l : List Event) (r : Reg) :
    readReg (s.withSchedule l) r = readReg s r := by
  cases r <;> rfl

theorem step_read {s : State} {r : Reg} {rest : List Event} (hr : r.Mapped s.cfg)
    (hnext : s.NextIs (.access (.read (s.cfg.base + r.offset) 32)) rest) :
    step s = .next ((s.withSchedule rest).respond (.data (readReg s r))) := by
  rw [step_access hnext, ← readReg_withSchedule s rest]
  exact hostAccess_read (s := s.withSchedule rest) hnext.1 hr

theorem step_write {s : State} {r : Reg} {v : Word} {rest : List Event} (hr : r.Mapped s.cfg)
    (hnext : s.NextIs (.access (.write (s.cfg.base + r.offset) 32 v)) rest) :
    step s = writeReg v ((s.withSchedule rest).respond .written) r :=
  (step_access hnext).trans (hostAccess_write (s := s.withSchedule rest) v hnext.1 hr)

theorem step_command {s : State} {p : Nat} {w : Word} {rest : List Event} (hp : p < s.cfg.numPorts)
    (hnext : s.NextIs (.access (.write (s.cfg.base + 0x100 * (p + 1)) 32 w)) rest) :
    step s = writeCommand p w ((s.withSchedule rest).respond .written) :=
  step_write (r := .port p .cmd) hp hnext

/-- Settles O10: a mapped register is found at its offset, and the rows of `portMap` are registers. -/
theorem readReturnsRegister : Obligations.ReadReturnsRegister := by
  unfold Obligations.ReadReturnsRegister
  refine ⟨fun s r rest hr hnext => step_read hr hnext, fun s p off r word rest hp hrow hnext => ?_, portMap_covers⟩
  obtain ⟨rfl, rfl⟩ := portMap_eq hrow
  exact step_read (r := .port p r) hp hnext

/-- Settles O12: the offset is that of the row's register, whose write is `Port.writePlain`. -/
theorem plainWriteChangesOnlyItsRegister : Obligations.PlainWriteChangesOnlyItsRegister := by
  unfold Obligations.PlainWriteChangesOnlyItsRegister
  intro s p off r word v rest hwf hp hcmd hrow hnext
  obtain ⟨rfl, -⟩ := portMap_eq hrow
  obtain ⟨-, -, ports, -, -⟩ := hwf
  have hport : (((s.withSchedule rest).respond .written).modPort p (fun q => q.writePlain v r)).port p =
      (s.port p).writePlain v r :=
    State.port_modPort_self (s := (s.withSchedule rest).respond .written) (ports ▸ hp) _
  refine ⟨_, (step_write (r := .port p r) hp hnext).trans (writeReg_plain v _ hcmd), SameBut.modPort _ p _, ?_⟩
  rw [hport]
  cases r <;> simp [Port.writePlain, Port.writePstat, Port.writePctl]

/-! ### Commands -/

theorem writeCommand_busy {s : State} {p : Nat} (w : Word) (hbusy : (s.port p).busy = true) :
    writeCommand p w s = .next (s.modPort p (fun q => { q with cmd := w, overrun := true })) := by
  rw [writeCommand, if_pos hbusy, latchCommand, State.modPort_modPort]

theorem writeCommand_idle {s : State} {p : Nat} {w : Word} {i : Instr} (hbusy : (s.port p).busy = false)
    (hdec : decode w = .ok i) :
    writeCommand p w s = exec i ((s.modPort p (fun q => { q with cmd := w })).withIssuer p) := by
  rw [writeCommand, if_neg (by simp [hbusy]), issue, hdec, latchCommand]

theorem writeCommand_error {s : State} {p : Nat} {w : Word} {e : DecodeError} (hbusy : (s.port p).busy = false)
    (hdec : decode w = .error e) : writeCommand p w s =
      .next (complete p (errorCode e) ((s.modPort p (fun q => { q with cmd := w })).withIssuer p)) := by
  rw [writeCommand, if_neg (by simp [hbusy]), issue, hdec, latchCommand]

/-- Settles O8: the latched word and OVERRUN are one update of the port. -/
theorem busyPortDropsCommand : Obligations.BusyPortDropsCommand := by
  unfold Obligations.BusyPortDropsCommand
  intro s p w rest hwf hnext hp hbusy
  obtain ⟨-, -, ports, -, -⟩ := hwf
  exact ⟨_, (step_command hp hnext).trans (writeCommand_busy w hbusy), SameBut.modPort _ p _,
    State.port_modPort_self (s := (s.withSchedule rest).respond .written) (ports ▸ hp) _⟩

/-- Settles O6: a decodable word written to an idle port is issued. -/
theorem stepRunsDecodedCommand : Obligations.StepRunsDecodedCommand := by
  unfold Obligations.StepRunsDecodedCommand
  intro s p w i rest hnext hp hbusy hdec
  exact (step_command hp hnext).trans (writeCommand_idle hbusy hdec)

/-! ### Bus errors -/

theorem regAt_of_unmapped {c : Config} {off : Nat} (h : Unmapped c off) : regAt c off = none := by
  obtain ⟨hlt, hge⟩ | ⟨hge, hport | hhole⟩ := h
  · rw [regAt_global hlt, globalRegAt_none hge, Option.map_none]
  · exact regAt_no_port hge hport
  · exact regAt_port_hole hge hhole

/-- Settles O9: the access check answers the bus error, and an access so answered does nothing else. -/
theorem busErrorHasNoEffect : Obligations.BusErrorHasNoEffect := by
  unfold Obligations.BusErrorHasNoEffect
  intro s off width v rest hoff hbad
  obtain ⟨hread, hwrite⟩ := hostAccess_error (s := s.withSchedule rest) hoff
    (hbad.imp_right (·.imp_right regAt_of_unmapped))
  exact ⟨fun hnext => (step_access hnext).trans hread, fun hnext => (step_access hnext).trans (hwrite v)⟩

/-! ### The global region -/

/-- A field placed above the bits in use is added. -/
theorem ofNat_or_place {n lo k : Nat} (v : BitVec n) (hk : k < 2 ^ lo) :
    BitVec.ofNat 32 k ||| place v lo = BitVec.ofNat 32 (k + 2 ^ lo * v.toNat) := by
  have hplace : place v lo = BitVec.ofNat 32 (2 ^ lo * v.toNat) := by
    apply BitVec.eq_of_toNat_eq
    simp [place, Nat.shiftLeft_eq, Nat.mul_comm]
  rw [hplace, ← BitVec.ofNat_or, Nat.or_comm, ← Nat.two_pow_add_eq_or_of_lt hk, Nat.add_comm]

/-- CONFIG as the number of its fields (20_memory.md R61): the parameters of a legal configuration fit them. -/
theorem configWord_eq {c : Config} (hc : configLegal c = true) : configWord c =
    BitVec.ofNat 32 (c.numAxes + 16 * c.numPorts + 256 * c.axisRight + 4096 * c.axisLeft) := by
  obtain ⟨⟨-, axes⟩, ⟨-, ports⟩, -, -, ⟨right, left, -⟩, -⟩ := (configLegal_iff c).1 hc
  have fits : ∀ {k : Nat}, k < 16 → (BitVec.ofNat 4 k).toNat = k := fun hk => Nat.mod_eq_of_lt hk
  have haxes : place (BitVec.ofNat 4 c.numAxes) 0 = BitVec.ofNat 32 c.numAxes := by
    have h := ofNat_or_place (k := 0) (lo := 0) (BitVec.ofNat 4 c.numAxes) (by decide)
    simpa [fits (show c.numAxes < 16 by omega)] using h
  rw [configWord, haxes, ofNat_or_place _ (by omega), fits (by omega), ofNat_or_place _ (by omega), fits (by omega),
    ofNat_or_place _ (by omega), fits (by omega)]
  rfl

/-- The register map of the global region (20_memory.md R61), written out: each offset and what it reads as. -/
def globalMap (c : Config) : List (Nat × Word) :=
  [(0x000, 0x57534D43#32), (0x004, 0x00070001#32),
    (0x008, BitVec.ofNat 32 (c.numAxes + 16 * c.numPorts + 256 * c.axisRight + 4096 * c.axisLeft)),
    (0x00C, BitVec.ofNat 32 c.clkHz), (0x010, BitVec.ofNat 32 c.velEps), (0x014, BitVec.ofNat 32 c.kTurn),
    (0x018, BitVec.ofNat 32 c.stepsPerM), (0x01C, BitVec.ofNat 32 c.vmax), (0x020, c.phaseTable)]

/-- Each row of the written-out global map is a register's offset and what it reads as. -/
theorem globalMap_rows {c : Config} (hc : configLegal c = true) :
    ∀ row ∈ globalMap c, ∃ g : GlobalReg, row = (g.offset, readGlobal c g) := by
  rw [globalMap, ← configWord_eq hc]
  simp only [List.forall_mem_cons]
  exact ⟨⟨.id, rfl⟩, ⟨.version, rfl⟩, ⟨.config, rfl⟩, ⟨.clkHz, rfl⟩, ⟨.velEps, rfl⟩, ⟨.kTurn, rfl⟩, ⟨.stepsPerM, rfl⟩,
    ⟨.vmax, rfl⟩, ⟨.phaseTable, rfl⟩, nofun⟩

/-- Settles O11: the rows of the table are the global registers. -/
theorem globalRegionReadsConfiguration : Obligations.GlobalRegionReadsConfiguration := by
  unfold Obligations.GlobalRegionReadsConfiguration
  intro s rest off value v hrow
  have hreg : configLegal s.cfg = true → ∃ g : GlobalReg, off = g.offset ∧ value = readGlobal s.cfg g := fun hc =>
    (globalMap_rows hc _ hrow).imp fun _ => Prod.mk.inj
  refine ⟨fun hnext => ?_, fun hnext => ?_, fun o hge hlt => regAt_of_unmapped (.inl ⟨hlt, hge⟩)⟩
  · obtain ⟨g, rfl, rfl⟩ := hreg hnext.1
    exact step_read (r := .global g) trivial hnext
  · obtain ⟨g, rfl, -⟩ := hreg hnext.1
    exact step_write (r := .global g) trivial hnext

end Sys2Proof.Machine
end

section
/-! The layout of the packed words: where a placed field lies and what lies beside it (20_memory.md R62 to R64). -/

namespace Sys2Proof.Machine

/-- A placed field reads back at its place. -/
theorem extractLsb'_place_self {n lo : Nat} (v : BitVec n) (h : lo + n ≤ 32) : (place v lo).extractLsb' lo n = v := by
  apply BitVec.eq_of_getLsbD_eq
  intro i hi
  simp [hi, show lo + i < 32 by omega]

/-- A placed field leaves the bits beside it 0. -/
theorem getLsbD_place_disjoint {n lo i : Nat} (v : BitVec n) (h : i < lo ∨ lo + n ≤ i) :
    (place v lo).getLsbD i = false := by
  rw [getLsbD_place]
  obtain h | h := h
  · simp [Nat.not_le.2 h]
  · simp [show n ≤ i - lo by omega]

theorem extractLsb'_place_disjoint {n lo start len : Nat} (v : BitVec n) (h : start + len ≤ lo ∨ lo + n ≤ start) :
    (place v lo).extractLsb' start len = 0#len := by
  apply BitVec.eq_of_getLsbD_eq
  intro i hi
  have hbit : (place v lo).getLsbD (start + i) = false := getLsbD_place_disjoint v (by omega)
  rw [BitVec.getLsbD_extractLsb', hbit, Bool.and_false, BitVec.getLsbD_zero]

/-- Settles O13: each bit and field of PSTAT and PCTL is one placed field, and the other fields lie beside it. -/
theorem portFlagWordsAsRead : Obligations.PortFlagWordsAsRead := by
  unfold Obligations.PortFlagWordsAsRead
  intro q
  simp only [Port.read, Port.pstatWord, Port.pctlWord, BitVec.getLsbD_or, BitVec.extractLsb'_or]
  refine ⟨?_, ?_, ?_, ?_, ?_, fun i hi => ?_, ?_, fun i hi => ?_, rfl, rfl, rfl, rfl⟩
  · simp
  · simp
  · simp
  · simp (disch := omega) [extractLsb'_place_self, extractLsb'_place_disjoint]
  · simp (disch := omega) [extractLsb'_place_self, extractLsb'_place_disjoint]
  · simp (disch := omega) only [getLsbD_place_disjoint, Bool.or_false]
  · simp
  · exact getLsbD_place_disjoint _ (.inr (by omega))

/-- Settles O14: each bit and field of word 11 is one placed field, and the other fields lie beside it. -/
theorem snapshotHoldsTheAxis : Obligations.SnapshotHoldsTheAxis := by
  unfold Obligations.SnapshotHoldsTheAxis
  intro a x ha
  refine ⟨rfl, ?_⟩
  simp only [Axis.flagsWord, BitVec.getLsbD_or, BitVec.extractLsb'_or]
  refine ⟨?_, ?_, ?_, ?_, ?_, ?_, ?_, ?_, ?_, ?_, ?_, ?_, rfl, rfl, rfl, rfl⟩
  all_goals simp (disch := omega) [extractLsb'_place_self, extractLsb'_place_disjoint, ha]

/-- Settles O15: the offsets of the four bytes of a register's word round down to the register's own. -/
theorem windowIsLittleEndian : Obligations.WindowIsLittleEndian := by
  unfold Obligations.WindowIsLittleEndian
  intro s r k hc hr hk
  obtain ⟨-, aligned⟩ := Reg.offset_lt hc hr
  have hbyte : (r.offset + k) % 4 = k := by omega
  rw [windowByte, hbyte, Nat.add_sub_cancel, regAt_offset hr, Option.map_some, wordByte]

end Sys2Proof.Machine
end

section
/-! Who writes a snapshot window (20_memory.md R68). -/

namespace Sys2Proof.Machine

/-- `t` reads the field `g` of every port as `s` does. -/
def KeepsPortField {α : Type} (g : Port → α) (s t : State) : Prop := ∀ p, g (t.port p) = g (s.port p)

section
variable {α : Type} {g : Port → α}

theorem KeepsPortField.refl (s : State) : KeepsPortField g s s := fun _ => rfl

theorem KeepsPortField.trans {s t u : State} (h1 : KeepsPortField g s t) (h2 : KeepsPortField g t u) :
    KeepsPortField g s u := fun p => (h2 p).trans (h1 p)

theorem KeepsPortField.modPort (s : State) (p : Nat) {f : Port → Port} (hf : ∀ q, g (f q) = g q) :
    KeepsPortField g s (s.modPort p f) := fun q => by
  rw [State.port_modPort]
  split
  · rename_i hq
    rw [hf, hq.1]
  · rfl

end

/-- Both snapshot windows of a port (20_memory.md R63). -/
def Port.snaps (q : Port) : Vector Word 16 × Vector Word 16 := (q.snapA, q.snapB)

theorem Port.snaps_ne_iff {q r : Port} : q.snaps ≠ r.snaps ↔ q.snapA ≠ r.snapA ∨ q.snapB ≠ r.snapB := by
  simp [Port.snaps, or_iff_not_imp_left]

theorem snaps_complete (p : Nat) (code : ResultCode) (s : State) :
    KeepsPortField Port.snaps s (complete p code s) := .modPort s p fun _ => rfl

theorem snaps_waitBeginLeft (p : Nat) (s : State) : KeepsPortField Port.snaps s (waitBeginLeft p s) := by
  unfold waitBeginLeft
  split
  · exact .modPort s p fun _ => rfl
  · exact snaps_complete _ _ _

theorem snaps_waitBeginRight (p : Nat) (s : State) : KeepsPortField Port.snaps s (waitBeginRight p s) := by
  unfold waitBeginRight
  split
  · exact .modPort s p fun _ => rfl
  · exact snaps_waitBeginLeft _ _

/-- Of the commands, PSTATUS writes both windows, STATUS the first (41_axis_controller.md R124, 42_planner.md R173). -/
theorem exec_snaps {i : Instr} {s t : State} (hexec : exec i s = .next t) :
    KeepsPortField Port.snaps s t ∨ i = .pstatus ∨ ((∃ a, i = .status a) ∧ KeepsPortField Port.snapB s t) := by
  cases i with
  | pstatus => exact .inr (.inl rfl)
  | status a =>
    refine .inr (.inr ⟨⟨a, rfl⟩, ?_⟩)
    simp only [exec, execStatus] at hexec
    split at hexec <;> cases hexec
    · refine .trans ?_ (.modPort _ _ fun _ => rfl)
      exact .modPort s _ fun _ => rfl
    · exact .modPort s _ fun _ => rfl
  | go a =>
    left
    simp only [exec, execGo] at hexec
    split at hexec <;> cases hexec
    · exact snaps_complete _ _ (goBody ..)
    · exact snaps_complete _ _ _
  | stop a hard =>
    left
    simp only [exec, execStop] at hexec
    split at hexec <;> cases hexec
    · exact snaps_complete _ _ (stopBody ..)
    · exact snaps_complete _ _ _
  | idle a =>
    left
    simp only [exec, execIdle] at hexec
    split at hexec <;> cases hexec
    · exact snaps_complete _ _ (idleBody ..)
    · exact snaps_complete _ _ _
  | wait a =>
    left
    simp only [exec, execWait] at hexec
    split at hexec
    · split at hexec <;> cases hexec
      · exact .modPort s _ fun _ => rfl
      · exact snaps_complete _ _ _
    · cases hexec
      exact snaps_complete _ _ _
  | scale =>
    left
    cases hexec
    refine .trans ?_ (snaps_complete _ _ _)
    exact .modPort s _ fun _ => rfl
  | pgo =>
    left
    simp only [exec, execPgo] at hexec
    split at hexec <;> cases hexec
    · exact snaps_complete _ _ _
    · refine .trans ?_ (snaps_waitBeginRight _ _)
      exact .modPort (wheelGo _ _ (wheelGo _ _ s)) _ fun _ => rfl
  | pstop hard => cases hexec; exact .inl (snaps_complete _ _ (stopBody ..))
  | pidle => cases hexec; exact .inl (snaps_complete _ _ (idleBody ..))

/-- A command word changes a snapshot only through the command it issues. -/
theorem writeCommand_snaps {s t : State} {p : Nat} {w : Word} (hwrite : writeCommand p w s = .next t) :
    KeepsPortField Port.snaps s t ∨ ∃ i u, (s.port p).busy = false ∧ decode w = .ok i ∧ exec i u = .next t ∧
      u.issuer = p ∧ KeepsPortField Port.snaps s u := by
  have hlatch : KeepsPortField Port.snaps s (s.modPort p (fun q => { q with cmd := w })) := .modPort s p fun _ => rfl
  cases hbusy : (s.port p).busy with
  | true =>
    cases (writeCommand_busy w hbusy).symm.trans hwrite
    exact .inl (.modPort s p fun _ => rfl)
  | false =>
    cases hdec : decode w with
    | error e =>
      cases (writeCommand_error hbusy hdec).symm.trans hwrite
      exact .inl (hlatch.trans (snaps_complete _ _ _))
    | ok i => exact .inr ⟨i, _, rfl, rfl, (writeCommand_idle hbusy hdec).symm.trans hwrite, rfl, hlatch⟩

/-- An access changes a snapshot only through the command it issues. -/
theorem hostAccess_snaps {k : Access} {s t : State} (haccess : hostAccess k s = .next t) :
    KeepsPortField Port.snaps s t ∨ ∃ p w i u, k = .write (s.cfg.base + 0x100 * (p + 1)) 32 w ∧
      p < s.cfg.numPorts ∧ (s.port p).busy = false ∧ decode w = .ok i ∧ exec i u = .next t ∧ u.issuer = p ∧
      KeepsPortField Port.snaps s u := by
  cases k with
  | read addr width =>
    cases haccess
    exact .inl (.refl s)
  | write addr width v =>
    obtain ⟨r, h⟩ | ⟨p, r, hp, rfl, rfl, h⟩ := hostAccess_write_cases s addr width v
    · cases h.symm.trans haccess
      exact .inl (.refl s)
    · have hwrite := h.symm.trans haccess
      by_cases hcmd : r = .cmd
      · subst hcmd
        obtain hkept | ⟨i, u, hissue⟩ := writeCommand_snaps hwrite
        · exact .inl hkept
        · exact .inr ⟨p, v, i, u, rfl, hp, hissue⟩
      · cases (writeReg_plain v _ hcmd).symm.trans hwrite
        exact .inl (.modPort (s.respond .written) p fun _ => by cases r <;> rfl)

/-- A step that makes an access is that access, seen from a state that differs in the schedule and the programs. -/
theorem step_performs {s : State} {e : Event} {rest : List Event} {k : Access} (hnext : s.NextIs e rest)
    (hk : s.performs e = some k) : ∃ u, step s = hostAccess k u ∧ u.cfg = s.cfg ∧ u.ports = s.ports := by
  rw [step_next hnext]
  cases e with
  | access k' =>
    cases hk
    exact ⟨_, rfl, rfl, rfl⟩
  | host p =>
    obtain ⟨line, hline, rfl⟩ := Option.map_eq_some_iff.1 hk
    obtain ⟨lines, hprogram⟩ := List.head?_eq_some_iff.1 hline
    cases line with
    | access k' => exact ⟨_, hostStep_access (s := s.withSchedule rest) hprogram, rfl, rfl⟩
    | poll q =>
      have hpoll := hostStep_poll (s := s.withSchedule rest) hprogram
      rw [pollStep] at hpoll
      split at hpoll
      · exact ⟨_, hpoll, rfl, rfl⟩
      · exact ⟨_, hpoll, rfl, rfl⟩
  | sequencer _ | tick _ | clockEdge | reset => cases hk

theorem snaps_sequencerStep (p : Nat) (s : State) : KeepsPortField Port.snaps s (sequencerStep p s) := by
  obtain ⟨-, h⟩ | ⟨-, a, f, -, -, h, rfl | rfl⟩ := sequencerStep_cases p s <;> rw [h]
  · exact .refl s
  · exact .modPort (takeSem a s) p fun _ => rfl
  · exact .modPort (takeSem a s) p fun _ => rfl

/-- A step that is not reset changes a snapshot only through a command that a port issues. -/
theorem step_snaps {s t : State} {e : Event} {rest : List Event} (hnext : s.NextIs e rest) (hstep : step s = .next t)
    (hreset : e ≠ .reset) : KeepsPortField Port.snaps s t ∨ ∃ p w i u, s.Issues e p w ∧ decode w = .ok i ∧
      exec i u = .next t ∧ u.issuer = p ∧ KeepsPortField Port.snaps s u := by
  obtain ⟨k, hk, -⟩ | ⟨_, -, -, rfl⟩ | ⟨p, -, rfl⟩ | ⟨a, -, rfl⟩ | ⟨-, rfl⟩ | ⟨he, -⟩ := step_cases hnext hstep
  · obtain ⟨u, hu, hcfg, hports⟩ := step_performs hnext hk
    have hport : ∀ p, u.port p = s.port p := fun p => congrArg (·.getD p Port.reset) hports
    have hsame : KeepsPortField Port.snaps s u := fun p => congrArg _ (hport p)
    obtain hkept | ⟨p, w, i, v, rfl, hp, hbusy, hdec, hexec, hissuer, hv⟩ := hostAccess_snaps (hu.symm.trans hstep)
    · exact .inl (hsame.trans hkept)
    · rw [hcfg] at hk hp
      rw [hport] at hbusy
      exact .inr ⟨p, w, i, v, ⟨hk, hp, hbusy⟩, hdec, hexec, hissuer, hsame.trans hv⟩
  · exact .inl (.refl s)
  · exact .inl (snaps_sequencerStep p (s.withSchedule rest))
  · exact .inl fun p => congrArg _ (port_tickStep a p (s.withSchedule rest))
  · exact .inl fun p => congrArg _ (port_clockStep p (s.withSchedule rest))
  · exact absurd he hreset

/-- Settles O59: a changed snapshot is the issuing port's, and the issued command is one that writes it. -/
theorem snapshotKeptUntilStatus : Obligations.SnapshotKeptUntilStatus := by
  unfold Obligations.SnapshotKeptUntilStatus
  intro s t e rest p hnext hstep hreset hchanged
  have hne : (t.port p).snaps ≠ (s.port p).snaps := Port.snaps_ne_iff.2 hchanged
  obtain hkept | ⟨q, w, i, u, hissues, hdec, hexec, rfl, hu⟩ := step_snaps hnext hstep hreset
  · exact absurd (hkept p) hne
  have hpq : p = u.issuer := by
    by_contra hpq
    obtain ⟨t', ht', hcmd⟩ := exec_commanded i u
    cases ht'.symm.trans hexec
    exact hne ((congrArg _ (hcmd.port p hpq)).trans (hu p))
  subst hpq
  refine ⟨w, i, hissues, hdec, ?_⟩
  obtain hkept | hpstatus | ⟨hstatus, hsnapB⟩ := exec_snaps hexec
  · exact absurd ((hu.trans hkept) _) hne
  · exact .inl hpstatus
  · exact .inr ⟨hstatus, (hsnapB _).trans (congrArg Prod.snd (hu _))⟩

end Sys2Proof.Machine
end

section
/-! The decoder and the encoder (30_encoding.md R80 to R85): what the opcode map and the decode checks answer for every
word, and the two round trips. -/

namespace Sys2Proof.Machine

/-! ### A word cut to a command's used bits -/

theorem opcodeField_and (w m : Word) : opcodeField (w &&& m) = opcodeField w &&& opcodeField m :=
  BitVec.extractLsb'_and

theorem hardField_and (w m : Word) : hardField (w &&& m) = (hardField w && hardField m) := by
  simp [hardField]

theorem axisField_lt (w : Word) : axisField w < 256 := (w.extractLsb' 8 8).isLt

theorem axisField_and (w m : Word) : axisField (w &&& m) = axisField w &&& axisField m := by
  rw [axisField, BitVec.extractLsb'_and, BitVec.toNat_and, axisField, axisField]

theorem axisField_and_full {w m : Word} (h : axisField m = 255) : axisField (w &&& m) = axisField w := by
  rw [axisField_and, h, Nat.and_two_pow_sub_one_eq_mod _ 8, Nat.mod_eq_of_lt (axisField_lt w)]

theorem axisField_and_zero {w m : Word} (h : axisField m = 0) : axisField (w &&& m) = 0 := by
  rw [axisField_and, h, Nat.and_zero]

theorem and_eq_self {w m : Word} (h : w &&& ~~~m = 0#32) : w &&& m = w := by
  apply BitVec.eq_of_getLsbD_eq
  intro i hi
  have hbit := and_not_eq_zero.1 h i hi
  cases hw : w.getLsbD i with
  | false => simp [hw]
  | true => simp [hw, hbit hw]

/-- A word cut to a mask is the command word of its fields, each kept or cleared as the mask says. -/
theorem commandWord_eq_and {w m : Word} {op : BitVec 8} {a : Nat} {hard : Bool} (hop : opcodeField w = op)
    (hm : opcodeField m = 255#8 ∧ m &&& ~~~0x0001FFFF#32 = 0#32) (ha : axisField (w &&& m) = a)
    (hhard : (hardField w && hardField m) = hard) : commandWord op a hard = w &&& m := by
  obtain ⟨hmop, hmask⟩ := hm
  have hcut : (w &&& m) &&& ~~~0x0001FFFF#32 = 0#32 := by rw [BitVec.and_assoc, hmask, BitVec.and_zero]
  have hop' : opcodeField (w &&& m) = op := by
    rw [opcodeField_and, hmop, hop]
    exact BitVec.and_allOnes
  rw [← hop', ← ha, ← hhard, ← hardField_and, commandWord_fields hcut]

/-! One lemma per used mask of 30_encoding.md R82. -/

theorem commandWord_axis {w : Word} {op : BitVec 8} (hop : opcodeField w = op) :
    commandWord op (axisField w) false = w &&& 0x0000FFFF#32 :=
  commandWord_eq_and hop (by decide) (axisField_and_full (by decide)) (Bool.and_false _)

theorem commandWord_axis_hard {w : Word} {op : BitVec 8} (hop : opcodeField w = op) :
    commandWord op (axisField w) (hardField w) = w &&& 0x0001FFFF#32 :=
  commandWord_eq_and hop (by decide) (axisField_and_full (by decide)) (Bool.and_true _)

theorem commandWord_hard {w : Word} {op : BitVec 8} (hop : opcodeField w = op) :
    commandWord op 0 (hardField w) = w &&& 0x000100FF#32 :=
  commandWord_eq_and hop (by decide) (axisField_and_zero (by decide)) (Bool.and_true _)

theorem commandWord_plain {w : Word} {op : BitVec 8} (hop : opcodeField w = op) :
    commandWord op 0 false = w &&& 0x000000FF#32 :=
  commandWord_eq_and hop (by decide) (axisField_and_zero (by decide)) (Bool.and_false _)

/-! ### The opcode map and the decode checks -/

/-- What the opcode map's answer for `w` satisfies: the mask R82 lists, and a well-formed command that encodes as `w`
cut to the mask (30_encoding.md R81, R82). -/
structure MapEntry (w used : Word) (i : Instr) : Prop where
  defined : opcodeField w ∈ definedOpcodes
  mask : used = usedMask (opcodeField w)
  wf : i.wf = true
  encodes : encode i = w &&& used

theorem MapEntry.of_opcode {w used : Word} {i : Instr} {op : BitVec 8} (hop : opcodeField w = op)
    (hrow : op ∈ definedOpcodes ∧ used = usedMask op) (hwf : i.wf = true) (henc : encode i = w &&& used) :
    MapEntry w used i := by
  subst hop
  obtain ⟨hdef, hmask⟩ := hrow
  exact ⟨hdef, hmask, hwf, henc⟩

/-- The opcode map has an entry for the defined opcodes only. -/
theorem opcodeMap_cases (w : Word) : (opcodeField w ∉ definedOpcodes ∧ opcodeMap w = none) ∨
    ∃ used i, opcodeMap w = some (used, i) ∧ MapEntry w used i := by
  have hwf : axisFits (axisField w) = true := decide_eq_true (axisField_lt w)
  rw [opcodeMap]
  split
  next hop => exact .inr ⟨_, .go _, rfl, .of_opcode hop (by decide) hwf (commandWord_axis hop)⟩
  next hop => exact .inr ⟨_, .stop .., rfl, .of_opcode hop (by decide) hwf (commandWord_axis_hard hop)⟩
  next hop => exact .inr ⟨_, .idle _, rfl, .of_opcode hop (by decide) hwf (commandWord_axis hop)⟩
  next hop => exact .inr ⟨_, .wait _, rfl, .of_opcode hop (by decide) hwf (commandWord_axis hop)⟩
  next hop => exact .inr ⟨_, .status _, rfl, .of_opcode hop (by decide) hwf (commandWord_axis hop)⟩
  next hop => exact .inr ⟨_, .scale, rfl, .of_opcode hop (by decide) rfl (commandWord_plain hop)⟩
  next hop => exact .inr ⟨_, .pgo, rfl, .of_opcode hop (by decide) rfl (commandWord_plain hop)⟩
  next hop => exact .inr ⟨_, .pstop _, rfl, .of_opcode hop (by decide) rfl (commandWord_hard hop)⟩
  next hop => exact .inr ⟨_, .pidle, rfl, .of_opcode hop (by decide) rfl (commandWord_plain hop)⟩
  next hop => exact .inr ⟨_, .pstatus, rfl, .of_opcode hop (by decide) rfl (commandWord_plain hop)⟩
  next =>
    refine .inl ⟨?_, rfl⟩
    simp only [definedOpcodes, List.mem_cons, List.not_mem_nil, or_false]
    tauto

/-- Everything the decode checks can answer (30_encoding.md R84), with the words each answer is for. -/
theorem decode_cases (w : Word) :
    (opcodeField w ∉ definedOpcodes ∧ decode w = .error .undefinedOpcode) ∨
    (opcodeField w ∈ definedOpcodes ∧ w &&& ~~~(usedMask (opcodeField w)) ≠ 0#32 ∧ decode w = .error .reservedBits) ∨
    (opcodeField w ∈ definedOpcodes ∧ w &&& ~~~(usedMask (opcodeField w)) = 0#32 ∧
      ∃ i, decode w = .ok i ∧ i.wf = true ∧ encode i = w) := by
  obtain ⟨hundef, hmap⟩ | ⟨used, i, hmap, hdef, rfl, hwf, henc⟩ := opcodeMap_cases w
  · exact .inl ⟨hundef, by rw [decode, hmap]⟩
  · have hdecode : decode w = if w &&& ~~~(usedMask (opcodeField w)) = 0#32 then .ok i else .error .reservedBits := by
      rw [decode, hmap]
    by_cases hbits : w &&& ~~~(usedMask (opcodeField w)) = 0#32
    · exact .inr (.inr ⟨hdef, hbits, i, by rw [hdecode, if_pos hbits], hwf, henc.trans (and_eq_self hbits)⟩)
    · exact .inr (.inl ⟨hdef, hbits, by rw [hdecode, if_neg hbits]⟩)

/-! ### The encoder -/

theorem encodingIsLegal : ∀ i : Instr, Laws.EncodingIsLegal.Statement i
  | .go axis => Laws.EncodingIsLegal.go axis
  | .stop axis hard => Laws.EncodingIsLegal.stop axis hard
  | .idle axis => Laws.EncodingIsLegal.idle axis
  | .wait axis => Laws.EncodingIsLegal.wait axis
  | .status axis => Laws.EncodingIsLegal.status axis
  | .scale => Laws.EncodingIsLegal.scale
  | .pgo => Laws.EncodingIsLegal.pgo
  | .pstop hard => Laws.EncodingIsLegal.pstop hard
  | .pidle => Laws.EncodingIsLegal.pidle
  | .pstatus => Laws.EncodingIsLegal.pstatus

/-- The opcode map finds a well-formed command at its encoding. -/
theorem opcodeMap_encode {i : Instr} (hwf : i.wf = true) :
    opcodeMap (encode i) = some (usedMask (opcodeField (encode i)), i) := by
  cases i with
  | go axis | stop axis hard | idle axis | wait axis | status axis =>
    have haxis (op : BitVec 8) (hard : Bool) : axisField (commandWord op axis hard) = axis :=
      axisField_commandWord op hard (of_decide_eq_true hwf)
    simp [opcodeMap, encode, usedMask, haxis]
  | scale | pgo | pstop hard | pidle | pstatus => simp [opcodeMap, encode, usedMask]

theorem decode_encode {i : Instr} (hwf : i.wf = true) : decode (encode i) = .ok i := by
  obtain ⟨-, hbits⟩ := encodingIsLegal i
  rw [decode, opcodeMap_encode hwf]
  exact if_pos hbits

theorem decodeBytes_wordBytes {w : Word} {i : Instr} (hdec : decode w = .ok i) (rest : List Byte) :
    decodeBytes (wordBytes w ++ rest) = .ok (i, rest) := by
  simp only [wordBytes, List.cons_append, List.nil_append, decodeBytes, wordOfBytes_wordByte, hdec]

/-! ### The obligations -/

/-- Settles O3: of the three answers of the decode checks, the command is the one that encodes as the word. -/
theorem encodeOfDecode : Obligations.EncodeOfDecode := by
  unfold Obligations.EncodeOfDecode
  intro w i hdec
  obtain ⟨-, hw⟩ | ⟨-, -, hw⟩ | ⟨-, -, j, hw, hwf, henc⟩ := decode_cases w
  · cases hw.symm.trans hdec
  · cases hw.symm.trans hdec
  · cases hw.symm.trans hdec
    exact ⟨hwf, henc⟩

/-- Settles O2: a word is put together from its own bytes, so both forms are `decode_encode`. -/
theorem decodeOfEncode : Obligations.DecodeOfEncode := by
  unfold Obligations.DecodeOfEncode
  intro i hwf
  exact ⟨decode_encode hwf, decodeBytes_wordBytes (decode_encode hwf)⟩

/-- Settles O4: the three answers of the decode checks exclude each other. -/
theorem decodeChecksInOrder : Obligations.DecodeChecksInOrder := by
  unfold Obligations.DecodeChecksInOrder
  intro w
  rw [← opcodeField]
  obtain ⟨hundef, hw⟩ | ⟨hdef, hbits, hw⟩ | ⟨hdef, hbits, i, hw, -⟩ := decode_cases w
  · simp [hw, hundef]
  · simp [hw, hdef, hbits]
  · simp [hw, hdef, hbits]

/-- Settles O1: the words are closed, so the decoder answers them by evaluation. -/
theorem specWordsDecode : Obligations.SpecWordsDecode := by
  unfold Obligations.SpecWordsDecode
  decide

end Sys2Proof.Machine
end

section
/-! The command register and the hosts' programs (30_encoding.md R84 to R87): a word that is no command, the expansion of
the pseudo-instructions, and the turns of a host. -/

namespace Sys2Proof.Machine

/-! ### A word that is no command -/

/-- A word with a decode fault is rejected with the result code of R85; the opcode is checked first. -/
theorem decode_error {w : Word}
    (hbad : opcodeField w ∉ definedOpcodes ∨ w &&& ~~~(usedMask (opcodeField w)) ≠ 0#32) :
    ∃ e, decode w = .error e ∧ (errorCode e).code = if opcodeField w ∉ definedOpcodes then 4#32 else 5#32 := by
  obtain ⟨hundef, hw⟩ | ⟨hdef, -, hw⟩ | ⟨hdef, hbits, -⟩ := decode_cases w
  · exact ⟨_, hw, (if_pos hundef).symm⟩
  · exact ⟨_, hw, (if_neg (not_not_intro hdef)).symm⟩
  · exact absurd hbad (not_or.2 ⟨not_not_intro hdef, not_not_intro hbits⟩)

/-- Settles O7: the latched word and the completion are one update of the port. -/
theorem badWordCompletesWithError : Obligations.BadWordCompletesWithError := by
  unfold Obligations.BadWordCompletesWithError
  intro s p w rest hwf hnext hp hidle hbad
  obtain ⟨-, -, ports, -, -⟩ := hwf
  rw [← opcodeField] at hbad ⊢
  obtain ⟨e, hdec, hcode⟩ := decode_error hbad
  have hstep := (step_command hp hnext).trans (writeCommand_error hidle hdec)
  refine ⟨_, hstep, ?_, ?_⟩
  · have hlatch : SameBut [] [p] (((s.withSchedule rest).respond .written).withIssuer p) _ :=
      SameBut.modPort _ p (fun q => { q with cmd := w })
    exact (hlatch.trans (SameBut.complete p _ _)).mono (by simp) (by simp)
  · rw [port_complete (by simpa using ports ▸ hp), ← hcode, State.port_withIssuer,
      State.port_modPort_self (s := (s.withSchedule rest).respond .written) (ports ▸ hp)]
    rfl

/-! ### Pseudo-instructions -/

/-- A command word as the number of its fields (30_encoding.md R80). -/
theorem commandWord_eq_ofNat (op : BitVec 8) {axis : Nat} (hard : Bool) (haxis : axis < 256) :
    commandWord op axis hard = BitVec.ofNat 32 (op.toNat + 2 ^ 8 * axis + 2 ^ 16 * hard.toNat) := by
  have hop : op.toNat < 256 := op.isLt
  have hopcode : place op 0 = BitVec.ofNat 32 op.toNat := by
    simpa using ofNat_or_place (k := 0) (lo := 0) op (by decide)
  have hfit : (BitVec.ofNat 8 axis).toNat = axis := Nat.mod_eq_of_lt haxis
  rw [commandWord, hopcode, ofNat_or_place _ (by omega), hfit, ofNat_or_place _ (by omega), BitVec.toNat_ofBool]

/-- A CMD value of R87's table, the axis added to the number of its other fields, is a command word. -/
theorem wrCmd_axis (p : Nat) {axis : Nat} (haxis : axis < 256) (op : BitVec 8) (hard : Bool) :
    wrCmd p (op.toNat + 2 ^ 16 * hard.toNat + 2 ^ 8 * axis) = .wr (.port p .cmd) (commandWord op axis hard) := by
  rw [commandWord_eq_ofNat op hard haxis, wrCmd, Nat.add_right_comm]

/-! ### The turns of a host -/

section
variable {s : State} {p q : Nat} {lines : List Line} {rest : List Event} (hnext : s.NextIs (.host p) rest)
include hnext

/-- A turn at an access line is the step of that access, with the line taken off. -/
theorem step_host_access {k : Access} (hline : s.program p = .access k :: lines) :
    step s = step ((s.withProgram p lines).withSchedule (.access k :: rest)) :=
  calc step s
    _ = hostStep p (s.withSchedule rest) := step_next hnext
    _ = hostAccess k ((s.withSchedule rest).withProgram p lines) := hostStep_access hline
    _ = step ((s.withProgram p lines).withSchedule (.access k :: rest)) := 
      (step_access (s := (s.withProgram p lines).withSchedule (.access k :: rest)) ⟨hnext.1, rfl⟩).symm

/-- A turn at a POLL line reads PSTAT, and takes the line off when BUSY reads 0. -/
theorem step_host_poll (hq : q < s.cfg.numPorts) (hline : s.program p = .poll q :: lines) :
    step s = .next ((if (s.port q).busy then s.withSchedule rest else (s.withSchedule rest).withProgram p lines).respond
      (.data ((s.port q).read .pstat))) :=
  calc step s
    _ = hostStep p (s.withSchedule rest) := step_next hnext
    _ = .next (pollStep p q lines (s.withSchedule rest)) := hostStep_poll hline
    _ = _ := congrArg _ (pollStep_eq (s := s.withSchedule rest) lines hnext.1 hq)

end

/-- Settles O5: the CMD values are command words, and each turn is one of the two kinds above. -/
theorem pseudoInstructionsExpandAndRun : Obligations.PseudoInstructionsExpandAndRun := by
  unfold Obligations.PseudoInstructionsExpandAndRun
  refine ⟨fun p a v acc n w d ha => ?_, fun s p q lines rest hwf hnext hp hq => ?_⟩
  · have hgo : wrCmd p (0x01 + 256 * a) = .wr (.port p .cmd) (encode (.go a)) := wrCmd_axis p ha 0x01#8 false
    have hstop : wrCmd p (0x02 + 256 * a) = .wr (.port p .cmd) (encode (.stop a false)) := wrCmd_axis p ha 0x02#8 false
    have hhstop : wrCmd p (0x10002 + 256 * a) = .wr (.port p .cmd) (encode (.stop a true)) := wrCmd_axis p ha 0x02#8 true
    have hidle : wrCmd p (0x03 + 256 * a) = .wr (.port p .cmd) (encode (.idle a)) := wrCmd_axis p ha 0x03#8 false
    have hwait : wrCmd p (0x04 + 256 * a) = .wr (.port p .cmd) (encode (.wait a)) := wrCmd_axis p ha 0x04#8 false
    have hstatus : wrCmd p (0x05 + 256 * a) = .wr (.port p .cmd) (encode (.status a)) := wrCmd_axis p ha 0x05#8 false
    exact ⟨by rw [Pseudo.expand, hgo], rfl, by rw [Pseudo.expand, hstop], by rw [Pseudo.expand, hhstop],
      by rw [Pseudo.expand, hidle], by rw [Pseudo.expand, hwait], by rw [Pseudo.expand, hstatus],
      rfl, rfl, rfl, rfl, rfl, rfl, rfl, rfl, by rw [← hwait]; rfl, rfl⟩
  · obtain ⟨-, -, -, -, programs⟩ := hwf
    refine ⟨fun program => State.program_withProgram_self (programs ▸ hp) _, fun r v => ⟨rfl, rfl, rfl⟩,
      fun k hline => step_host_access hnext hline, fun hline hbusy => ?_, fun hline hidle => ?_⟩
    · rw [step_host_poll hnext hq hline, if_pos hbusy]
    · rw [step_host_poll hnext hq hline, if_neg (by simp [hidle])]

end Sys2Proof.Machine
end

section
/-! The timer scaler and its command (40_timer_scaler.md R100 to R103). -/

namespace Sys2Proof.Machine

section
variable {c : Config} {v : Int}

/-! One equation per return of `Scale` (40_timer_scaler.md R100). -/

theorem scale_below_epsilon (h : absInt v < c.velEps) : scale c v = Scaled.off := if_pos h

theorem scale_period_too_large (h : 4294967295 < rawPeriod c (absInt v)) : scale c v = Scaled.off := by
  rw [scale, if_pos h, ite_self]

theorem scale_period_fits (heps : c.velEps ≤ absInt v) (hfits : rawPeriod c (absInt v) ≤ 4294967295) :
    scale c v = scaledOf v (max 1 (rawPeriod c (absInt v))) := by
  rw [scale, if_neg (Nat.not_lt.2 heps), if_neg (Nat.not_lt.2 hfits)]

/-- `Scale` reads two parameters only (40_timer_scaler.md R103). -/
theorem scale_congr {d : Config} (hclk : d.clkHz = c.clkHz) (heps : d.velEps = c.velEps) : scale d v = scale c v := by
  unfold scale rawPeriod
  rw [hclk, heps]

end

/-- Settles O17: one return of `Scale` per clause, and the root of the divisor is `isqrt` of the period's high part. -/
theorem scaleFollowsItsFormula : Obligations.ScaleFollowsItsFormula := by
  unfold Obligations.ScaleFollowsItsFormula
  intro c v _
  refine ⟨scale_below_epsilon, fun _ hlarge => scale_period_too_large hlarge, fun heps hfits => ?_⟩
  obtain ⟨hroot, hlargest⟩ := isqrt_spec (max 1 (rawPeriod c (absInt v)) / 65536)
  exact ⟨_, _, _, rfl, hroot, hlargest, rfl, scale_period_fits heps hfits⟩

/-- Settles O18: a disabled timer has reload and period 0; otherwise `scaledOf_reload` gives the minimum. -/
theorem reloadIsMinOfPeriod : Obligations.ReloadIsMinOfPeriod := by
  unfold Obligations.ReloadIsMinOfPeriod
  intro c v _
  obtain h | ⟨-, -, h⟩ := scale_cases c v <;> rw [h]
  · rfl
  · exact scaledOf_reload v _

/-- Settles O19: the normalised velocity is 0 when the timer is disabled and v itself otherwise. -/
theorem scaleIsIdempotent : Obligations.ScaleIsIdempotent := by
  unfold Obligations.ScaleIsIdempotent
  intro c v hc
  refine ⟨?_, fun d => scale_congr⟩
  obtain hoff | ⟨-, -, hscaled⟩ := scale_cases c v
  · rw [hoff]
    exact scale_zero hc
  · have hvel : (scale c v).vel = v := congrArg Scaled.vel hscaled
    rw [hvel]

/-- Settles O20: the results and the completion are one update of the issuing port. -/
theorem scaleCommandResult : Obligations.ScaleCommandResult := by
  unfold Obligations.ScaleCommandResult
  intro s hwf
  exact ⟨_, congrArg Host.Outcome.next (State.modPort_modPort ..), SameBut.modPort ..,
    State.port_modPort_self hwf.issuer_lt _⟩

end Sys2Proof.Machine
end

section
/-! The sub-ticks of a step and its boundary (40_timer_scaler.md R104, 41_axis_controller.md R130, R133). -/

namespace Sys2Proof.Machine

section
variable {c : Config} {x : Axis} (hb : AccumBounded x) (hperiod : x.period ≠ 0#32)
include hb hperiod

theorem afterLoad_below_period (hsub : x.accum.toNat + x.reload.toNat < x.period.toNat) :
    x.afterLoad c = { x with accum := x.accumNext, last := .waiting } := by
  rw [Axis.afterLoad, if_neg hperiod, if_pos ((subTick_iff hb).2 hsub)]

/-- At the boundary the period is taken off, and neither the ramp nor the count touches the accumulator again. -/
theorem afterLoad_at_period (hbound : x.period.toNat ≤ x.accum.toNat + x.reload.toNat) :
    (x.afterLoad c).last ≠ .waiting ∧
      (x.afterLoad c).accum.toNat = x.accum.toNat + x.reload.toNat - x.period.toNat := by
  have hsub : x.subTick = false := Bool.eq_false_iff.2 (mt (subTick_iff hb).1 (Nat.not_lt.2 hbound))
  rw [Axis.afterLoad, if_neg hperiod, hsub, if_neg Bool.false_ne_true, ← accum_boundary hb hsub, Axis.boundary]
  split
  · simp
  · simp

end

/-- With nothing pending, a tick is what comes after its load. -/
theorem tick_eq_afterLoad (c : Config) {x : Axis} (hpend : x.mb.pend = false) :
    x.tick c = ({ x with force := false } : Axis).afterLoad c := by
  rw [Axis.tick, Axis.tickLoad, if_neg (by simp [hpend])]

/-- The recursion of `Axis.ticks`, the last tick apart. -/
theorem ticks_succ (c : Config) (n : Nat) (x : Axis) : x.ticks c (n + 1) = (x.ticks c n).tick c := by
  induction n generalizing x with
  | zero => rfl
  | succ n ih => exact ih (x.tick c)

/-- The axis after `n` sub-ticks, `n` at least 1. -/
abbrev Axis.waited (x : Axis) (n : Nat) : Axis :=
  { x with force := false, accum := BitVec.ofNat 64 (x.accum.toNat + n * x.reload.toNat), last := .waiting }

/-- Below the period the accumulator is the sum itself. -/
theorem waited_accum {x : Axis} {n : Nat} (h : x.accum.toNat + n * x.reload.toNat < x.period.toNat) :
    (x.waited n).accum.toNat = x.accum.toNat + n * x.reload.toNat := by
  have hlt := x.period.isLt
  exact Nat.mod_eq_of_lt (by omega)

theorem accumBounded_waited {x : Axis} {n : Nat} (h : x.accum.toNat + n * x.reload.toNat < x.period.toNat) :
    AccumBounded (x.waited n) := by
  have hlt := x.period.isLt
  rw [AccumBounded, waited_accum h]
  omega

theorem waited_waited {x : Axis} {m : Nat} (n : Nat) (h : x.accum.toNat + m * x.reload.toNat < x.period.toNat) :
    (x.waited m).waited n = x.waited (m + n) := by
  rw [Axis.waited, waited_accum h, Nat.add_assoc, ← Nat.add_mul]

section
variable (c : Config) {x : Axis} (hb : AccumBounded x) (hpend : x.mb.pend = false) (hperiod : x.period ≠ 0#32)
include hb hpend hperiod

theorem tick_below_period (hsub : x.accum.toNat + x.reload.toNat < x.period.toNat) : x.tick c = x.waited 1 := by
  have haccum : x.accumNext = (x.waited 1).accum := by
    apply BitVec.eq_of_toNat_eq
    rw [accumNext_toNat hb, waited_accum (by rwa [Nat.one_mul]), Nat.one_mul]
  rw [tick_eq_afterLoad c hpend, afterLoad_below_period (x := { x with force := false }) hb hperiod hsub]
  exact congrArg (fun a => ({ x with force := false, accum := a, last := .waiting } : Axis)) haccum

theorem tick_at_period (hbound : x.period.toNat ≤ x.accum.toNat + x.reload.toNat) :
    (x.tick c).last ≠ .waiting ∧ (x.tick c).accum.toNat = x.accum.toNat + x.reload.toNat - x.period.toNat := by
  rw [tick_eq_afterLoad c hpend]
  exact afterLoad_at_period (x := { x with force := false }) hb hperiod hbound

/-- Every tick that leaves the accumulator below the period is a sub-tick. -/
theorem ticks_below_period {n : Nat} (hsub : x.accum.toNat + (n + 1) * x.reload.toNat < x.period.toNat) :
    x.ticks c (n + 1) = x.waited (n + 1) := by
  induction n with
  | zero => exact tick_below_period c hb hpend hperiod (by rwa [Nat.zero_add, Nat.one_mul] at hsub)
  | succ n ih =>
    have hsub_n : x.accum.toNat + (n + 1) * x.reload.toNat < x.period.toNat :=
      (Nat.add_le_add_left (Nat.mul_le_mul_right _ (Nat.le_succ _)) _).trans_lt hsub
    have hlast : (x.waited (n + 1)).accum.toNat + x.reload.toNat < x.period.toNat := by
      rwa [waited_accum hsub_n, Nat.add_assoc, ← Nat.succ_mul]
    rw [ticks_succ, ih hsub_n, tick_below_period c (accumBounded_waited hsub_n) hpend hperiod hlast,
      waited_waited 1 hsub_n]

end

/-- Settles O45: the axis stands below its period after n ticks, and the next tick ends at the boundary. -/
theorem subTicksUntilTheBoundary : Obligations.SubTicksUntilTheBoundary := by
  unfold Obligations.SubTicksUntilTheBoundary
  intro c x n hb hpend hperiod hsub
  cases n with
  | zero =>
    refine ⟨fun h => absurd h (by decide), fun hbound => ?_⟩
    rw [Nat.zero_add, Nat.one_mul] at hbound ⊢
    exact tick_at_period c hb hpend hperiod hbound
  | succ n =>
    have hwaited := ticks_below_period c hb hpend hperiod hsub
    refine ⟨fun _ => hwaited, fun hbound => ?_⟩
    rw [ticks_succ, hwaited]
    rw [Nat.succ_mul, ← Nat.add_assoc, ← waited_accum hsub] at hbound ⊢
    exact tick_at_period c (accumBounded_waited hsub) hpend hperiod hbound

end Sys2Proof.Machine
end

section
/-! The count of a sequence and what finishes it (41_axis_controller.md R136, R141, R143). -/

namespace Sys2Proof.Machine

/-! ### One equation per case of `StepCount` -/

theorem toNat_eq_zero_iff {w : Word} : w.toNat = 0 ↔ w = 0#32 := BitVec.toNat_inj (y := 0#32)

/-- The decrement of REM, on whole numbers. -/
theorem pred_eq_iff {w v : Word} (h : w ≠ 0#32) : w - 1#32 = v ↔ w.toNat - 1 = v.toNat := by
  have h0 : w.toNat ≠ 0 := mt toNat_eq_zero_iff.1 h
  have hw := w.isLt
  rw [BitVec.toNat_eq, BitVec.toNat_sub, BitVec.toNat_ofNat]
  omega

theorem pred_eq_zero_iff {w : Word} : w - 1#32 = 0#32 ↔ w = 1#32 := sub_eq_zero

section
variable (c : Config) {x : Axis}

theorem stepCount_continuous (h : x.rem = 0#32) : x.stepCount c = x := if_pos h

theorem stepCount_counting (h0 : x.rem ≠ 0#32) (h1 : x.rem ≠ 1#32) : x.stepCount c = x.countDown := by
  rw [Axis.stepCount, if_neg h0, Axis.countDown_rem, if_neg (mt pred_eq_zero_iff.1 h1)]

end

/-- The last step of a sequence: REM and everything the scaler derives are 0. -/
theorem stepCount_last {c : Config} (hc : configLegal c = true) {x : Axis} (h : x.rem = 1#32) :
    x.stepCount c = { x with
      rem := 0#32, vel := 0#32, tgt := 0#32, reload := 0#16, period := 0#32, mult := 0#16
      sem := x.sem || x.sig } := by
  have hrem : x.rem - 1#32 = 0#32 := pred_eq_zero_iff.2 h
  rw [Axis.stepCount, if_neg (by rw [h]; decide), Axis.countDown_rem, if_pos hrem, Axis.finish, scale_zero hc]
  simp [Axis.setScaled, Scaled.off, u32, hrem]

theorem stepCount_takes_one (c : Config) {x : Axis} (h : x.rem ≠ 0#32) :
    (x.stepCount c).rem.toNat + 1 = x.rem.toNat :=
  ((stepCount_rem c x).resolve_left fun h0 => h h0.1).2

/-- A sequence that has no steps left leaves the axis idle. -/
theorem stepCount_finished {c : Config} (hc : configLegal c = true) {x : Axis} (h0 : x.rem ≠ 0#32)
    (hend : (x.stepCount c).rem = 0#32) : (x.stepCount c).period = 0#32 := by
  by_cases h1 : x.rem = 1#32
  · rw [stepCount_last hc h1]
  · rw [stepCount_counting c h0 h1] at hend
    exact absurd (pred_eq_zero_iff.1 hend) h1

/-! ### A counted sequence -/

/-- With nothing pending, the sequence has steps left or the axis is idle: what every tick of a counted sequence keeps. -/
abbrev CountedOrIdle (x : Axis) : Prop := x.mb.pend = false ∧ (x.rem = 0#32 → x.period = 0#32)

theorem loaded_of_not_pending (c : Config) {x : Axis} (h : x.mb.pend = false) :
    x.loaded c = { x with force := false } :=
  if_neg (by simp [h])

/-- A tick drives a step exactly when it takes one off REM, and the last step leaves the axis idle. -/
theorem tick_counts {c : Config} (hc : configLegal c = true) {x : Axis} (h : CountedOrIdle x) :
    CountedOrIdle (x.tick c) ∧
      (if (x.tick c).last = .moving then 1 else 0) + (x.tick c).rem.toNat = x.rem.toNat := by
  obtain ⟨hpend, hidle⟩ := h
  obtain ⟨-, hmb, -⟩ := tick_frame c x
  have hpend' : (x.tick c).mb.pend = false := by rw [hmb]
  suffices hcount : ((x.tick c).rem = 0#32 → (x.tick c).period = 0#32) ∧
      (if (x.tick c).last = .moving then 1 else 0) + (x.tick c).rem.toNat = x.rem.toNat from
    ⟨⟨hpend', hcount.1⟩, hcount.2⟩
  have hcases := tick_cases c x
  rw [loaded_of_not_pending c hpend] at hcases
  obtain ⟨-, h⟩ | ⟨-, -, h⟩ | ⟨hperiod, -, -, h⟩ | ⟨hperiod, -, -, h⟩ := hcases <;> rw [h]
  · exact ⟨hidle, by simp⟩
  · exact ⟨hidle, by simp⟩
  · exact ⟨fun h0 => absurd (hidle (by simpa using h0)) hperiod, by simp⟩
  · have hcounted : (({ x with force := false } : Axis).ramped c).rem ≠ 0#32 := by
      rw [Axis.ramp_rem]
      exact mt hidle hperiod
    have hstep := stepCount_takes_one c hcounted
    rw [Axis.ramp_rem] at hstep
    exact ⟨stepCount_finished hc hcounted, (Nat.add_comm 1 _).trans hstep⟩

/-- The MOVING ticks of a counted sequence are the steps taken off REM (41_axis_controller.md R141). -/
theorem movingTicks_add_rem {c : Config} (hc : configLegal c = true) (n : Nat) {x : Axis} (h : CountedOrIdle x) :
    Axis.movingTicks c n x + (Axis.ticks c n x).rem.toNat = x.rem.toNat := by
  induction n generalizing x with
  | zero => exact Nat.zero_add _
  | succ n ih =>
    obtain ⟨hnext, hcount⟩ := tick_counts hc h
    rw [Axis.movingTicks, Axis.ticks, Nat.add_assoc, ih hnext, hcount]

/-- Settles O51: by induction on the ticks, each of which keeps `CountedOrIdle`. -/
theorem countedSequenceMovesOncePerStep : Obligations.CountedSequenceMovesOncePerStep := by
  unfold Obligations.CountedSequenceMovesOncePerStep
  intro c x n hc hpend hrem
  exact movingTicks_add_rem hc n ⟨hpend, fun h => absurd h hrem⟩

/-- Settles O48: the three equations of `StepCount`, the decrement read as a number. -/
theorem stepCountFollowsItsRule : Obligations.StepCountFollowsItsRule := by
  unfold Obligations.StepCountFollowsItsRule
  intro c x hc
  refine ⟨stepCount_continuous c, fun h0 h1 => ?_, stepCount_last hc⟩
  have hpred : x.rem - 1#32 = BitVec.ofNat 32 (x.rem.toNat - 1) := by
    have hlt := x.rem.isLt
    rw [pred_eq_iff h0, BitVec.toNat_ofNat, Nat.mod_eq_of_lt (by omega)]
  rw [stepCount_counting c h0 h1, Axis.countDown]
  simp only [pred_eq_iff h0, ← hpred]

/-! ### The semaphore -/

theorem loaded_sem (c : Config) (x : Axis) : (x.loaded c).sem = x.sem := by
  obtain ⟨-, h⟩ | ⟨-, h⟩ := loaded_eq c x
  · rw [h]
  · rw [h, Axis.load_sem]

/-- Only the last step of a signalling sequence gives the semaphore. -/
theorem stepCount_gives {c : Config} (hc : configLegal c = true) {x : Axis} (hx : x.sem = false)
    (hgive : (x.stepCount c).sem = true) : x.rem = 1#32 ∧ x.sig = true := by
  by_cases h0 : x.rem = 0#32
  · simp [stepCount_continuous c h0, hx] at hgive
  by_cases h1 : x.rem = 1#32
  · exact ⟨h1, by simpa [stepCount_last hc h1, hx] using hgive⟩
  · simp [stepCount_counting c h0 h1, hx] at hgive

/-- Of the four ways a tick ends, only the driven step can give the semaphore. -/
theorem tick_gives {c : Config} (hc : configLegal c = true) {x : Axis} (hx : x.sem = false)
    (hgive : (x.tick c).sem = true) : (x.loaded c).rem = 1#32 ∧ (x.tick c).rem = 0#32 ∧
      (x.tick c).sig = true ∧ (x.tick c).vel = 0#32 ∧ (x.tick c).last = .moving := by
  have hl : (x.loaded c).sem = false := (loaded_sem c x).trans hx
  obtain ⟨-, h⟩ | ⟨-, -, h⟩ | ⟨-, -, -, h⟩ | ⟨-, -, -, h⟩ := tick_cases c x <;> rw [h] at hgive ⊢
  · exact absurd (hl.symm.trans hgive) Bool.false_ne_true
  · exact absurd (hl.symm.trans hgive) Bool.false_ne_true
  · exact absurd (hl.symm.trans (by simpa using hgive)) Bool.false_ne_true
  · obtain ⟨hrem, hsig⟩ := stepCount_gives hc (by simpa using hl) hgive
    rw [stepCount_last hc hrem]
    exact ⟨by simpa using hrem, rfl, hsig, rfl, rfl⟩

theorem axis_resetStep (s : State) (a : Nat) : (resetStep s).axis a = Axis.reset :=
  List.getElem?_getD_replicate_default_eq _ s.cfg.numAxes a

/-- Settles O50: of the agents only a tick gives a semaphore, and `tick_gives` says when. -/
theorem semaphoreGivenOnlyByFinishedSequence : Obligations.SemaphoreGivenOnlyByFinishedSequence := by
  unfold Obligations.SemaphoreGivenOnlyByFinishedSequence
  intro s t e rest a hnext hstep hx hgive
  have hreset : e ≠ .reset := by
    rintro rfl
    cases (step_next hnext).symm.trans hstep
    rw [axis_resetStep] at hgive
    cases hgive
  have haxis := axisStep_of_step a hnext hstep hreset
  have hagent := haxis.sem_give hx hgive
  generalize t.axis a = y at haxis hgive ⊢
  cases haxis with
  | tick n _ h =>
    subst h
    exact ⟨hagent, tick_gives hnext.1 hx hgive⟩
  | same h | take _ _ h | count _ _ h =>
    subst h
    simp [hx] at hgive
  | command _ _ h =>
    rw [h.frame] at hgive
    simp [hx] at hgive

end Sys2Proof.Machine
end

section
/-! The commands of the axis controller (41_axis_controller.md R110 to R124, R142). -/

namespace Sys2Proof.Machine

/-- Two updates of one axis are one. -/
theorem State.modAxis_modAxis (s : State) (a : Nat) (f g : Axis → Axis) :
    (s.modAxis a f).modAxis a g = s.modAxis a (fun x => g (f x)) := by
  by_cases ha : a < s.axes.length
  · have hset : ∀ x, (s.setAxis a x).modAxis a g = s.setAxis a (g x) := fun x => by
      simp [State.modAxis, State.setAxis, State.axis, ha]
    exact hset _
  · simp only [State.axis_modAxis_of_not_lt ha]

/-! ### What ends a command -/

section
variable {s : State} (hwf : s.Wf) {i : Instr}
include hwf

/-- A command that only completes changes its port alone. -/
theorem exec_completes {code : ResultCode} (h : exec i s = .next (complete s.issuer code s)) :
    ∃ t, exec i s = .next t ∧ SameBut [] [s.issuer] s t ∧ t.port s.issuer = (s.port s.issuer).ended code.code :=
  ⟨_, h, SameBut.complete .., port_complete hwf.issuer_lt code⟩

/-- A command that updates an axis and completes changes that axis and its port alone. -/
theorem exec_updates_axis {a : Nat} {f : Axis → Axis} (ha : a < s.cfg.numAxes)
    (h : exec i s = .next (complete s.issuer .ok (s.modAxis a f))) :
    ∃ t, exec i s = .next t ∧ SameBut [a] [s.issuer] s t ∧ t.port s.issuer = (s.port s.issuer).ended 0#32 ∧
      t.axis a = f (s.axis a) := by
  have hissuer := hwf.issuer_lt
  obtain ⟨-, axes, -⟩ := hwf
  exact ⟨_, h, (SameBut.modAxis s a f).trans (SameBut.complete ..), port_complete (s := s.modAxis a f) hissuer .ok,
    State.axis_modAxis_self (axes ▸ ha) f⟩

end

/-! ### The axis check (41_axis_controller.md R110) -/

theorem not_axisValid_of_le {c : Config} {a : Nat} (h : c.numAxes ≤ a) : ¬ axisValid c a = true :=
  mt axisValid_iff.1 (Nat.not_lt.2 h)

/-! ### GO, STOP and IDLE -/

theorem absInt_stepsArg_lt (q : Port) : absInt q.stepsArg < 2 ^ 32 := (absInt_s32_le q.arg2).trans_lt (by decide)

/-- Settles O21: GO's mailbox write is one update of the axis. -/
theorem goResult : Obligations.GoResult := by
  unfold Obligations.GoResult
  intro s a hwf
  refine ⟨fun ha v n hv hn => ?_, fun ha => ?_⟩
  · obtain ⟨t, hexec, hframe, hport, haxis⟩ := exec_updates_axis hwf (i := .go a) ha (if_pos (axisValid_iff.2 ha))
    refine ⟨t, hexec, hframe, hport, ?_⟩
    rw [haxis, normalise_count, mbWrite_eq_mailed _ _ _ (absInt_stepsArg_lt _), normalise_velocity, hv, hn]
    rfl
  · exact exec_completes hwf (i := .go a) (code := .errAxis) (if_neg (not_axisValid_of_le ha))

/-- Settles O22: STOP's mailbox write is one update of the axis. -/
theorem stopResult : Obligations.StopResult := by
  unfold Obligations.StopResult
  intro s a hard hwf
  refine ⟨fun ha => ?_, fun ha => ?_⟩
  · obtain ⟨t, hexec, hframe, hport, haxis⟩ :=
      exec_updates_axis hwf (i := .stop a hard) ha (if_pos (axisValid_iff.2 ha))
    refine ⟨t, hexec, hframe, hport, ?_⟩
    rw [haxis, mbWrite_eq_mailed _ _ _ (by decide)]
    cases hard <;> simp [u32]
  · exact exec_completes hwf (i := .stop a hard) (code := .errAxis) (if_neg (not_axisValid_of_le ha))

/-- IDLE's mailbox write and its phases off are one update of the axis. -/
theorem idleBody_eq (a : Nat) (s : State) :
    idleBody a s = s.modAxis a (fun x => { x.mbWrite 0 0 0 with out := 0#4 }) := by
  rw [idleBody, phasesOff, mbWrite, State.modAxis_modAxis]

/-- Settles O23: an update of the axis, as `idleBody_eq` says. -/
theorem idleResult : Obligations.IdleResult := by
  unfold Obligations.IdleResult
  intro s a hwf
  refine ⟨fun ha => ?_, fun ha => ?_⟩
  · have hidle : exec (.idle a) s = .next (complete s.issuer .ok (idleBody a s)) := if_pos (axisValid_iff.2 ha)
    rw [idleBody_eq] at hidle
    obtain ⟨t, hexec, hframe, hport, haxis⟩ := exec_updates_axis hwf ha hidle
    refine ⟨t, hexec, hframe, hport, ?_⟩
    rw [haxis, mbWrite_eq_mailed _ _ _ (by decide)]
    rfl
  · exact exec_completes hwf (i := .idle a) (code := .errAxis) (if_neg (not_axisValid_of_le ha))

/-! ### WAIT and STATUS -/

/-- Settles O24: the three ends of WAIT's issue. -/
theorem waitResult : Obligations.WaitResult := by
  unfold Obligations.WaitResult
  intro s a hwf
  by_cases ha : a < s.cfg.numAxes
  · have hvalid : exec (.wait a) s = if (s.axis a).mb.sig then _ else _ := if_pos (axisValid_iff.2 ha)
    have hlt : ¬ s.cfg.numAxes ≤ a := Nat.not_le.2 ha
    by_cases hsig : (s.axis a).mb.sig = true
    · refine ⟨_, hvalid.trans (if_pos hsig), SameBut.modPort .., fun _ _ => State.port_modPort_self hwf.issuer_lt _,
        fun _ h => ?_, fun h => absurd h hlt⟩
      exact absurd (hsig.symm.trans h) (by decide)
    · obtain ⟨t, hexec, hframe, hport⟩ := exec_completes hwf (code := .errNowait) (hvalid.trans (if_neg hsig))
      exact ⟨t, hexec, hframe, fun _ h => absurd h hsig, fun _ _ => hport, fun h => absurd h hlt⟩
  · obtain ⟨t, hexec, hframe, hport⟩ :=
      exec_completes hwf (i := .wait a) (code := .errAxis) (if_neg (mt axisValid_iff.1 ha))
    exact ⟨t, hexec, hframe, fun h => absurd h ha, fun h => absurd h ha, fun _ => hport⟩

/-- Settles O25: the snapshot and the completion are one update of the issuing port. -/
theorem statusResult : Obligations.StatusResult := by
  unfold Obligations.StatusResult
  intro s a hwf
  by_cases ha : a < s.cfg.numAxes
  · have hexec : exec (.status a) s = .next _ := if_pos (axisValid_iff.2 ha)
    rw [complete, State.modPort_modPort] at hexec
    exact ⟨_, hexec, SameBut.modPort .., fun _ => State.port_modPort_self hwf.issuer_lt _,
      fun h => absurd h (Nat.not_le.2 ha)⟩
  · obtain ⟨t, hexec, hframe, hport⟩ :=
      exec_completes hwf (i := .status a) (code := .errAxis) (if_neg (mt axisValid_iff.1 ha))
    exact ⟨t, hexec, hframe, fun h => absurd h ha, fun _ => hport⟩

/-- Settles O26: the GO leaves a mailbox that does not signal, of which the WAIT reads ERR_NOWAIT. -/
theorem zeroStepsNeverSignal : Obligations.ZeroStepsNeverSignal := by
  unfold Obligations.ZeroStepsNeverSignal
  intro s a hwf ha hsteps
  obtain ⟨hgo, -⟩ := goResult s a hwf
  obtain ⟨t, hexec, hframe, -, haxis⟩ := hgo ha _ _ rfl rfl
  obtain ⟨u, hwait, -, -, hnowait, -⟩ := waitResult t a (hframe.wf hwf)
  obtain ⟨hcfg, hissuer, -⟩ := hframe
  have hsig : (t.axis a).mb.sig = false := by
    rw [haxis, hsteps]
    rfl
  have hport := hnowait (hcfg ▸ ha) hsig
  rw [hissuer] at hport
  exact ⟨t, u, hexec, hsig, hwait, by rw [hport], by rw [hport], by rw [hport]⟩

end Sys2Proof.Machine
end

section
/-! When an axis ticks and when a WAIT ends (41_axis_controller.md R125, R138). -/

namespace Sys2Proof.Machine

/-! ### The WAIT completion -/

/-- The sequencer of a port that holds on a WAIT: it takes the semaphore of axis PWAX when that is given. -/
theorem sequencerStep_waitAxis {s : State} {p : Nat} (hp : p < s.cfg.numPorts)
    (hwait : (s.port p).pstate = .waitAxis) :
    sequencerStep p s =
      if (s.axis (s.port p).pwax.toNat).sem then complete p .ok (takeSem (s.port p).pwax.toNat s) else s := by
  have henabled : sequencerEnabled s p = (s.axis (s.port p).pwax.toNat).sem := by
    simp [sequencerEnabled, awaitedAxis, hwait, hp]
  rw [sequencerStep, henabled, hwait]

/-- Settles O37: the take and the completion are an update of the axis and one of the port. -/
theorem waitCompletionTakesSemaphore : Obligations.WaitCompletionTakesSemaphore := by
  unfold Obligations.WaitCompletionTakesSemaphore
  intro s p rest hwf hnext hp hwait _
  obtain ⟨-, -, ports, -⟩ := hwf
  have hstep : step s = .next (sequencerStep p (s.withSchedule rest)) := step_next hnext
  rw [sequencerStep_waitAxis (s := s.withSchedule rest) hp hwait] at hstep
  refine ⟨fun hgiven => ?_, fun hempty => ?_⟩
  · refine ⟨_, hstep.trans (congrArg _ (if_pos hgiven)), ?_, ?_, ?_⟩
    · exact (SameBut.modAxis (s.withSchedule rest) _ _).trans (SameBut.complete ..)
    · simp [axis_takeSem]
    · exact port_complete (s := takeSem _ (s.withSchedule rest)) (ports ▸ hp) .ok
  · exact hstep.trans (congrArg _ (if_neg (by simp [hempty])))

/-! ### Which ticks occur -/

/-- Settles O41: an enabled tick is one update of its axis. -/
theorem tickOccursExactlyWhenEnabled : Obligations.TickOccursExactlyWhenEnabled := by
  unfold Obligations.TickOccursExactlyWhenEnabled
  intro s a rest hwf htiming hnext ha
  obtain ⟨-, axes, -⟩ := hwf
  have hstep : step s = .next (tickStep a (s.withSchedule rest)) := step_next hnext
  have hready : tickReady (s.withSchedule rest) a = true ↔ (s.axis a).force = true ∨ (s.axis a).reload ≠ 0#16 :=
    tickReady_iff.trans ⟨fun h => tickEnabled_iff.1 h.2.2, fun h => ⟨htiming, ha, tickEnabled_iff.2 h⟩⟩
  refine ⟨fun henabled => ?_, fun hforce hreload => ?_⟩
  · exact ⟨_, hstep.trans (congrArg _ (if_pos (hready.2 henabled))), SameBut.modAxis (s.withSchedule rest) a _,
      State.axis_modAxis_self (s := s.withSchedule rest) (axes ▸ ha) _⟩
  · exact hstep.trans (congrArg _ (if_neg (mt hready.1 (by simp [hforce, hreload]))))

/-- A command leaves RELOAD alone and sets FORCE at most. -/
theorem AxisCommanded.tickEnabled {m o : Bool} {x y : Axis} (h : AxisCommanded m o x y) (hx : x.tickEnabled = true) :
    y.tickEnabled = true := by
  have hreload : y.reload = x.reload := by rw [h.frame]
  rw [tickEnabled_iff] at hx ⊢
  obtain hforce | ⟨-, -, hforce⟩ := h.force
  · rwa [hforce, hreload]
  · exact .inl hforce

/-- Settles O60: what is left of the agents neither clears FORCE nor writes RELOAD. -/
theorem enabledTickStaysEnabled : Obligations.EnabledTickStaysEnabled := by
  unfold Obligations.EnabledTickStaysEnabled
  intro s t e rest a hnext hstep henabled htick hedge hreset
  cases axisStep_of_step a hnext hstep hreset with
  | same h => rwa [h]
  | command _ _ h => exact h.tickEnabled henabled
  | take _ _ h => rwa [h]
  | tick _ he _ => exact absurd he (not_or.2 ⟨htick, hedge⟩)
  | count _ he _ => exact absurd he hedge

end Sys2Proof.Machine
end

section
/-! The parts of a TICK (41_axis_controller.md R130 to R137): its path, the load, the accumulator, the ramp and the phase
output. -/

namespace Sys2Proof.Machine

/-! ### The path and the accumulator -/

/-- Settles O43: the three checks of a tick after its load, in their order. -/
theorem tickPathAndStatus : Obligations.TickPathAndStatus := by
  unfold Obligations.TickPathAndStatus
  rintro c x y z rfl rfl
  refine ⟨fun hidle => if_pos hidle, fun hrun hsub => ?_, fun hrun hbound hstop => ?_, fun hrun hbound hmove => ?_⟩
  · exact (if_neg hrun).trans (if_pos (subTick_def.2 hsub))
  · exact (if_neg hrun).trans ((if_neg (mt subTick_def.1 hbound)).trans (if_pos hstop))
  · exact (if_neg hrun).trans ((if_neg (mt subTick_def.1 hbound)).trans (if_neg hmove))

/-- Settles O44: the two outcomes of `Accumulate`. -/
theorem accumulatorCarriesRemainder : Obligations.AccumulatorCarriesRemainder := by
  unfold Obligations.AccumulatorCarriesRemainder
  intro c x hb hperiod
  refine ⟨fun hsub => ?_, fun hbound => ?_⟩
  · rw [afterLoad_below_period hb hperiod hsub]
    exact ⟨accumNext_toNat hb, rfl⟩
  · exact (afterLoad_at_period hb hperiod hbound).symm

/-! ### The load -/

section
variable {v t : Int} {acc : Nat}

/-! One equation per case of the velocity that a load hands to the scaler (41_axis_controller.md R131). -/

theorem loadVelocity_snap : loadVelocity v t 0 = t := if_pos rfl

theorem loadVelocity_bootstrap (hacc : acc ≠ 0) (ht : t ≠ 0) : loadVelocity 0 t acc = sign t * floorSpeed t :=
  (if_neg hacc).trans (if_pos ⟨rfl, ht⟩)

theorem loadVelocity_stay (hacc : acc ≠ 0) (h : v ≠ 0 ∨ t = 0) : loadVelocity v t acc = v :=
  (if_neg hacc).trans (if_neg (by tauto))

end

/-- Settles O42: the velocity is `loadVelocity`, in its three cases. -/
theorem tickLoadsPendingMailbox : Obligations.TickLoadsPendingMailbox := by
  unfold Obligations.TickLoadsPendingMailbox
  intro c x _
  refine ⟨fun hpend => if_neg (by simp [hpend]), fun hpend => ?_⟩
  refine ⟨loadVelocity (s32 x.vel) (s32 x.mb.tgt) x.mb.acc.toNat, fun hacc => ?_, fun hacc hvel htgt => ?_,
    fun hacc hstay => ?_, ?_⟩
  · rw [hacc]
    exact loadVelocity_snap
  · rw [hvel]
    exact loadVelocity_bootstrap (mt toNat_eq_zero_iff.1 hacc) (mt (s32_eq_zero _).1 htgt)
  · exact loadVelocity_stay (mt toNat_eq_zero_iff.1 hacc) (hstay.imp (mt (s32_eq_zero _).1) (s32_eq_zero _).2)
  · rw [Axis.tickLoad, if_pos hpend, Axis.load]
    simp [stopThreshold, toNat_eq_zero_iff, pow_two, Axis.setScaled, u32]

/-! ### The ramp -/

section
variable (c : Config) {x : Axis}

theorem ramp_at_target (h : x.vel = x.tgt) : x.ramp c = x := if_pos h

theorem ramp_off_target (h : x.vel ≠ x.tgt) : x.ramp c = x.setScaled (scale c
    (rampVelocity c (s32 x.vel) (s32 x.tgt) x.accel.toNat x.period.toNat x.rem.toNat)) := if_neg h

end

/-- Settles O46: the cases are those of `rampVelocity_eq`. -/
theorem rampFollowsItsRule : Obligations.RampFollowsItsRule := by
  unfold Obligations.RampFollowsItsRule
  intro c x _
  refine ⟨ramp_at_target c, ?_⟩
  rintro v t dv m hne rfl rfl rfl rfl
  have hs32 : s32 x.vel ≠ s32 x.tgt := mt s32_inj.1 hne
  obtain ⟨hlo, hhi⟩ := rampVelocity_bounds c x.accel.toNat x.period.toNat x.rem.toNat hs32 (s32_bounds _)
    (s32_bounds _)
  refine ⟨_, hlo, hhi, ramp_off_target c hne, ?_⟩
  rw [rampVelocity_eq c _ _ _ hs32]
  simp only [toNat_eq_zero_iff]
  refine ⟨fun hacc => if_pos hacc, fun hacc ht hslow => ?_, fun hacc ht hfast => ?_, fun hacc ht hrem hslow => ?_,
    fun hacc ht hmove => ?_⟩
  · exact (if_neg hacc).trans ((if_pos ht).trans (if_pos hslow))
  · exact (if_neg hacc).trans ((if_pos ht).trans (if_neg (Nat.not_lt.2 hfast)))
  · exact (if_neg hacc).trans ((if_neg (not_not.2 ht)).trans (if_pos ⟨mt toNat_eq_zero_iff.1 hrem, hslow⟩))
  · refine (if_neg hacc).trans ((if_neg (not_not.2 ht)).trans (if_neg ?_))
    rintro ⟨hrem, hslow⟩
    exact hmove.elim (fun h => hrem (toNat_eq_zero_iff.2 h)) (fun h => absurd hslow (Nat.not_lt.2 h))

/-- Toward a target of at least 1.0 in the direction of travel the ramp moves between the velocity and the target. -/
theorem rampVelocity_between (c : Config) {v t : Int} (acc period rem : Nat) (htgt : 65536 ≤ t.natAbs) :
    (0 < v → v < t → v ≤ rampVelocity c v t acc period rem ∧ rampVelocity c v t acc period rem ≤ t) ∧
    (v < 0 → t < v → t ≤ rampVelocity c v t acc period rem ∧ rampVelocity c v t acc period rem ≤ v) := by
  have hfloor : floorSpeed t ≤ t.natAbs := max_le htgt (Nat.div_le_self ..)
  have ht : t ≠ 0 := by rintro rfl; simp at htgt
  obtain ⟨hup, hdown⟩ := rampMove_between v t (acc * period / c.clkHz)
  refine ⟨fun hv hvt => ?_, fun hv htv => ?_⟩
  · obtain ⟨hlo, hhi⟩ := hup hvt
    have hsign : sign t = 1 := Int.sign_eq_one_of_pos (hv.trans hvt)
    rw [rampVelocity_eq c acc period rem hvt.ne, if_pos ht, hsign, absInt]
    split
    · omega
    · split <;> omega
  · obtain ⟨hlo, hhi⟩ := hdown htv.le
    have hsign : sign t = -1 := Int.sign_eq_neg_one_of_neg (htv.trans hv)
    rw [rampVelocity_eq c acc period rem htv.ne', if_pos ht, hsign, absInt]
    split
    · omega
    · split <;> omega

/-- Such a ramp keeps the direction, is no slower than before and does not pass the target. -/
theorem rampVelocity_monotone (c : Config) {v t : Int} (acc period rem : Nat) (htgt : 65536 ≤ t.natAbs)
    (hsign : sign v = sign t) (hlt : v.natAbs < t.natAbs) :
    sign (rampVelocity c v t acc period rem) = sign t ∧ v.natAbs ≤ (rampVelocity c v t acc period rem).natAbs ∧
      (rampVelocity c v t acc period rem).natAbs ≤ t.natAbs := by
  obtain ⟨hup, hdown⟩ := rampVelocity_between c (v := v) acc period rem htgt
  obtain ⟨ht, ht'⟩ | ⟨ht, -⟩ | ⟨ht, ht'⟩ := sign_cases t
  · have hv : v < 0 := Int.sign_eq_neg_one_iff_neg.1 (hsign.trans ht')
    obtain ⟨hlo, hhi⟩ := hdown hv (by omega)
    exact ⟨(Int.sign_eq_neg_one_of_neg (hhi.trans_lt hv)).trans ht'.symm, by omega, by omega⟩
  · omega
  · have hv : 0 < v := Int.sign_eq_one_iff_pos.1 (hsign.trans ht')
    obtain ⟨hlo, hhi⟩ := hup hv (by omega)
    exact ⟨(Int.sign_eq_one_of_pos (hv.trans_le hlo)).trans ht'.symm, by omega, by omega⟩

/-- A velocity that the scaler keeps is kept at any higher speed: the period is shorter. -/
theorem scale_vel_of_le {c : Config} {v w : Int} (h : (scale c v).vel = v) (hv : v ≠ 0) (hle : absInt v ≤ absInt w) :
    (scale c w).vel = w := by
  obtain hoff | ⟨heps, hfits, -⟩ := scale_cases c v
  · rw [hoff] at h
    exact absurd h.symm hv
  · have hraw : rawPeriod c (absInt w) ≤ rawPeriod c (absInt v) := Nat.div_le_div_left hle (Int.natAbs_pos.2 hv)
    rw [scale_period_fits (heps.trans hle) (hraw.trans hfits)]
    rfl

/-- Settles O47: the ramp hands over a velocity no slower than VEL, which the scaler keeps. -/
theorem rampIsMonotone : Obligations.RampIsMonotone := by
  unfold Obligations.RampIsMonotone
  intro c x _ hscale
  refine ⟨fun ht0 htgt hsign hlt => ?_, ramp_at_target c, fun hperiod hsub => ?_⟩
  · have hvel : s32 x.vel ≠ 0 := fun h0 => ht0 (Int.sign_eq_zero_iff_zero.1 (hsign ▸ Int.sign_eq_zero_iff_zero.2 h0))
    have hne : x.vel ≠ x.tgt := fun h => absurd hlt (by simp [h])
    have hkept : (scale c (s32 x.vel)).vel = s32 x.vel := by
      obtain ⟨hstopped, -, -, htuple⟩ := hscale
      rw [htuple (mt hstopped.2 (mt (s32_eq_zero _).2 hvel))]
    obtain ⟨hdir, hfaster, hlimit⟩ :=
      rampVelocity_monotone c x.accel.toNat x.period.toNat x.rem.toNat htgt hsign hlt
    have hbounds := rampVelocity_bounds c x.accel.toNat x.period.toNat x.rem.toNat (mt s32_inj.1 hne) (s32_bounds _)
      (s32_bounds _)
    rw [ramp_off_target c hne, Axis.setScaled_vel, scale_vel_of_le hkept hvel hfaster, ← s32, s32_u32 hbounds]
    exact ⟨hdir, hfaster, hlimit⟩
  · rw [Axis.afterLoad, if_neg hperiod, if_pos hsub]

/-! ### The phase output -/

/-- Settles O49: entry i of the table is its i-th group of four bits, and the 3-bit index wraps at 8. -/
theorem phaseOutFollowsItsRule : Obligations.PhaseOutFollowsItsRule := by
  unfold Obligations.PhaseOutFollowsItsRule
  intro c x
  refine ⟨rfl, ?_, fun hpos => ?_, fun hneg => ?_, fun hzero => ?_⟩
  · rw [Axis.phaseOut_out, phasePattern, BitVec.extractLsb'_toNat, Nat.shiftRight_eq_div_pow, Nat.pow_mul]
  · rw [Axis.phaseOut_phase, if_pos hpos, BitVec.toNat_add]
    rfl
  · rw [Axis.phaseOut_phase, if_neg hneg.not_gt, if_pos hneg, BitVec.toNat_add]
    rfl
  · rw [Axis.phaseOut_phase, if_neg hzero.not_gt, if_neg hzero.not_lt]

end Sys2Proof.Machine
end

section
/-! The planner's datapath: the wheel velocities and their saturation (42_planner.md R161, R162, R180, R181). -/

namespace Sys2Proof.Machine

/-! ### One limit -/

/-- A velocity of magnitude at most n scaled by m / n has magnitude at most m. -/
theorem absInt_scaled_le {v : Int} {m n : Nat} (h : absInt v ≤ n) : absInt (tdiv (v * m) n) ≤ m := by
  rw [absInt, Int.natAbs_tdiv, Int.natAbs_mul, Int.natAbs_natCast, Int.natAbs_natCast]
  exact Nat.div_le_of_le_mul (Nat.mul_le_mul_right m h)

/-- A velocity scaled by m over its own magnitude keeps its sign and has magnitude m. -/
theorem scaled_self {v : Int} (m : Nat) (h : v ≠ 0) : tdiv (v * m) (absInt v) = sign v * m := by
  have hpos : (absInt v : Int) ≠ 0 := Int.natCast_ne_zero.2 (Int.natAbs_ne_zero.2 h)
  calc tdiv (v * m) (absInt v) = tdiv (sign v * m * absInt v) (absInt v) := by
        rw [mul_right_comm, Int.sign_mul_natAbs]
    _ = sign v * m := Int.mul_tdiv_cancel _ hpos

section
variable {c : Config} {offending : Int} {wheels : Int × Int}

theorem limitBoth_within (h : absInt offending ≤ c.vmax) : limitBoth c offending wheels = wheels :=
  if_neg (Nat.not_lt.2 h)

theorem limitBoth_exceeding (h : c.vmax < absInt offending) : limitBoth c offending wheels =
    (tdiv (wheels.1 * c.vmax) (absInt offending), tdiv (wheels.2 * c.vmax) (absInt offending)) := if_pos h

/-- After a limit each wheel no faster than the offending one or VMAX_Q is within VMAX_Q. -/
theorem limitBoth_le :
    (absInt wheels.1 ≤ max c.vmax (absInt offending) → absInt (limitBoth c offending wheels).1 ≤ c.vmax) ∧
    (absInt wheels.2 ≤ max c.vmax (absInt offending) → absInt (limitBoth c offending wheels).2 ≤ c.vmax) := by
  obtain hwithin | hexceeding := le_or_gt (absInt offending) c.vmax
  · rw [limitBoth_within hwithin, max_eq_left hwithin]
    exact ⟨id, id⟩
  · rw [limitBoth_exceeding hexceeding, max_eq_right hexceeding.le]
    exact ⟨absInt_scaled_le, absInt_scaled_le⟩

end

theorem limitBoth_same (c : Config) (offending v : Int) : ∃ w, limitBoth c offending (v, v) = (w, w) := by
  obtain hwithin | hexceeding := le_or_gt (absInt offending) c.vmax
  · exact ⟨_, limitBoth_within hwithin⟩
  · exact ⟨_, limitBoth_exceeding hexceeding⟩

/-! ### The saturation -/

theorem saturate_within {c : Config} {wheels : Int × Int} (hright : absInt wheels.1 ≤ c.vmax)
    (hleft : absInt wheels.2 ≤ c.vmax) : saturate c wheels = wheels := by
  rw [saturate, limitBoth_within hright, limitBoth_within hleft]

theorem saturate_same (c : Config) (v : Int) : ∃ w, saturate c (v, v) = (w, w) := by
  obtain ⟨w, hfirst⟩ := limitBoth_same c v v
  rw [saturate, hfirst]
  exact limitBoth_same c w w

/-- When the right limit triggers and the left wheel is no faster, the left limit does not trigger. -/
theorem saturate_right {c : Config} {vr vl : Int} (hexceeding : c.vmax < absInt vr) (hle : absInt vl ≤ absInt vr) :
    saturate c (vr, vl) = (sign vr * c.vmax, tdiv (vl * c.vmax) (absInt vr)) := by
  have hne : vr ≠ 0 := Int.natAbs_pos.1 (Nat.zero_lt_of_lt hexceeding)
  rw [saturate, limitBoth_exceeding hexceeding, limitBoth_within (absInt_scaled_le hle), scaled_self _ hne]

/-- Settles O34: the right limit bounds the right wheel, and the left limit bounds the left one and keeps the right
one's bound. -/
theorem saturationBoundsBothWheels : Obligations.SaturationBoundsBothWheels := by
  unfold Obligations.SaturationBoundsBothWheels
  intro c wheels _
  have hright : absInt (limitBoth c wheels.1 wheels).1 ≤ c.vmax := limitBoth_le.1 (le_max_right ..)
  exact ⟨limitBoth_le.1 (hright.trans (le_max_left ..)), limitBoth_le.2 (le_max_right ..), saturate_within⟩

/-- Settles O36: the right limit alone, and 2 / 3 is VMAX_Q / |vr| in lowest terms. -/
theorem rightLimitScalesBothWheels : Obligations.RightLimitScalesBothWheels := by
  unfold Obligations.RightLimitScalesBothWheels
  intro c vr vl _ hexceeding hle
  have hsat := saturate_right hexceeding hle
  refine ⟨hsat, fun hratio => ?_⟩
  have hpos : (0 : Int) < absInt vr := Int.natCast_pos.2 (Nat.zero_lt_of_lt hexceeding)
  have hscale : 3 * (vl * c.vmax) = 2 * vl * absInt vr := by
    have : (2 * absInt vr : Int) = 3 * c.vmax := mod_cast hratio
    linear_combination -vl * this
  calc (saturate c (vr, vl)).2 = tdiv (vl * c.vmax) (absInt vr) := by rw [hsat]
    _ = tdiv (3 * (vl * c.vmax)) (3 * absInt vr) := (Int.mul_tdiv_mul_of_pos _ _ (by decide)).symm
    _ = tdiv (2 * vl) 3 := by rw [hscale, tdiv, Int.mul_tdiv_mul_of_pos_left _ _ hpos]

/-! ### The symmetry of the wheels -/

theorem turnSpeed_neg (c : Config) (w : Int) : turnSpeed c (-w) = -turnSpeed c w := by
  rw [turnSpeed, turnSpeed, tdiv, tdiv, mul_neg, Int.neg_tdiv]

theorem wheelVelocities_neg (c : Config) (v w : Int) : wheelVelocities c v (-w) = (wheelVelocities c v w).swap := by
  simp only [wheelVelocities, turnSpeed_neg, sub_neg_eq_add, ← sub_eq_add_neg, Prod.swap_prod_mk]

theorem wheelVelocities_straight (c : Config) {v : Int} (h : -2147483648 ≤ v ∧ v ≤ 2147483647) :
    wheelVelocities c v 0 = (v, v) := by
  have hturn : turnSpeed c 0 = 0 := by rw [turnSpeed, mul_zero, tdiv, Int.zero_tdiv]
  rw [wheelVelocities, hturn, add_zero, sub_zero, sat32_of_bounds h]

/-- Settles O35: the wheels start equal or swapped, and the saturation keeps equal wheels equal. -/
theorem plannerIsSymmetric : Obligations.PlannerIsSymmetric := by
  unfold Obligations.PlannerIsSymmetric
  intro c V A W D _ hmin hmax
  have hstraight : wheelVelocities c V 0 = (V, V) := wheelVelocities_straight c ⟨hmin, by omega⟩
  refine ⟨hstraight, ?_, fun hright hleft => ?_⟩
  · obtain ⟨w, hw⟩ := saturate_same c V
    rw [plannedVelocities, hstraight, hw]
  · rw [plannedVelocities, plannedVelocities, wheelVelocities_neg, saturate_within hright hleft]
    exact saturate_within hleft hright

end Sys2Proof.Machine
end

section
/-! The planner's commands and the waits of a PGO (42_planner.md R163, R164, R170 to R176). -/

namespace Sys2Proof.Machine

/-! ### Updates of both wheels -/

section
variable {s : State} (hwf : s.Wf)
include hwf

/-- The wheels are two axes of the block (00_scope.md R6). -/
theorem State.Wf.wheels : s.cfg.axisRight < s.axes.length ∧ s.cfg.axisLeft < s.axes.length ∧
    s.cfg.axisRight ≠ s.cfg.axisLeft := by
  obtain ⟨hc, axes, -⟩ := hwf
  obtain ⟨-, -, -, -, hwheels, -⟩ := (configLegal_iff _).1 hc
  rw [axes]
  exact hwheels

/-- An update of the right wheel and then of the left one is each wheel's own update. -/
theorem wheels_modAxis (f g : Axis → Axis) :
    ((s.modAxis s.cfg.axisRight f).modAxis s.cfg.axisLeft g).axis s.cfg.axisRight = f (s.axis s.cfg.axisRight) ∧
    ((s.modAxis s.cfg.axisRight f).modAxis s.cfg.axisLeft g).axis s.cfg.axisLeft = g (s.axis s.cfg.axisLeft) := by
  obtain ⟨hright, hleft, hne⟩ := hwf.wheels
  constructor
  · rw [State.axis_modAxis_ne hne, State.axis_modAxis_self hright]
  · rw [State.axis_modAxis_self (by simpa using hleft), State.axis_modAxis_ne hne.symm]

/-- A command that updates both wheels alike and completes changes them and its port alone. -/
theorem exec_updates_wheels {i : Instr} {f : Axis → Axis}
    (h : exec i s = .next (complete s.issuer .ok ((s.modAxis s.cfg.axisRight f).modAxis s.cfg.axisLeft f))) :
    ∃ t, exec i s = .next t ∧ SameBut [s.cfg.axisRight, s.cfg.axisLeft] [s.issuer] s t ∧
      t.port s.issuer = (s.port s.issuer).ended 0#32 ∧
      ∀ a ∈ [s.cfg.axisRight, s.cfg.axisLeft], t.axis a = f (s.axis a) := by
  obtain ⟨hright, hleft⟩ := wheels_modAxis hwf f f
  refine ⟨_, h, ((SameBut.modAxis ..).trans (SameBut.modAxis ..)).trans (SameBut.complete ..),
    port_complete (s := (s.modAxis _ f).modAxis _ f) hwf.issuer_lt .ok, ?_⟩
  simpa using ⟨hright, hleft⟩

end

/-! ### PSTOP, PIDLE and PSTATUS -/

/-- STOP's mailbox write is one update of the axis. -/
theorem stopBody_eq (a : Nat) (hard : Bool) (s : State) :
    stopBody a hard s = s.modAxis a (fun x => x.mbWrite 0 (if hard then 0 else x.accel.toNat) 0) := rfl

/-- Settles O31: one update of both wheels. -/
theorem pstopResult : Obligations.PstopResult := by
  unfold Obligations.PstopResult
  intro s hard hwf
  have hpstop : exec (.pstop hard) s =
    .next (complete s.issuer .ok (stopBody s.cfg.axisLeft hard (stopBody s.cfg.axisRight hard s))) := rfl
  rw [stopBody_eq, stopBody_eq] at hpstop
  obtain ⟨t, hexec, hframe, hport, hwheels⟩ := exec_updates_wheels hwf hpstop
  refine ⟨t, hexec, hframe, hport, fun a ha => ?_⟩
  rw [hwheels a ha, mbWrite_eq_mailed _ _ _ (by decide)]
  cases hard <;> simp [u32]

/-- Settles O32: one update of both wheels, as `idleBody_eq` says. -/
theorem pidleResult : Obligations.PidleResult := by
  unfold Obligations.PidleResult
  intro s hwf
  have hpidle : exec .pidle s =
    .next (complete s.issuer .ok (idleBody s.cfg.axisLeft (idleBody s.cfg.axisRight s))) := rfl
  rw [idleBody_eq, idleBody_eq] at hpidle
  obtain ⟨t, hexec, hframe, hport, hwheels⟩ := exec_updates_wheels hwf hpidle
  refine ⟨t, hexec, hframe, hport, fun a ha => ?_⟩
  rw [hwheels a ha, mbWrite_eq_mailed _ _ _ (by decide)]
  rfl

/-- Settles O33: the two snapshots and the completion are one update of the issuing port. -/
theorem pstatusResult : Obligations.PstatusResult := by
  unfold Obligations.PstatusResult
  intro s hwf
  have hexec : exec .pstatus s = .next (complete s.issuer .ok (s.modPort s.issuer _)) := rfl
  rw [complete, State.modPort_modPort] at hexec
  exact ⟨_, hexec, SameBut.modPort .., State.port_modPort_self hwf.issuer_lt _⟩

/-! ### The wheel commands of a PGO -/

/-- The axis as `WheelGo` of `k` leaves it (42_planner.md R170): the normalised command in its mailbox. -/
def WheelCommand.mailTo (k : WheelCommand) (x : Axis) : Axis :=
  x.mailed (u32 (if k.steps < 0 then negSat k.vel else k.vel)) (BitVec.ofNat 32 (absInt k.acc))
    (BitVec.ofNat 32 (absInt k.steps))

theorem absInt_steps_lt (c : Config) (v a d w : Int) : absInt (wheelCommand c v a d w).steps < 2 ^ 32 := by
  have := sat32_bounds (tdiv (d * w * c.stepsPerM) (v * 4294967296))
  simp only [wheelCommand, absInt]
  omega

section
variable {k : WheelCommand} (hsteps : absInt k.steps < 2 ^ 32)
include hsteps

theorem wheelGo_eq (a : Nat) (s : State) : wheelGo a k s = s.modAxis a k.mailTo := by
  simp only [wheelGo, goBody, mbWrite, normalise_count, normalise_velocity, mbWrite_eq_mailed _ _ _ hsteps]
  rfl

/-- A wheel's command signals exactly when it has steps (41_axis_controller.md R111). -/
theorem sig_mailTo (x : Axis) : (k.mailTo x).mb.sig = decide (k.steps ≠ 0) :=
  decide_eq_decide.2 ((ofNat_ne_zero hsteps).symm.trans Int.natAbs_ne_zero)

end

/-! ### The start of a PGO's waits (42_planner.md R175) -/

/-- `WaitBegin(p, LEFT)` is one update of the port. -/
theorem waitBeginLeft_eq (p : Nat) (s : State) : waitBeginLeft p s =
    s.modPort p fun q => if (s.axis s.cfg.axisLeft).mb.sig then q.held .pwaitL else q.ended 0#32 := by
  rw [waitBeginLeft]
  split <;> rfl

/-- `WaitBegin(p, RIGHT)` is one update of the port. -/
theorem waitBeginRight_eq (p : Nat) (s : State) : waitBeginRight p s =
    s.modPort p fun q => if (s.axis s.cfg.axisRight).mb.sig then q.held .pwaitR
      else if (s.axis s.cfg.axisLeft).mb.sig then q.held .pwaitL else q.ended 0#32 := by
  rw [waitBeginRight, waitBeginLeft_eq]
  split <;> rfl

/-! ### PGO -/

/-- Settles O30: the check of V comes before anything is written. -/
theorem pgoZeroVelocityRejected : Obligations.PgoZeroVelocityRejected := by
  unfold Obligations.PgoZeroVelocityRejected
  intro s hwf hzero
  exact exec_completes hwf (i := .pgo) (code := .errZerov) (if_pos ((s32_eq_zero _).2 hzero))

/-- The issue of a PGO of wheel commands `r` and `l`: an update of each wheel and one of the issuing port. -/
theorem pgo_issues {s : State} (hwf : s.Wf) {v a w d vr vl : Int} {r l : WheelCommand}
    (hv : v = (s.port s.issuer).velocityArg) (ha : a = (s.port s.issuer).accelerationArg)
    (hw : w = (s.port s.issuer).turnArg) (hd : d = (s.port s.issuer).distanceArg) (hne : v ≠ 0)
    (hwheels : plannedVelocities s.cfg v w = (vr, vl)) (hr : wheelCommand s.cfg v a d vr = r)
    (hl : wheelCommand s.cfg v a d vl = l) :
    ∃ u, exec .pgo s = .next u ∧ SameBut [s.cfg.axisRight, s.cfg.axisLeft] [s.issuer] s u ∧
      u.axis s.cfg.axisRight = r.mailTo (s.axis s.cfg.axisRight) ∧
      u.axis s.cfg.axisLeft = l.mailTo (s.axis s.cfg.axisLeft) ∧
      u.port s.issuer = { (if r.steps ≠ 0 then (s.port s.issuer).held .pwaitR
          else if l.steps ≠ 0 then (s.port s.issuer).held .pwaitL else (s.port s.issuer).ended 0#32) with
        res := pgoRes r l vr vl } := by
  have hrsteps : absInt r.steps < 2 ^ 32 := hr ▸ absInt_steps_lt ..
  have hlsteps : absInt l.steps < 2 ^ 32 := hl ▸ absInt_steps_lt ..
  obtain ⟨hright, hleft⟩ := wheels_modAxis hwf r.mailTo l.mailTo
  have hissue : pgoIssue v a w d s = ((s.modAxis s.cfg.axisRight r.mailTo).modAxis s.cfg.axisLeft l.mailTo).modPort
      s.issuer (fun q => { q with res := pgoRes r l vr vl }) := by
    simp only [pgoIssue, hwheels, hr, hl, wheelGo_eq hrsteps, wheelGo_eq hlsteps]
  have hexec : exec .pgo s = .next (waitBeginRight s.issuer (pgoIssue v a w d s)) := by
    subst hv ha hw hd
    exact if_neg hne
  rw [hissue, waitBeginRight_eq, State.modPort_modPort] at hexec
  simp only [State.modPort_cfg, State.modAxis_cfg, State.axis_modPort, hright, hleft, sig_mailTo hrsteps,
    sig_mailTo hlsteps, decide_eq_true_eq] at hexec
  refine ⟨_, hexec, ((SameBut.modAxis ..).trans (SameBut.modAxis ..)).trans (SameBut.modPort ..), hright, hleft,
    (State.port_modPort_self (s := (s.modAxis _ _).modAxis _ _) hwf.issuer_lt _).trans ?_⟩
  split
  · rfl
  · split <;> rfl

/-- Settles O29: the equations of the statement are the datapath's, and `pgo_issues` says what its commands do. -/
theorem pgoResult : Obligations.PgoResult := by
  unfold Obligations.PgoResult
  intro sat neg hsat hneg s V A W D t r0 l0 r1 l1 vr vl VELr ACCr STEPSr VELl ACCl STEPSl hwf hV hA hW hD hne
    ht hr0 hl0 hrightLimit hleftLimit hVELr hACCr hSTEPSr hVELl hACCl hSTEPSl
  obtain rfl : sat = sat32 := funext hsat
  obtain rfl : neg = negSat := funext hneg
  have hfirst : limitBoth s.cfg r0 (r0, l0) = (r1, l1) := hrightLimit.symm
  have hsecond : limitBoth s.cfg l1 (r1, l1) = (vr, vl) := hleftLimit.symm
  have hwheels : plannedVelocities s.cfg V W = (vr, vl) := by
    have hstart : wheelVelocities s.cfg V W = (r0, l0) := by
      rw [hr0, hl0, ht]
      rfl
    rw [plannedVelocities, hstart, saturate, hfirst, hsecond]
  have hr : wheelCommand s.cfg V A D vr = ⟨VELr, ACCr, STEPSr⟩ := by
    rw [hVELr, hACCr, hSTEPSr]
    rfl
  have hl : wheelCommand s.cfg V A D vl = ⟨VELl, ACCl, STEPSl⟩ := by
    rw [hVELl, hACCl, hSTEPSl]
    rfl
  exact pgo_issues hwf hV hA hW hD hne hwheels hr hl

/-! ### The steps of a PGO's waits -/

/-- The sequencer of a port that waits on an axis has a step exactly when that axis's semaphore is given. -/
theorem sequencerEnabled_eq_sem {s : State} {p a : Nat} (hp : p < s.cfg.numPorts)
    (hawaits : awaitedAxis s.cfg (s.port p) = some a) : sequencerEnabled s p = (s.axis a).sem := by
  rw [sequencerEnabled, hawaits, decide_eq_true hp, Bool.true_and]

/-- The sequencer of a port that holds on the right wheel: it takes that wheel's semaphore when that is given, and
goes on to the left wheel. -/
theorem sequencerStep_pwaitR {s : State} {p : Nat} (hp : p < s.cfg.numPorts) (hwait : (s.port p).pstate = .pwaitR) :
    sequencerStep p s =
      if (s.axis s.cfg.axisRight).sem then waitBeginLeft p (takeSem s.cfg.axisRight s) else s := by
  have hawaits : awaitedAxis s.cfg (s.port p) = some s.cfg.axisRight := by rw [awaitedAxis, hwait]
  rw [sequencerStep, sequencerEnabled_eq_sem hp hawaits, hwait]

/-- The sequencer of a port that holds on the left wheel: it takes that wheel's semaphore when that is given, and
completes. -/
theorem sequencerStep_pwaitL {s : State} {p : Nat} (hp : p < s.cfg.numPorts) (hwait : (s.port p).pstate = .pwaitL) :
    sequencerStep p s =
      if (s.axis s.cfg.axisLeft).sem then complete p .ok (takeSem s.cfg.axisLeft s) else s := by
  have hawaits : awaitedAxis s.cfg (s.port p) = some s.cfg.axisLeft := by rw [awaitedAxis, hwait]
  rw [sequencerStep, sequencerEnabled_eq_sem hp hawaits, hwait]

/-- A take and an update of a port change that axis and that port alone. -/
theorem takeSem_modPort {s : State} {a p : Nat} (ha : a < s.axes.length) (hp : p < s.ports.length) (f : Port → Port) :
    SameBut [a] [p] s ((takeSem a s).modPort p f) ∧
      ((takeSem a s).modPort p f).axis a = { s.axis a with sem := false } ∧
      ((takeSem a s).modPort p f).port p = f (s.port p) :=
  ⟨(SameBut.modAxis ..).trans (SameBut.modPort ..), State.axis_modAxis_self ha fun x => { x with sem := false },
    State.port_modPort_self (s := takeSem a s) hp f⟩

/-- Settles O38: each take and what follows it are an update of the axis and one of the port. -/
theorem pgoWaitSteps : Obligations.PgoWaitSteps := by
  unfold Obligations.PgoWaitSteps
  intro s p rest hwf hnext hp
  obtain ⟨hright, hleft, -⟩ := hwf.wheels
  have hport : p < s.ports.length := by
    obtain ⟨-, -, ports, -⟩ := hwf
    exact ports ▸ hp
  have hstep : step s = .next (sequencerStep p (s.withSchedule rest)) := step_next hnext
  have hstepR (hwait : (s.port p).pstate = .pwaitR) :=
    hstep.trans (congrArg _ (sequencerStep_pwaitR (s := s.withSchedule rest) hp hwait))
  have hstepL (hwait : (s.port p).pstate = .pwaitL) :=
    hstep.trans (congrArg _ (sequencerStep_pwaitL (s := s.withSchedule rest) hp hwait))
  refine ⟨fun hwait hgiven => ?_, fun hwait hgiven => ?_, fun hwait hempty => ?_, fun hwait hempty => ?_⟩
  · have hexec := (hstepR hwait).trans (congrArg _ (if_pos hgiven))
    rw [waitBeginLeft_eq, axis_takeSem] at hexec
    exact ⟨_, hexec, takeSem_modPort (s := s.withSchedule rest) hright hport _⟩
  · exact ⟨_, (hstepL hwait).trans (congrArg _ (if_pos hgiven)),
      takeSem_modPort (s := s.withSchedule rest) hleft hport fun q => q.complete .ok⟩
  · exact (hstepR hwait).trans (congrArg _ (if_neg (by simp [hempty])))
  · exact (hstepL hwait).trans (congrArg _ (if_neg (by simp [hempty])))

end Sys2Proof.Machine
end

section
/-! The end of a command, its error codes and the interrupt line (60_exceptions.md R190, R192, R195). -/

namespace Sys2Proof.Machine

/-! ### How a command ends -/

/-- The port after its command's issue: the command was refused before it did anything, it completed with OK, or it
holds the port (60_exceptions.md R190, R192). -/
inductive CommandEnd (s t : State) : Prop where
  | refused (code : ResultCode) (h : t = complete s.issuer code s)
  | completed (h : (t.port s.issuer).result = ResultCode.ok.code)
  | holds (h : (t.port s.issuer).result = ResultCode.pending.code)

theorem CommandEnd.complete_ok {s u : State} (hissuer : s.issuer < u.ports.length) :
    CommandEnd s (complete s.issuer .ok u) :=
  .completed (by rw [port_complete hissuer])

/-- The four commands that do their work and complete once the axis check has passed (41_axis_controller.md R110). -/
theorem CommandEnd.of_axisCheck {s u t : State} {a : Nat}
    (h : (if axisValid s.cfg a then .next (complete s.issuer .ok u) else .next (complete s.issuer .errAxis s) :
      Host.Outcome State Fault Refusal) = .next t)
    (hissuer : s.issuer < u.ports.length) : CommandEnd s t := by
  split at h <;> cases h
  · exact .complete_ok hissuer
  · exact .refused _ rfl

theorem CommandEnd.modPort_pending {s u : State} {f : Port → Port} (hissuer : s.issuer < u.ports.length)
    (hf : (f (u.port s.issuer)).result = ResultCode.pending.code) : CommandEnd s (u.modPort s.issuer f) :=
  .holds (by rw [State.port_modPort_self hissuer, hf])

/-- The waits of a PGO (42_planner.md R175): on the right wheel, on the left one, or on neither. -/
theorem CommandEnd.waitBeginRight {s u : State} (hissuer : s.issuer < u.ports.length) :
    CommandEnd s (waitBeginRight s.issuer u) := by
  rw [Machine.waitBeginRight, waitBeginLeft]
  split
  · exact .modPort_pending hissuer rfl
  · split
    · exact .modPort_pending hissuer rfl
    · exact .complete_ok hissuer

/-- A command makes its checks before it does anything, so one that ends with an error only ends. -/
theorem exec_commandEnd {i : Instr} {s t : State} (hissuer : s.issuer < s.ports.length)
    (hexec : exec i s = .next t) : CommandEnd s t := by
  have hmodPort (u : State) (hu : s.issuer < u.ports.length) (f : Port → Port) :
      s.issuer < (u.modPort s.issuer f).ports.length := by simpa using hu
  cases i with
  | go a => exact .of_axisCheck hexec hissuer
  | stop a hard => exact .of_axisCheck hexec hissuer
  | idle a => exact .of_axisCheck hexec hissuer
  | status a => exact .of_axisCheck hexec (hmodPort s hissuer _)
  | wait a =>
    simp only [exec, execWait] at hexec
    split at hexec
    · split at hexec <;> cases hexec
      · exact .modPort_pending hissuer rfl
      · exact .refused _ rfl
    · cases hexec
      exact .refused _ rfl
  | scale => cases hexec; exact .complete_ok (hmodPort s hissuer _)
  | pgo =>
    simp only [exec, execPgo] at hexec
    split at hexec <;> cases hexec
    · exact .refused _ rfl
    · exact .waitBeginRight (hmodPort (wheelGo _ _ (wheelGo _ _ s)) hissuer _)
  | pstop hard => cases hexec; exact .complete_ok hissuer
  | pidle => cases hexec; exact .complete_ok hissuer
  | pstatus => cases hexec; exact .complete_ok (hmodPort s hissuer _)

/-- On a ready port the end of a command writes RESULT and DONE only. -/
theorem Port.ended_of_ready {q : Port} (hbusy : q.busy = false) (hidle : q.pstate = .idle) (code : Word) :
    q.ended code = { q with result := code, done := true } := by
  cases q
  cases hbusy
  cases hidle
  rfl

/-- Settles O28: a command whose code is neither OK nor PENDING was refused, and a refusal only ends the command. -/
theorem errorCodeChangesNothingElse : Obligations.ErrorCodeChangesNothingElse := by
  unfold Obligations.ErrorCodeChangesNothingElse
  intro i s t hwf hbusy hidle hexec hlow hhigh
  cases exec_commandEnd hwf.issuer_lt hexec with
  | refused code h =>
    subst h
    refine ⟨SameBut.complete .., ?_⟩
    rw [port_complete hwf.issuer_lt, Port.ended_of_ready hbusy hidle]
  | completed h => exact absurd (h ▸ hlow) (by decide)
  | holds h => exact absurd (h ▸ hhigh) (by decide)

/-! ### The interrupt line -/

theorem irq_complete {p : Nat} {s : State} (hp : p < s.ports.length) (code : ResultCode) :
    ((complete p code s).port p).irq = (s.port p).doneIe := by
  rw [port_complete hp]
  exact Bool.true_and _

theorem irq_writePctl (q : Port) (v : Word) : (q.writePctl v).irq = (q.done && v.getLsbD 0) := rfl

theorem irq_writePstat (q : Port) (v : Word) : (q.writePstat v).irq = (q.irq && !v.getLsbD 1) :=
  Bool.and_right_comm ..

/-- Settles O16: what a completion and each writing access leave of IRQ. -/
theorem irqFollowsDoneAndEnable : Obligations.IrqFollowsDoneAndEnable := by
  unfold Obligations.IrqFollowsDoneAndEnable
  intro s p code v hp
  refine ⟨irq_complete hp code, fun hset => ?_, fun hclear => ?_, fun hclear => ?_, fun hkeep => ?_, rfl⟩
  · rw [irq_writePctl, hset, Bool.and_true]
  · rw [irq_writePctl, hclear, Bool.and_false]
  · rw [irq_writePstat, hclear, Bool.not_true, Bool.and_false]
  · rw [irq_writePstat, hkeep, Bool.not_false, Bool.and_true]

end Sys2Proof.Machine
end

section
/-! The ends of waits, and that every step goes on (60_exceptions.md R193, R197, R198, R209). -/

namespace Sys2Proof.Machine

/-! ### The ends of waits -/

/-- Settles O39: of the agents' steps only these two leave a held port other than held. -/
theorem onlyTakeOrResetEndsWait : Obligations.OnlyTakeOrResetEndsWait := by
  unfold Obligations.OnlyTakeOrResetEndsWait
  intro s t e rest p hnext hstep hbusy hwait hidle
  have hchanged : (t.port p).pstate ≠ (s.port p).pstate := fun h => hwait (h.symm.trans hidle)
  obtain ⟨k, -, h⟩ | ⟨_, -, -, rfl⟩ | ⟨q, rfl, rfl⟩ | ⟨a, -, rfl⟩ | ⟨-, rfl⟩ | ⟨he, -⟩ := step_cases hnext hstep
  · exact absurd (h.busy p hbusy).2 hchanged
  · exact absurd rfl hchanged
  · obtain rfl : p = q := by
      by_contra hpq
      exact hchanged (congrArg Port.pstate (port_sequencerStep_ne (s.withSchedule rest) hpq))
    obtain ⟨-, hsame⟩ | ⟨-, a, -, hawaits, hgiven, -⟩ := sequencerStep_cases p (s.withSchedule rest)
    · exact absurd (congrArg (fun u => (u.port p).pstate) hsame) hchanged
    · exact .inr ⟨rfl, a, hawaits, hgiven⟩
  · exact absurd (congrArg Port.pstate (port_tickStep a p (s.withSchedule rest))) hchanged
  · exact absurd (congrArg Port.pstate (port_clockStep p (s.withSchedule rest))) hchanged
  · exact .inl he

theorem sequencerStep_cfg_schedule (p : Nat) (s : State) :
    (sequencerStep p s).cfg = s.cfg ∧ (sequencerStep p s).schedule = s.schedule := by
  obtain ⟨-, h⟩ | ⟨-, a, f, -, -, h, -⟩ := sequencerStep_cases p s <;> rw [h] <;> exact ⟨rfl, rfl⟩

/-- The semaphore an enabled sequencer waits for is gone after its step (20_memory.md R73). -/
theorem sem_sequencerStep {s : State} {p a : Nat} (henabled : sequencerEnabled s p = true)
    (hawaits : awaitedAxis s.cfg (s.port p) = some a) :
    ((sequencerStep p s).axis a).sem = false := by
  obtain ⟨hdisabled, -⟩ | ⟨-, b, f, hb, -, hstep, -⟩ := sequencerStep_cases p s
  · exact absurd (hdisabled.symm.trans henabled) Bool.false_ne_true
  · obtain rfl : b = a := Option.some.inj (hb.symm.trans hawaits)
    simp [hstep, axis_takeSem]

/-- Settles O40: the first take leaves the other port alone, and the semaphore it waits for is gone. -/
theorem oneGiveEndsOneWait : Obligations.OneGiveEndsOneWait := by
  unfold Obligations.OneGiveEndsOneWait
  intro s t p q rest _ hnext hpq hp hq hsame hstep
  cases (step_next hnext).symm.trans hstep
  obtain ⟨hlt, a, hawaits, -⟩ := sequencerEnabled_iff.1 hq
  have hport := port_sequencerStep_ne (s.withSchedule rest) hpq.symm
  obtain ⟨hcfg, -⟩ := sequencerStep_cfg_schedule p (s.withSchedule rest)
  have hsem := sem_sequencerStep (s := s.withSchedule rest) hp (hsame.trans hawaits)
  refine ⟨hport, ?_⟩
  rw [← hsem]
  exact sequencerEnabled_eq_sem (by rw [hcfg]; exact hlt) (by rw [hcfg, hport]; exact hawaits)

/-! ### Every step goes on -/

theorem tickStep_cfg_schedule (a : Nat) (s : State) :
    (tickStep a s).cfg = s.cfg ∧ (tickStep a s).schedule = s.schedule := by
  unfold tickStep
  split <;> exact ⟨rfl, rfl⟩

theorem clockStep_cfg_schedule (s : State) : (clockStep s).cfg = s.cfg ∧ (clockStep s).schedule = s.schedule := by
  unfold clockStep
  split <;> exact ⟨rfl, rfl⟩

/-- Every agent's step answers a next state, and neither reconfigures the block nor schedules a step. -/
theorem runEvent_goes_on (e : Event) {s : State} (hc : configLegal s.cfg = true) :
    ∃ t, runEvent e s = .next t ∧ t.cfg = s.cfg ∧ t.schedule = s.schedule := by
  cases e with
  | access k =>
    obtain ⟨t, ht, h⟩ := hostAccess_effect k hc
    exact ⟨t, ht, h.cfg, h.schedule⟩
  | host p =>
    obtain ⟨-, hs⟩ | ⟨k, t, -, ht, h⟩ := hostStep_effect p hc
    · exact ⟨s, hs, rfl, rfl⟩
    · exact ⟨t, ht, h.cfg, h.schedule⟩
  | sequencer p => exact ⟨_, rfl, sequencerStep_cfg_schedule p s⟩
  | tick a => exact ⟨_, rfl, tickStep_cfg_schedule a s⟩
  | clockEdge => exact ⟨_, rfl, clockStep_cfg_schedule s⟩
  | reset => exact ⟨_, rfl, rfl, rfl⟩

/-- Settles O56: the step is the scheduled agent's, `runEvent_goes_on`, or none. -/
theorem everyStepGoesOn : Obligations.EveryStepGoesOn := by
  unfold Obligations.EveryStepGoesOn
  intro s
  refine ⟨fun hc => ?_, fun hc => if_neg (by simp [hc])⟩
  cases hsch : s.schedule with
  | nil => exact ⟨s, step_nil hc hsch, rfl, hsch⟩
  | cons e rest =>
    rw [step_next ⟨hc, hsch⟩]
    exact runEvent_goes_on e (s := s.withSchedule rest) hc

end Sys2Proof.Machine
end

section
/-! The timer channel of the timed model (60_exceptions.md R202). -/

namespace Sys2Proof.Machine

/-! ### One axis -/

section
variable {c : Config} {x : Axis}

theorem clockEdge_forced (hforce : x.force = true) : x.clockEdge c = { x.tick c with tcnt := 0#16 } := if_pos hforce

section
variable (hforce : x.force = false)
include hforce

theorem clockEdge_stopped (hreload : x.reload = 0#16) : x.clockEdge c = { x with tcnt := 0#16 } := by
  simp [Axis.clockEdge, hforce, hreload]

theorem clockEdge_due (hreload : x.reload ≠ 0#16) (hdue : x.reload.toNat ≤ x.tcnt.toNat + 1) :
    x.clockEdge c = { x.tick c with tcnt := 0#16 } := by
  simp [Axis.clockEdge, hforce, hreload, hdue]

theorem clockEdge_counting (hcount : x.tcnt.toNat + 1 < x.reload.toNat) :
    x.clockEdge c = { x with tcnt := BitVec.ofNat 16 (x.tcnt.toNat + 1) } := by
  have hreload : x.reload ≠ 0#16 := fun h => by simp [h] at hcount
  have hnext : x.tcnt + 1#16 = BitVec.ofNat 16 (x.tcnt.toNat + 1) := by simp [BitVec.ofNat_add]
  simp [Axis.clockEdge, hforce, hreload, Nat.not_le.2 hcount, hnext]

end

/-- A count starts at 0 and goes on only while it stays below RELOAD. -/
theorem clockEdge_tcnt (c : Config) (x : Axis) :
    (x.clockEdge c).tcnt = 0#16 ∨ (x.clockEdge c).tcnt.toNat < (x.clockEdge c).reload.toNat := by
  cases hforce : x.force with
  | true => exact .inl (by rw [clockEdge_forced hforce])
  | false =>
    by_cases hreload : x.reload = 0#16
    · exact .inl (by rw [clockEdge_stopped hforce hreload])
    · by_cases hdue : x.reload.toNat ≤ x.tcnt.toNat + 1
      · exact .inl (by rw [clockEdge_due hforce hreload hdue])
      · have hcount : x.tcnt.toNat + 1 < x.reload.toNat := Nat.not_le.1 hdue
        right
        rw [clockEdge_counting hforce hcount, BitVec.toNat_ofNat]
        exact (Nat.mod_le _ _).trans_lt hcount

end

/-! ### The whole block -/

section
variable {s : State} (htimed : s.cfg.timing = .timed)
include htimed

theorem clockStep_timed : clockStep s = { s with axes := s.axes.map fun x => x.clockEdge s.cfg } := if_pos htimed

theorem axis_clockStep_timed {a : Nat} (ha : a < s.axes.length) :
    (clockStep s).axis a = (s.axis a).clockEdge s.cfg := by
  simp [clockStep_timed htimed, State.axis, ha]

/-- A clock edge changes the axes of the block and nothing else. -/
theorem SameBut.clockStep (axes : s.axes.length = s.cfg.numAxes) :
    SameBut (List.range s.cfg.numAxes) [] s (clockStep s) := by
  have haxis (b : Nat) (hb : b ∉ List.range s.cfg.numAxes) : (Machine.clockStep s).axis b = s.axis b :=
    (axis_clockStep b s).resolve_right fun ⟨_, hlt, _⟩ => hb (List.mem_range.2 (axes ▸ hlt))
  rw [clockStep_timed htimed] at haxis ⊢
  exact ⟨rfl, rfl, rfl, rfl, rfl, List.length_map _, rfl, haxis, fun _ _ => rfl⟩

end

/-- Settles O52: each axis moves by `Axis.clockEdge`, of whose cases there is a lemma each. -/
theorem clockEdgeFollowsItsRule : Obligations.ClockEdgeFollowsItsRule := by
  unfold Obligations.ClockEdgeFollowsItsRule
  intro s rest hwf htimed hnext
  obtain ⟨-, axes, -⟩ := hwf
  refine ⟨_, step_next hnext, SameBut.clockStep (s := s.withSchedule rest) htimed axes, fun a ha => ?_⟩
  rw [axis_clockStep_timed (s := s.withSchedule rest) htimed (axes ▸ ha)]
  exact ⟨clockEdge_forced, clockEdge_due, clockEdge_counting, clockEdge_stopped, clockEdge_tcnt ..⟩

end Sys2Proof.Machine
end

section
/-! The reset event (70_reset_and_hazards.md R220). -/

namespace Sys2Proof.Machine

/-- Settles O53: reset writes one reset axis per axis and one reset port per port, and the values stated are theirs. -/
theorem resetClearsEveryField : Obligations.ResetClearsEveryField := by
  unfold Obligations.ResetClearsEveryField
  intro s rest hnext
  refine ⟨resetStep (s.withSchedule rest), step_next hnext, rfl, List.length_replicate, List.length_replicate, ?_, ?_⟩
  · exact fun x hx => (List.eq_of_mem_replicate hx : x = Axis.reset)
  · exact fun q hq => (List.eq_of_mem_replicate hq : q = Port.reset)

/-- Settles O54: `inv_resetWith`, of which the machine's own reset state is the case of EX1. -/
theorem resetHasInvariant : Obligations.ResetHasInvariant := by
  unfold Obligations.ResetHasInvariant
  have hex1 : configLegal Config.ex1 = true := by decide
  exact ⟨fun _ => inv_resetWith, inv_resetWith hex1⟩

end Sys2Proof.Machine
end
